-- ==== Sys2Proof/Word.lean ====
section
/-! DEFINITION. The word types of HTB-1 (00_scope.md R7, R9): every quantity is unsigned; bit 0 is the least significant. -/

namespace Sys2Proof

/-- One word of the register port: REG_W = 32 bits (R7). -/
abbrev Word := BitVec 32

/-- One symbol, path character or opcode: SYM_W = 8 bits (R7). -/
abbrev Byte := BitVec 8

/-- One node frequency: NFREQ_W = 40 bits (R7). -/
abbrev NodeFreq := BitVec 40

/-- One packed path: PATH_WORDS = 8 words of 32 bits (R7, R65). -/
abbrev PathBits := BitVec 256

/-- An arena index, 0..510: NODE_CAP = 511 entries (R7, R41). -/
abbrev NodeIdx := Fin 511

/-- A word index of the register port, a[15:2] of the byte offset a: ADDR_W = 16 (R7, R60, R69). -/
abbrev WordAddr := BitVec 14

end Sys2Proof
end

