-- ==== Sys2Proof/Syntax.lean ====
section
/-! DEFINITION. The commands of HTB-1, one constructor per row of spec/opcode_table.json (30_encoding.md R83). -/

namespace Sys2Proof

/-- A command, the block's counterpart of an instruction (R80). Formats B and T carry their operand (R82). -/
inductive Instr where
  /-- NOP (40_control.md R100). -/
  | nop
  /-- SOFT_RESET (40_control.md R101). -/
  | softReset
  /-- ERR_CLEAR (40_control.md R102). -/
  | errClear
  /-- FREQ_CLEAR (40_control.md R103). -/
  | freqClear
  /-- BUILD (41_tree_builder.md R120). -/
  | build
  /-- SERIALIZE (42_serializer_encoder.md R140). -/
  | serialize
  /-- LOAD_BEGIN (43_deserializer.md R161). -/
  | loadBegin
  /-- LOAD_SYM (43_deserializer.md R162); its code point is register DATA. -/
  | loadSym
  /-- LOAD_CHAR c (43_deserializer.md R163); c is any byte. -/
  | loadChar (c : Byte)
  /-- LOAD_ROW_END (43_deserializer.md R166). -/
  | loadRowEnd
  /-- LOAD_END (43_deserializer.md R168). -/
  | loadEnd
  /-- ENCODE s (42_serializer_encoder.md R142); s is a symbol. -/
  | encode (s : Byte)
  /-- DEC_BEGIN (44_decoder.md R191). -/
  | decBegin
  /-- DEC_BIT b (44_decoder.md R192); b is one input bit. -/
  | decBit (b : Bool)
  /-- DEC_END (44_decoder.md R195). -/
  | decEnd
  deriving DecidableEq, Repr

end Sys2Proof
end

