-- ==== Sys2Proof/WellFormed.lean ====
section
/-! DEFINITION. Formats, and the check that a command has the operand its format asks for (30_encoding.md R81, R82, R88). -/

namespace Sys2Proof

/-- The three formats of a command word (R81). -/
inductive Format where
  /-- No operand; bits [31:8] are 0. -/
  | n
  /-- Operand IMM8 = w[15:8]; bits [31:16] are 0. -/
  | b
  /-- Operand BIT = w[8]; bits [31:9] are 0. -/
  | t
  deriving DecidableEq, Repr

/-- The format of each command (R83). -/
def Instr.format : Instr → Format
  | .loadChar _ => .b
  | .encode _ => .b
  | .decBit _ => .t
  | .nop => .n
  | .softReset => .n
  | .errClear => .n
  | .freqClear => .n
  | .build => .n
  | .serialize => .n
  | .loadBegin => .n
  | .loadSym => .n
  | .loadRowEnd => .n
  | .loadEnd => .n
  | .decBegin => .n
  | .decEnd => .n

/-- The operand a command carries in its word, as a number (R82). -/
def Instr.operand : Instr → Option Nat
  | .loadChar c => some c.toNat
  | .encode s => some s.toNat
  | .decBit b => some b.toNat
  | .nop => none
  | .softReset => none
  | .errClear => none
  | .freqClear => none
  | .build => none
  | .serialize => none
  | .loadBegin => none
  | .loadSym => none
  | .loadRowEnd => none
  | .loadEnd => none
  | .decBegin => none
  | .decEnd => none

/-- The operand rule of R88: none for format N, a byte 0..255 for format B, 0 or 1 for format T. -/
def operandFits : Format → Option Nat → Bool
  | .n, none => true
  | .n, some _ => false
  | .b, some v => v < 256
  | .b, none => false
  | .t, some v => v < 2
  | .t, none => false

/-- A command is well formed when its operand fits its format. The operands' types already say so, so every term is. -/
def Instr.wf (i : Instr) : Bool := operandFits i.format i.operand

/-- A source line of R88: a mnemonic and what is written after it. Unlike a term of Instr, one can be ill formed. -/
structure SourceLine where
  /-- The mnemonic as spec/opcode_table.json spells it. -/
  mnemonic : String
  /-- The number after it: a byte (decimal, hexadecimal or a quoted character) or a bit; none where nothing is written. -/
  operand : Option Nat
  deriving DecidableEq, Repr

/-- The format that goes with a mnemonic; none where no command has that name (R83, R88). -/
def SourceLine.format? (l : SourceLine) : Option Format :=
  if l.mnemonic ∈ ["LOAD_CHAR", "ENCODE"] then some .b
  else if l.mnemonic = "DEC_BIT" then some .t
  else if l.mnemonic ∈ ["NOP", "SOFT_RESET", "ERR_CLEAR", "FREQ_CLEAR", "BUILD", "SERIALIZE", "LOAD_BEGIN", "LOAD_SYM",
      "LOAD_ROW_END", "LOAD_END", "DEC_BEGIN", "DEC_END"] then some .n
  else none

/-- A source line is well formed when its mnemonic exists and its operand fits that command's format (R88). -/
def SourceLine.wf (l : SourceLine) : Bool :=
  match l.format? with
  | none => false
  | some f => operandFits f l.operand

end Sys2Proof
end

