-- ==== Sys2Proof/Decode.lean ====
section
/-! DEFINITION. The decoder, total on every 32-bit word (30_encoding.md R84), and the encoder from the same table (R81, R83). -/

namespace Sys2Proof

/-- Why a word is no command (R84, R85, R222). -/
inductive Illegal where
  /-- ILLEGAL(sub = 1): the opcode w[7:0] is not defined. -/
  | undefinedOpcode
  /-- ILLEGAL(sub = 2): the opcode is defined, but a bit its format requires to be 0 is 1. -/
  | reservedBits
  deriving DecidableEq, Repr

/-- What decode answers: a command, or ILLEGAL with its reason (R84). -/
inductive Decoded where
  | command (i : Instr)
  | illegal (why : Illegal)
  deriving DecidableEq, Repr

/-- Field OP, bits [7:0] of the word (R81). -/
def wordOp (w : Word) : Byte := w.extractLsb' 0 8

/-- Field IMM8, bits [15:8] of the word (R81, R82). -/
def wordImm8 (w : Word) : Byte := w.extractLsb' 8 8

/-- Field BIT, bit [8] of the word (R81, R82). -/
def wordBit (w : Word) : Bool := w.getLsbD 8

/-- The command that an opcode names, with its operand taken from the word; none where the opcode is undefined (R83). -/
def commandOf (w : Word) : Option Instr :=
  match (wordOp w).toNat with
  | 0x00 => some .nop
  | 0x01 => some .softReset
  | 0x02 => some .errClear
  | 0x03 => some .freqClear
  | 0x10 => some .build
  | 0x11 => some .serialize
  | 0x20 => some .loadBegin
  | 0x21 => some .loadSym
  | 0x22 => some (.loadChar (wordImm8 w))
  | 0x23 => some .loadRowEnd
  | 0x24 => some .loadEnd
  | 0x30 => some (.encode (wordImm8 w))
  | 0x40 => some .decBegin
  | 0x41 => some (.decBit (wordBit w))
  | 0x42 => some .decEnd
  | _ => none

/-- The bits a format requires to be 0 are 0: [31:8], [31:16] or [31:9] (R81). -/
def reservedClear (f : Format) (w : Word) : Bool :=
  match f with
  | .n => w.extractLsb' 8 24 == 0#24
  | .b => w.extractLsb' 16 16 == 0#16
  | .t => w.extractLsb' 9 23 == 0#23

/-- decode(w): an undefined opcode first, then set reserved bits, else the command (R84). -/
def decode (w : Word) : Decoded :=
  match commandOf w with
  | none => .illegal .undefinedOpcode
  | some i => if reservedClear i.format w then .command i else .illegal .reservedBits

/-- The opcode of each command (R83). -/
def Instr.opcode : Instr → Byte
  | .nop => 0x00#8
  | .softReset => 0x01#8
  | .errClear => 0x02#8
  | .freqClear => 0x03#8
  | .build => 0x10#8
  | .serialize => 0x11#8
  | .loadBegin => 0x20#8
  | .loadSym => 0x21#8
  | .loadChar _ => 0x22#8
  | .loadRowEnd => 0x23#8
  | .loadEnd => 0x24#8
  | .encode _ => 0x30#8
  | .decBegin => 0x40#8
  | .decBit _ => 0x41#8
  | .decEnd => 0x42#8

/-- What stands in bits [15:8]: the operand of formats B and T, 0 for format N (R81, R82). -/
def Instr.operandByte : Instr → Byte
  | .loadChar c => c
  | .encode s => s
  | .decBit b => BitVec.ofNat 8 b.toNat
  | .nop => 0#8
  | .softReset => 0#8
  | .errClear => 0#8
  | .freqClear => 0#8
  | .build => 0#8
  | .serialize => 0#8
  | .loadBegin => 0#8
  | .loadSym => 0#8
  | .loadRowEnd => 0#8
  | .loadEnd => 0#8
  | .decBegin => 0#8
  | .decEnd => 0#8

/-- The one word of a command: RSV = 0, the operand byte, OP (R81, R83). -/
def encode (i : Instr) : Word := 0#16 ++ i.operandByte ++ i.opcode

/-- The word of `nbits` bits, the bits above them 0 (a command is one 32-bit word, R80). -/
def tableWord (nbits w : Nat) : Word := BitVec.ofNat 32 (w % 2 ^ nbits)

/-- The command the decoder reads from an opcode-table word; none where the word is illegal. -/
def decodeTableWord (nbits w : Nat) : Option Instr :=
  match decode (tableWord nbits w) with
  | .command i => some i
  | .illegal _ => none

/-- One row of the opcode table: a word is the row's when its bits under the mask are those of the match. -/
structure OpcodeRow where
  mnemonic : String
  mtch : Word
  mask : Word
  deriving DecidableEq, Repr

/-- spec/opcode_table.json, row by row: a second reading of the encodings, beside R83's. -/
def opcodeTable : List OpcodeRow :=
  [⟨"NOP", 0x00000000#32, 0xFFFFFFFF#32⟩, ⟨"SOFT_RESET", 0x00000001#32, 0xFFFFFFFF#32⟩,
   ⟨"ERR_CLEAR", 0x00000002#32, 0xFFFFFFFF#32⟩, ⟨"FREQ_CLEAR", 0x00000003#32, 0xFFFFFFFF#32⟩,
   ⟨"BUILD", 0x00000010#32, 0xFFFFFFFF#32⟩, ⟨"SERIALIZE", 0x00000011#32, 0xFFFFFFFF#32⟩,
   ⟨"LOAD_BEGIN", 0x00000020#32, 0xFFFFFFFF#32⟩, ⟨"LOAD_SYM", 0x00000021#32, 0xFFFFFFFF#32⟩,
   ⟨"LOAD_CHAR", 0x00000022#32, 0xFFFF00FF#32⟩, ⟨"LOAD_ROW_END", 0x00000023#32, 0xFFFFFFFF#32⟩,
   ⟨"LOAD_END", 0x00000024#32, 0xFFFFFFFF#32⟩, ⟨"ENCODE", 0x00000030#32, 0xFFFF00FF#32⟩,
   ⟨"DEC_BEGIN", 0x00000040#32, 0xFFFFFFFF#32⟩, ⟨"DEC_BIT", 0x00000041#32, 0xFFFFFEFF#32⟩,
   ⟨"DEC_END", 0x00000042#32, 0xFFFFFFFF#32⟩]

/-- The word is one of the row's (match and mask). -/
def OpcodeRow.covers (r : OpcodeRow) (w : Word) : Bool := w &&& r.mask == r.mtch

/-- The mnemonic of each command, as spec/opcode_table.json spells it (R83, R88). -/
def Instr.mnemonic : Instr → String
  | .nop => "NOP"
  | .softReset => "SOFT_RESET"
  | .errClear => "ERR_CLEAR"
  | .freqClear => "FREQ_CLEAR"
  | .build => "BUILD"
  | .serialize => "SERIALIZE"
  | .loadBegin => "LOAD_BEGIN"
  | .loadSym => "LOAD_SYM"
  | .loadChar _ => "LOAD_CHAR"
  | .loadRowEnd => "LOAD_ROW_END"
  | .loadEnd => "LOAD_END"
  | .encode _ => "ENCODE"
  | .decBegin => "DEC_BEGIN"
  | .decBit _ => "DEC_BIT"
  | .decEnd => "DEC_END"

end Sys2Proof
end

