-- ==== Sys2Proof/Config.lean ====
section
/-! DEFINITION. What the hardware fixes (00_scope.md R7) and the one free value of the spec (70_reset_and_hazards.md R262). -/

namespace Sys2Proof.Config

/-- The value of register ID, the bytes 'H','U','F','F' (R7, R22). -/
def idValue : Word := 0x48554646#32

/-- The path character '0', taken as the byte 0x30 (R9, R163; D17). -/
def char0 : Byte := 0x30#8

/-- The path character '1', taken as the byte 0x31 (R9, R163; D17). -/
def char1 : Byte := 0x31#8

/-- SYMS: how many symbols there are (R7). -/
def syms : Nat := 256

/-- MAX_PATH: the longest bit-path, in bits (R7). -/
def maxPath : Nat := 255

/-- The NFREQ of a node that has no frequency, the 40-bit image of -1 (R41, R43). -/
def noFreq : NodeFreq := 0xFFFFFFFFFF#40

/-- The value a read returns while STATUS.BUSY = 1, per draw: "a free draw of 32 bits, under no law" (R262, U4).
It has no body, so nothing can be proved of its value (log 2). -/
opaque busyRead : Nat → Word

end Sys2Proof.Config
end

