-- ==== Sys2Proof/Machine/State.lean ====
section
/-! DEFINITION. The state of HTB-1 as plain data (10_state.md R20 to R44), the reasons a step can stop, and the state after reset
(70_reset_and_hazards.md R250, R252). -/

namespace Sys2Proof.Machine

/-- STATUS.TREE_STATE, what the node arena holds (R25). -/
inductive TreeState where
  /-- 0: there is no tree. -/
  | empty
  /-- 1: BUILD made a valid tree. -/
  | built
  /-- 2: a LOAD_BEGIN session is open. -/
  | loading
  /-- 3: LOAD_END made a valid tree. -/
  | loaded
  deriving DecidableEq, Repr

/-- STATUS.DEC_STATE, the state of tree_traversal_fsm (R25, 44_decoder.md R190). The value 3 never occurs. -/
inductive DecState where
  /-- 0: no decode session. -/
  | idle
  /-- 1: DOC's AtRoot. -/
  | atRoot
  /-- 2: DOC's Descending. -/
  | descending
  deriving DecidableEq, Repr

/-- Register ERR: OP [23:16], SUB [15:8], CODE [7:0] (R26). -/
structure ErrReg where
  op : Byte
  sub : Byte
  code : Byte
  deriving DecidableEq, Repr

/-- Register DEC_OUT: VALID [8], SYM [7:0] (R33). -/
structure DecOut where
  valid : Bool
  sym : Byte
  deriving DecidableEq, Repr

/-- Register CURSOR: PENDING [23:16], NODE [8:0] (R35). -/
structure Cursor where
  node : NodeIdx
  pending : Byte
  deriving DecidableEq, Repr

/-- Register LOAD_CUR: SYM [31:24], LEN [23:16], NODE [8:0] (R36). -/
structure LoadCur where
  sym : Byte
  len : Byte
  node : NodeIdx
  deriving DecidableEq, Repr

/-- PEND, the hidden pending-command latch (R37). -/
structure Pend where
  valid : Bool
  word : Word
  deriving DecidableEq, Repr

/-- One entry of the node arena (R41). A HAS_ bit of 0 is `none`; the field it guards is then 0. -/
structure Node where
  left : Option NodeIdx
  right : Option NodeIdx
  sym : Option Byte
  nfreq : NodeFreq
  deriving DecidableEq, Repr

/-- EMPTY_NODE: every flag 0 and the sentinel frequency (R41). -/
def Node.empty : Node := { left := none, right := none, sym := none, nfreq := Config.noFreq }

/-- One row of the code table: path bit i is bit i of `path`, and the bits at LEN and above are 0 (R44, R65). -/
structure Row where
  sym : Byte
  len : Byte
  path : PathBits
  deriving DecidableEq, Repr

/-- The all-zero row. -/
def Row.zero : Row := { sym := 0#8, len := 0#8, path := 0#256 }

/-- The host-writable storage of the port, FREQ[0..255] (R40): (symbol, count) pairs in canonical form, symbols strictly
rising and no count 0. A symbol that is not listed reads 0, the reset content (R252, log 3). -/
abbrev Memory := List (Nat × Word)

/-- What the outside does to the block, one step each (R5, R70, R250, log 1). -/
inductive Input where
  /-- The host reads the word at this word index: MemRead (R61). -/
  | read (a : WordAddr)
  /-- The host writes this value to the word index: MemWrite (R62). -/
  | write (a : WordAddr) (v : Word)
  /-- The core has its turn: its step is taken if it is enabled (R66, R70). -/
  | coreTurn
  /-- The host's WAIT: it reads STATUS until a read shows BUSY = 0 (R92). `polls` is how many more of the reads show BUSY = 1 before the
  core has its turn; R265 leaves it open. -/
  | wait (polls : Nat)
  /-- The external reset event (R250). -/
  | reset
  deriving DecidableEq, Repr

/-- Everything the spec gives the block, and three fields of the model's own at the end. -/
structure State where
  /-- DATA (R24). -/
  data : Word
  /-- STATUS.ERR (R25). -/
  err : Bool
  /-- STATUS.OVERRUN (R25, R67). -/
  overrun : Bool
  /-- STATUS.CT_VALID (R25). -/
  ctValid : Bool
  /-- STATUS.TREE_STATE (R25). -/
  treeState : TreeState
  /-- STATUS.ROW_OPEN (R25). -/
  rowOpen : Bool
  /-- STATUS.DEC_STATE (R25, R190). -/
  decState : DecState
  /-- ERR (R26). -/
  errReg : ErrReg
  /-- ROOT (R27). -/
  root : NodeIdx
  /-- LEAF_COUNT, 9 bits (R28). -/
  leafCount : BitVec 9
  /-- NODE_COUNT, 0..511 (R29). -/
  nodeCount : Fin 512
  /-- ROW_COUNT, 9 bits (R30). -/
  rowCount : BitVec 9
  /-- RES_LEN (R31). -/
  resLen : Byte
  /-- RES_PATH0..RES_PATH7 together: RES_PATHj is bits 32j+31..32j (R32). -/
  resPath : PathBits
  /-- DEC_OUT (R33). -/
  decOut : DecOut
  /-- DEC_COUNT (R34). -/
  decCount : Word
  /-- CURSOR (R35). -/
  cursor : Cursor
  /-- LOAD_CUR (R36). -/
  loadCur : LoadCur
  /-- PEND (R37). -/
  pend : Pend
  /-- INIT_PENDING (R38). -/
  initPending : Bool
  /-- FREQ[0..255] (R40). -/
  freq : Memory
  /-- NODE[0..510] (R41). -/
  nodes : Vector Node 511
  /-- CT[0..255] (R44). -/
  ct : Vector Row 256
  /-- The model's own: what the outside still does, oldest first (log 1). -/
  inputs : List Input
  /-- The model's own: what the host's reads returned, newest first (log 1). -/
  reads : List Word
  /-- The model's own: how many free draws the reads while BUSY = 1 have taken (log 2). -/
  draws : Nat
  deriving DecidableEq, Repr

/-- Why the machine stops with a fault. -/
inductive Fault where
  /-- Raised by SERIALIZE alone, where its walk from ROOT descends past 255 bits or emits more than 256 rows, so that LEN or CT
  has no room: the nodes are then no valid tree (R45 item 6), and no reachable state is so. Safe: the machine stops where the
  spec's pseudocode has no result (log 6). -/
  | walkOutOfBounds
  deriving DecidableEq, Repr

/-- Why the model has no meaning for a command. -/
inductive Refusal where
  /-- Raised by an arm of exec whose command has no meaning yet. Safe: there is no next state. No arm raises it now. -/
  | notModelled (mnemonic : String)
  deriving DecidableEq, Repr

/-- The machine right after reset, before the initialisation job (R250, R252): INIT_PENDING = 1, everything else 0.
NODE and CT are unspecified and unobservable: EMPTY_NODE and zero rows here (log 4). -/
def State.reset : State where
  data := 0#32
  err := false
  overrun := false
  ctValid := false
  treeState := .empty
  rowOpen := false
  decState := .idle
  errReg := ⟨0#8, 0#8, 0#8⟩
  root := 0
  leafCount := 0#9
  nodeCount := 0
  rowCount := 0#9
  resLen := 0#8
  resPath := 0#256
  decOut := ⟨false, 0#8⟩
  decCount := 0#32
  cursor := ⟨0, 0#8⟩
  loadCur := ⟨0#8, 0#8, 0⟩
  pend := ⟨false, 0#32⟩
  initPending := true
  freq := []
  nodes := Vector.replicate 511 Node.empty
  ct := Vector.replicate 256 Row.zero
  inputs := []
  reads := []
  draws := 0

end Sys2Proof.Machine
end

