-- ==== Sys2Proof/Machine/Ops.lean ====
section
/-! DEFINITION. The shared operations: FREQ storage, the arena, raising an error and the return from one, the dispatch of a command
(60_exceptions.md R220 to R232, 20_memory.md R66). -/

namespace Sys2Proof.Machine

/-! ## FREQ storage (R40) -/

/-- The count of a symbol; 0 where none is listed. -/
def Memory.read : Memory → Nat → Word
  | [], _ => 0#32
  | (k', v') :: m, k => if k = k' then v' else Memory.read m k

/-- Store a count, keeping the canonical form: storing 0 removes the entry. -/
def Memory.write : Memory → Nat → Word → Memory
  | [], k, v => if v = 0#32 then [] else [(k, v)]
  | (k', v') :: m, k, v =>
    if k < k' then (if v = 0#32 then (k', v') :: m else (k, v) :: (k', v') :: m)
    else if k = k' then (if v = 0#32 then m else (k, v) :: m)
    else (k', v') :: Memory.write m k v

/-- Canonical from a symbol on: symbols at least `lo` and below 256, strictly rising, no count 0. -/
def Memory.wfFrom : Nat → Memory → Bool
  | _, [] => true
  | lo, (k, v) :: m => decide (lo ≤ k) && decide (k < 256) && !decide (v = 0#32) && Memory.wfFrom (k + 1) m

/-- The canonical form of FREQ. -/
def Memory.wf (m : Memory) : Bool := Memory.wfFrom 0 m

/-- FREQ[s] (R40). -/
def State.freqAt (s : State) (sym : Byte) : Word := s.freq.read sym.toNat

/-- FREQ[s] ← v (R62). -/
def State.setFreq (s : State) (sym : Byte) (v : Word) : State := { s with freq := s.freq.write sym.toNat v }

/-! ## The arena (R11, R41, R42) -/

/-- A leaf: a symbol and no child (R42). -/
def Node.isLeaf (n : Node) : Bool := n.sym.isSome && n.left.isNone && n.right.isNone

/-- Internal: no symbol and both children (R42). -/
def Node.isInternal (n : Node) : Bool := n.sym.isNone && n.left.isSome && n.right.isSome

/-- NODE[i] for i < NODE_COUNT, in index order. -/
def State.liveNodes (s : State) : List Node := s.nodes.toList.take s.nodeCount.val

/-- NODE[i] ← n. -/
def State.setNode (s : State) (i : NodeIdx) (n : Node) : State := { s with nodes := s.nodes.set i.val n i.isLt }

/-- alloc(): the index NODE_COUNT, that node set to EMPTY_NODE, NODE_COUNT one more (R11); none where all 511 are in use (R165). -/
def State.alloc (s : State) : Option (NodeIdx × State) :=
  if h : s.nodeCount.val < 511 then
    some (⟨s.nodeCount.val, h⟩,
      { s.setNode ⟨s.nodeCount.val, h⟩ Node.empty with nodeCount := ⟨s.nodeCount.val + 1, Nat.succ_lt_succ h⟩ })
  else none

/-- Put a child under node i, on the left for false and on the right for true. -/
def State.setChild (s : State) (i : NodeIdx) (right : Bool) (j : NodeIdx) : State :=
  if right then s.setNode i { s.nodes[i] with right := some j } else s.setNode i { s.nodes[i] with left := some j }

/-- child(i, b): LEFT for 0, RIGHT for 1, absent where its HAS_ bit is 0 (R190). -/
def Node.child (n : Node) (b : Bool) : Option NodeIdx := if b then n.right else n.left

/-! ## BUSY and the handshake (R37, R66) -/

/-- STATUS.BUSY: a command is pending, or the initialisation job has not run (R37). -/
def State.busy (s : State) : Bool := s.pend.valid || s.initPending

/-- The end of a core step: PEND.VALID ← 0, and with it STATUS.BUSY ← 0 (R66). -/
def State.complete (s : State) : State := { s with pend := { s.pend with valid := false } }

/-! ## Errors (R220 to R225) -/

/-- The FORMAT subcodes (R221). -/
inductive FormatSub where
  | badChar
  | pathThroughLeaf
  | assignToInternal
  | duplicatePath
  | incompleteRow
  | codepointRange
  | pathTooLong
  | capacity
  | duplicateSymbol
  | incompleteTree
  | emptyTable
  deriving DecidableEq, Repr

/-- The errors a command can raise (R220). -/
inductive ErrorKind where
  | construction
  | format (sub : FormatSub)
  | truncated
  | degenerate
  | sequence
  | symbolAbsent
  | illegalCmd (why : Illegal)
  deriving DecidableEq, Repr

/-- ERR.SUB of a FORMAT error (R221). -/
def FormatSub.code : FormatSub → Byte
  | .badChar => 1#8
  | .pathThroughLeaf => 2#8
  | .assignToInternal => 3#8
  | .duplicatePath => 4#8
  | .incompleteRow => 5#8
  | .codepointRange => 6#8
  | .pathTooLong => 7#8
  | .capacity => 8#8
  | .duplicateSymbol => 9#8
  | .incompleteTree => 10#8
  | .emptyTable => 11#8

/-- ERR.CODE (R220). -/
def ErrorKind.code : ErrorKind → Byte
  | .construction => 1#8
  | .format _ => 2#8
  | .truncated => 3#8
  | .degenerate => 4#8
  | .sequence => 5#8
  | .symbolAbsent => 6#8
  | .illegalCmd _ => 7#8

/-- ERR.SUB: R221 for FORMAT, R222 for ILLEGAL_CMD, 0 for every other code. -/
def ErrorKind.sub : ErrorKind → Byte
  | .format f => f.code
  | .illegalCmd .undefinedOpcode => 1#8
  | .illegalCmd .reservedBits => 2#8
  | .construction => 0#8
  | .truncated => 0#8
  | .degenerate => 0#8
  | .sequence => 0#8
  | .symbolAbsent => 0#8

/-- discard_tree() (R225). -/
def State.discardTree (s : State) : State :=
  { s with
    treeState := .empty
    nodeCount := 0
    leafCount := 0#9
    root := 0
    ctValid := false
    rowCount := 0#9
    rowOpen := false
    loadCur := ⟨0#8, 0#8, 0⟩
    decState := .idle }

/-- The record of an error: ERR and STATUS.ERR, written only where STATUS.ERR = 0 (R224). -/
def State.recordError (s : State) (op : Byte) (e : ErrorKind) : State :=
  if s.err then s else { s with errReg := ⟨op, e.sub, e.code⟩, err := true }

/-- The effect of an error: CONSTRUCTION and FORMAT discard the tree; the others write nothing more (R225). TRUNCATED and DEGENERATE
have set DEC_STATE before they raise. -/
def State.errorEffect (s : State) : ErrorKind → State
  | .construction => s.discardTree
  | .format _ => s.discardTree
  | .truncated => s
  | .degenerate => s
  | .sequence => s
  | .symbolAbsent => s
  | .illegalCmd _ => s

/-- TAKING AN ERROR, the block's counterpart of taking an exception: `raise e` by the command of opcode `op` (R224). It saves no
context and transfers control nowhere (R229). -/
def State.raise (s : State) (op : Byte) (e : ErrorKind) : State := (s.recordError op e).errorEffect e

/-- THE RETURN FROM AN ERROR: ERR, STATUS.ERR and STATUS.OVERRUN cleared, nothing restored (R102, R231). -/
def State.clearError (s : State) : State := { s with errReg := ⟨0#8, 0#8, 0#8⟩, err := false, overrun := false }

/-! ## Reset (R101, R250 to R252) -/

/-- The external reset: every register and field at its reset value, whatever came before (R250). What the outside does next, what it
has read and the draw counter are not the block's. -/
def State.hardwareReset (s : State) : State := { State.reset with inputs := s.inputs, reads := s.reads, draws := s.draws }

/-- The initialisation job: FREQ cleared, INIT_PENDING ← 0, and with it STATUS.BUSY ← 0; OVERRUN is kept (R251). -/
def State.initJob (s : State) : State := { s with freq := [], initPending := false }

/-- SOFT_RESET's state: that of a hardware reset followed by the initialisation job (R101; D40). -/
def State.softReset (s : State) : State := s.hardwareReset.initJob

/-! ## The dispatch of a command (R226, R227) -/

/-- A valid tree: TREE_STATE = BUILT or LOADED (R25, R227). -/
def TreeState.valid : TreeState → Bool
  | .built => true
  | .loaded => true
  | .empty => false
  | .loading => false

/-- allowed(d) (R227). -/
def allowed (i : Instr) (s : State) : Bool :=
  match i with
  | .nop => true
  | .softReset => true
  | .errClear => true
  | .freqClear => true
  | .build => true
  | .loadBegin => true
  | .serialize => s.treeState.valid
  | .decBegin => s.treeState.valid
  | .encode _ => s.ctValid
  | .loadSym => s.treeState = .loading
  | .loadChar _ => s.treeState = .loading
  | .loadRowEnd => s.treeState = .loading
  | .loadEnd => s.treeState = .loading
  | .decBit _ => !decide (s.decState = .idle)
  | .decEnd => !decide (s.decState = .idle)

/-- What a command's rule answers, with the handshake completed after it (R66, R226). -/
def finish : Host.Outcome State Fault Refusal → Host.Outcome State Fault Refusal
  | .next s => .next s.complete
  | .fault r => .fault r
  | .refused r => .refused r

/-- The dispatch of a legal command other than SOFT_RESET and ERR_CLEAR: discarded while STATUS.ERR = 1, SEQUENCE where it is not
allowed, else its rule; then PEND.VALID ← 0 (R226). -/
def runCommand (i : Instr) (body : State → Host.Outcome State Fault Refusal) (s : State) : Host.Outcome State Fault Refusal :=
  if s.err then .next s.complete
  else if allowed i s then finish (body s)
  else .next (s.raise i.opcode .sequence).complete

/-- The dispatch of SOFT_RESET and ERR_CLEAR, which execute even while STATUS.ERR = 1 (R226). -/
def runAlways (body : State → State) (s : State) : Host.Outcome State Fault Refusal := .next (body s).complete

/-- The dispatch of a word that is no command: discarded while STATUS.ERR = 1, else ILLEGAL_CMD (R85, R226). -/
def runIllegal (w : Word) (why : Illegal) (s : State) : Host.Outcome State Fault Refusal :=
  if s.err then .next s.complete else .next (s.raise (wordOp w) (.illegalCmd why)).complete

end Sys2Proof.Machine
end

