-- ==== Sys2Proof/Machine/Builder.lean ====
section
/-! DEFINITION. huffman_tree_builder: BUILD (41_tree_builder.md R120 to R127). -/

namespace Sys2Proof.Machine

/-- An entry (f, seq, idx) of the priority structure Q (R122). -/
structure QEntry where
  f : NodeFreq
  seq : Nat
  idx : NodeIdx
  deriving DecidableEq, Repr

/-- What BUILD works on: the arena, Q, the next insertion serial and the next free index. It is no state (R38, R122). -/
structure Builder where
  nodes : Vector Node 511
  queue : List QEntry
  seq : Nat
  n : Nat
  deriving DecidableEq, Repr

/-- The order of extract_min, TIE_POLICY = STABLE: by frequency, and at equal frequency by insertion serial (R123). -/
def QEntry.before (a b : QEntry) : Bool := decide (a.f < b.f) || (decide (a.f = b.f) && decide (a.seq < b.seq))

/-- The least entry of a nonempty Q: `m` is the least of those already seen. -/
def leastEntry : QEntry → List QEntry → QEntry
  | m, [] => m
  | m, e :: q => leastEntry (if e.before m then e else m) q

/-- extract_min(Q): the least entry, and Q without it; none where Q is empty (R122). -/
def extractMin : List QEntry → Option (QEntry × List QEntry)
  | [] => none
  | e :: q => some (leastEntry e q, (e :: q).erase (leastEntry e q))

/-- Write a node at the next free index and insert it into Q with its frequency (R120). -/
def Builder.push (b : Builder) (node : Node) : Builder :=
  { nodes := b.nodes.set (Fin.ofNat 511 b.n).val node (Fin.ofNat 511 b.n).isLt
    queue := ⟨node.nfreq, b.seq, Fin.ofNat 511 b.n⟩ :: b.queue
    seq := b.seq + 1
    n := b.n + 1 }

/-- The leaf of a symbol (R120, R121). -/
def leafNode (sym : Nat) (f : Word) : Node :=
  { left := none, right := none, sym := some (BitVec.ofNat 8 sym), nfreq := f.zeroExtend 40 }

/-- One turn of the leaf loop: a leaf where FREQ[s] is not 0 (R121). -/
def Builder.leafTurn (freq : Memory) (b : Builder) (sym : Nat) : Builder :=
  if freq.read sym = 0#32 then b else b.push (leafNode sym (freq.read sym))

/-- The leaf loop, symbols 0..255 in ascending order (R121). -/
def Builder.leaves (freq : Memory) (b : Builder) : Builder := (List.range Config.syms).foldl (Builder.leafTurn freq) b

/-- One turn of the merge loop: the two least entries become a new internal node, the first extracted on the left (R124). -/
def Builder.mergeTurn (b : Builder) : Builder :=
  match extractMin b.queue with
  | none => b
  | some (x, q1) =>
    match extractMin q1 with
    | none => b
    | some (y, q2) => { b with queue := q2 }.push { left := some x.idx, right := some y.idx, sym := none, nfreq := x.f + y.f }

/-- The merge loop, while size(Q) > 1; every turn lowers the size by one, so `fuel` turns are enough for a Q of `fuel` + 1 (R124). -/
def Builder.merges : Nat → Builder → Builder
  | 0, b => b
  | fuel + 1, b => if b.queue.length > 1 then Builder.merges fuel b.mergeTurn else b

/-- BUILD's rule: discard_tree, leaves, CONSTRUCTION where there is none, merges, the result (R120, R125, R126). -/
def buildTree (s : State) : State :=
  let b := Builder.leaves s.freq ⟨s.nodes, [], 0, 0⟩
  if b.n = 0 then s.discardTree.raise Instr.build.opcode .construction
  else
    let c := Builder.merges Config.syms b
    { s.discardTree with
      nodes := c.nodes
      root := (c.queue.head?.map QEntry.idx).getD 0
      nodeCount := Fin.ofNat 512 c.n
      leafCount := BitVec.ofNat 9 b.n
      treeState := .built }

/-- BUILD (R120). -/
def execBuild (s : State) : Host.Outcome State Fault Refusal := runCommand .build (fun s => .next (buildTree s)) s

end Sys2Proof.Machine
end

