-- ==== Sys2Proof/Machine/Control.lean ====
section
/-! DEFINITION. The control commands (40_control.md R100 to R103). -/

namespace Sys2Proof.Machine

/-- NOP (R100). -/
def execNop (s : State) : Host.Outcome State Fault Refusal := runCommand .nop .next s

/-- SOFT_RESET (R101). -/
def execSoftReset (s : State) : Host.Outcome State Fault Refusal := runAlways State.softReset s

/-- ERR_CLEAR (R102). -/
def execErrClear (s : State) : Host.Outcome State Fault Refusal := runAlways State.clearError s

/-- FREQ_CLEAR: every FREQ entry ← 0 (R103). -/
def execFreqClear (s : State) : Host.Outcome State Fault Refusal := runCommand .freqClear (fun s => .next { s with freq := [] }) s

end Sys2Proof.Machine
end

