-- ==== Sys2Proof/Machine/Decoder.lean ====
section
/-! DEFINITION. huffman_decoder and tree_traversal_fsm: DEC_BEGIN, DEC_BIT, DEC_END (44_decoder.md R190 to R195). -/

namespace Sys2Proof.Machine

/-- DEC_BEGIN's rule (R191). -/
def decBegin (s : State) : State :=
  { s with decState := .atRoot, cursor := ⟨s.root, 0#8⟩, decCount := 0#32, decOut := ⟨false, 0#8⟩ }

/-- DEC_BEGIN (R191). -/
def execDecBegin (s : State) : Host.Outcome State Fault Refusal := runCommand .decBegin (fun s => .next (decBegin s)) s

/-- DEC_BIT's rule: DEGENERATE where the child is absent, an emission where it is a leaf, else a descent (R192, R194). -/
def decBit (b : Bool) (s : State) : State :=
  match s.nodes[s.cursor.node].child b with
  | none => { s with decState := .idle }.raise (Instr.decBit b).opcode .degenerate
  | some j =>
    match s.nodes[j].sym with
    | some sym =>
      { s with decOut := ⟨true, sym⟩, decCount := s.decCount + 1#32, cursor := ⟨s.root, 0#8⟩, decState := .atRoot }
    | none => { s with decOut := ⟨false, 0#8⟩, cursor := ⟨j, s.cursor.pending + 1#8⟩, decState := .descending }

/-- DEC_BIT b (R192). -/
def execDecBit (b : Bool) (s : State) : Host.Outcome State Fault Refusal :=
  runCommand (.decBit b) (fun s => .next (decBit b s)) s

/-- DEC_END's rule: TRUNCATED where the session ends inside a code word (R195). -/
def decEnd (s : State) : State :=
  if s.decState = .descending then { s with decState := .idle }.raise Instr.decEnd.opcode .truncated
  else { s with decState := .idle }

/-- DEC_END (R195). -/
def execDecEnd (s : State) : Host.Outcome State Fault Refusal := runCommand .decEnd (fun s => .next (decEnd s)) s

end Sys2Proof.Machine
end

