-- ==== Sys2Proof/Machine/Operands.lean ====
section
/-! DEFINITION. The operand forms: DATA as a code point, path characters, packed paths (30_encoding.md R82, 20_memory.md R65). -/

namespace Sys2Proof.Machine

/-- DATA as a symbol: its low byte, or none where DATA > 255 (R82, R162). -/
def State.dataSymbol (s : State) : Option Byte := if s.data.toNat > 255 then none else some (s.data.extractLsb' 0 8)

/-- A path character as a descent: '0' is left (false), '1' is right (true), any other byte none (R10, R163). -/
def charBit (c : Byte) : Option Bool :=
  if c = Config.char0 then some false else if c = Config.char1 then some true else none

/-- The path character of a descent (R10). -/
def bitChar (b : Bool) : Byte := if b then Config.char1 else Config.char0

/-- pack(p): path bit i at bit i, so the first descent is bit 0 (R65). -/
def pack : List Bool → PathBits
  | [] => 0#256
  | b :: p => (pack p <<< 1) ||| (if b then 1#256 else 0#256)

/-- Word j of a packed path: bits 32j+31..32j (R65). -/
def pathWord (p : PathBits) (j : Fin 8) : Word := p.extractLsb' (32 * j.val) 32

/-- The path a row holds, its first LEN bits in order (R44). -/
def Row.bits (r : Row) : List Bool := (List.range r.len.toNat).map r.path.getLsbD

/-- The row of a leaf: its symbol, the length of its path and the path packed (R140). -/
def Row.ofPath (sym : Byte) (p : List Bool) : Row := { sym := sym, len := BitVec.ofNat 8 p.length, path := pack p }

end Sys2Proof.Machine
end

