-- ==== Sys2Proof/Machine/Encoder.lean ====
section
/-! DEFINITION. huffman_encoder: SERIALIZE and ENCODE (42_serializer_encoder.md R140 to R142). -/

namespace Sys2Proof.Machine

/-- visit(i, p): the rows of the leaves below node i, left before right, p being the path from ROOT to i (R140). `room` is how many
more bits a path may grow by, so that LEN holds it; none where a path would grow past it (log 6). -/
def visit (nodes : Vector Node 511) : Nat → NodeIdx → List Bool → Option (List Row)
  | 0, i, p =>
    if nodes[i].left.isNone && nodes[i].right.isNone then some [Row.ofPath (nodes[i].sym.getD 0#8) p] else none
  | room + 1, i, p =>
    if nodes[i].left.isNone && nodes[i].right.isNone then some [Row.ofPath (nodes[i].sym.getD 0#8) p]
    else
      match visit nodes room (nodes[i].left.getD 0) (p ++ [false]), visit nodes room (nodes[i].right.getD 0) (p ++ [true]) with
      | some l, some r => some (l ++ r)
      | _, _ => none

/-- CT[0..r-1] ← the rows; the other rows are left as they are (R140). -/
def writeRows (rows : List Row) (ct : Vector Row 256) : Vector Row 256 := Vector.ofFn fun i => (rows[i.val]?).getD ct[i]

/-- SERIALIZE's rule: the walk from ROOT, then ROW_COUNT and CT_VALID (R140). A walk that leaves LEN or CT is a fault (log 6). -/
def serializeTree (s : State) : Host.Outcome State Fault Refusal :=
  match visit s.nodes Config.maxPath s.root [] with
  | none => .fault .walkOutOfBounds
  | some rows =>
    if rows.length ≤ 256 then
      .next { s with ct := writeRows rows s.ct, rowCount := BitVec.ofNat 9 rows.length, ctValid := true }
    else .fault .walkOutOfBounds

/-- SERIALIZE (R140). -/
def execSerialize (s : State) : Host.Outcome State Fault Refusal := runCommand .serialize serializeTree s

/-- CT[r] for r < ROW_COUNT, in row order. -/
def State.liveRows (s : State) : List Row := s.ct.toList.take s.rowCount.toNat

/-- ENCODE's rule: the row of the symbol into RES_LEN and RES_PATH, or SYMBOL_ABSENT (R142). -/
def encodeSymbol (sym : Byte) (s : State) : State :=
  match s.liveRows.find? (fun r => r.sym == sym) with
  | some r => { s with resLen := r.len, resPath := r.path }
  | none => s.raise (Instr.encode sym).opcode .symbolAbsent

/-- ENCODE s (R142). -/
def execEncode (sym : Byte) (s : State) : Host.Outcome State Fault Refusal :=
  runCommand (.encode sym) (fun s => .next (encodeSymbol sym s)) s

end Sys2Proof.Machine
end

