-- ==== Sys2Proof/Machine/Loader.lean ====
section
/-! DEFINITION. CodeTableDeserializer: LOAD_BEGIN, LOAD_SYM, LOAD_CHAR, LOAD_ROW_END, LOAD_END (43_deserializer.md R161 to R168). -/

namespace Sys2Proof.Machine

/-- LOAD_BEGIN's rule: discard_tree, a placeholder root at index 0, TREE_STATE = LOADING (R161). -/
def loadBegin (s : State) : State :=
  { s.discardTree.setNode 0 Node.empty with nodeCount := 1, root := 0, leafCount := 0#9, treeState := .loading }

/-- LOAD_BEGIN (R161). -/
def execLoadBegin (s : State) : Host.Outcome State Fault Refusal := runCommand .loadBegin (fun s => .next (loadBegin s)) s

/-- LOAD_SYM's rule, its checks in the written order (R162). -/
def loadSym (s : State) : State :=
  if s.rowOpen then s.raise Instr.loadSym.opcode (.format .incompleteRow)
  else
    match s.dataSymbol with
    | none => s.raise Instr.loadSym.opcode (.format .codepointRange)
    | some sym =>
      if s.liveNodes.any (fun n => n.sym == some sym) then s.raise Instr.loadSym.opcode (.format .duplicateSymbol)
      else { s with rowOpen := true, loadCur := ⟨sym, 0#8, s.root⟩ }

/-- LOAD_SYM (R162). -/
def execLoadSym (s : State) : Host.Outcome State Fault Refusal := runCommand .loadSym (fun s => .next (loadSym s)) s

/-- Descend from node i to its child on the side of the path character, making it where it is absent; none where the arena is full
(R163). -/
def State.descendOrMake (s : State) (i : NodeIdx) (b : Bool) : Option (NodeIdx × State) :=
  match s.nodes[i].child b with
  | some j => some (j, s)
  | none =>
    match s.alloc with
    | none => none
    | some (j, s') => some (j, s'.setChild i b j)

/-- LOAD_CHAR's rule, its checks in the written order (R163, R164, R165). -/
def loadChar (c : Byte) (s : State) : State :=
  if !s.rowOpen then s.raise (Instr.loadChar c).opcode (.format .incompleteRow)
  else
    match charBit c with
    | none => s.raise (Instr.loadChar c).opcode (.format .badChar)
    | some b =>
      if s.loadCur.len = 255#8 then s.raise (Instr.loadChar c).opcode (.format .pathTooLong)
      else if s.nodes[s.loadCur.node].sym.isSome then s.raise (Instr.loadChar c).opcode (.format .pathThroughLeaf)
      else
        match s.descendOrMake s.loadCur.node b with
        | none => s.raise (Instr.loadChar c).opcode (.format .capacity)
        | some (j, s') => { s' with loadCur := { s.loadCur with node := j, len := s.loadCur.len + 1#8 } }

/-- LOAD_CHAR c (R163). -/
def execLoadChar (c : Byte) (s : State) : Host.Outcome State Fault Refusal :=
  runCommand (.loadChar c) (fun s => .next (loadChar c s)) s

/-- LOAD_ROW_END's rule, its checks in the written order (R166, R167). -/
def loadRowEnd (s : State) : State :=
  if !s.rowOpen then s.raise Instr.loadRowEnd.opcode (.format .incompleteRow)
  else if s.nodes[s.loadCur.node].sym.isSome then s.raise Instr.loadRowEnd.opcode (.format .duplicatePath)
  else if s.nodes[s.loadCur.node].left.isSome || s.nodes[s.loadCur.node].right.isSome then
    s.raise Instr.loadRowEnd.opcode (.format .assignToInternal)
  else
    { s.setNode s.loadCur.node { s.nodes[s.loadCur.node] with sym := some s.loadCur.sym } with
      leafCount := s.leafCount + 1#9, rowOpen := false, loadCur := ⟨0#8, 0#8, 0⟩ }

/-- LOAD_ROW_END (R166). -/
def execLoadRowEnd (s : State) : Host.Outcome State Fault Refusal := runCommand .loadRowEnd (fun s => .next (loadRowEnd s)) s

/-- A placeholder remains at the end of the table: no symbol and fewer than two children (R168). -/
def Node.incomplete (n : Node) : Bool := n.sym.isNone && (n.left.isNone || n.right.isNone)

/-- LOAD_END's rule, its checks in the written order (R168). -/
def loadEnd (s : State) : State :=
  if s.rowOpen then s.raise Instr.loadEnd.opcode (.format .incompleteRow)
  else if s.leafCount = 0#9 then s.raise Instr.loadEnd.opcode (.format .emptyTable)
  else if s.liveNodes.any Node.incomplete then s.raise Instr.loadEnd.opcode (.format .incompleteTree)
  else { s with treeState := .loaded, loadCur := ⟨0#8, 0#8, 0⟩ }

/-- LOAD_END (R168). -/
def execLoadEnd (s : State) : Host.Outcome State Fault Refusal := runCommand .loadEnd (fun s => .next (loadEnd s)) s

end Sys2Proof.Machine
end

