-- ==== Sys2Proof/Machine/Dispatch.lean ====
section
/-! DEFINITION. One arm per command. -/

namespace Sys2Proof.Machine

def exec (i : Instr) (s : State) : Host.Outcome State Fault Refusal :=
  match i with
  | .nop => Sys2Proof.Machine.execNop s
  | .softReset => Sys2Proof.Machine.execSoftReset s
  | .errClear => Sys2Proof.Machine.execErrClear s
  | .freqClear => Sys2Proof.Machine.execFreqClear s
  | .build => Sys2Proof.Machine.execBuild s
  | .serialize => Sys2Proof.Machine.execSerialize s
  | .loadBegin => Sys2Proof.Machine.execLoadBegin s
  | .loadSym => Sys2Proof.Machine.execLoadSym s
  | .loadChar c => Sys2Proof.Machine.execLoadChar c s
  | .loadRowEnd => Sys2Proof.Machine.execLoadRowEnd s
  | .loadEnd => Sys2Proof.Machine.execLoadEnd s
  | .encode sym => Sys2Proof.Machine.execEncode sym s
  | .decBegin => Sys2Proof.Machine.execDecBegin s
  | .decBit b => Sys2Proof.Machine.execDecBit b s
  | .decEnd => Sys2Proof.Machine.execDecEnd s

end Sys2Proof.Machine
end

