-- ==== Sys2Proof/Machine/Flags.lean ====
section
/-! DEFINITION. The register views: every field of STATUS and of the other registers at its bit position (10_state.md R25 to R36,
20_memory.md R63). A reserved bit reads 0. -/

namespace Sys2Proof.Machine

/-- One bit. -/
def bit (b : Bool) : BitVec 1 := BitVec.ofBool b

/-- TREE_STATE as two bits (R25). -/
def TreeState.bits : TreeState → BitVec 2
  | .empty => 0#2
  | .built => 1#2
  | .loading => 2#2
  | .loaded => 3#2

/-- DEC_STATE as two bits (R25, R190). -/
def DecState.bits : DecState → BitVec 2
  | .idle => 0#2
  | .atRoot => 1#2
  | .descending => 2#2

/-- A node index as nine bits (R27, R35, R36, R41). -/
def idxBits (i : NodeIdx) : BitVec 9 := BitVec.ofNat 9 i.val

/-- STATUS (R25). -/
def State.statusWord (s : State) : Word :=
  0#22 ++ s.decState.bits ++ 0#1 ++ bit s.rowOpen ++ s.treeState.bits ++ bit s.ctValid ++ bit s.overrun ++ bit s.err ++ bit s.busy

/-- ERR (R26). -/
def State.errWord (s : State) : Word := 0#8 ++ s.errReg.op ++ s.errReg.sub ++ s.errReg.code

/-- ROOT (R27). -/
def State.rootWord (s : State) : Word := 0#23 ++ idxBits s.root

/-- LEAF_COUNT (R28). -/
def State.leafCountWord (s : State) : Word := 0#23 ++ s.leafCount

/-- NODE_COUNT (R29). -/
def State.nodeCountWord (s : State) : Word := 0#22 ++ BitVec.ofNat 10 s.nodeCount.val

/-- ROW_COUNT (R30). -/
def State.rowCountWord (s : State) : Word := 0#23 ++ s.rowCount

/-- RES_LEN (R31). -/
def State.resLenWord (s : State) : Word := 0#24 ++ s.resLen

/-- DEC_OUT (R33). -/
def State.decOutWord (s : State) : Word := 0#23 ++ bit s.decOut.valid ++ s.decOut.sym

/-- CURSOR (R35). -/
def State.cursorWord (s : State) : Word := 0#8 ++ s.cursor.pending ++ 0#7 ++ idxBits s.cursor.node

/-- LOAD_CUR (R36). -/
def State.loadCurWord (s : State) : Word := s.loadCur.sym ++ s.loadCur.len ++ 0#7 ++ idxBits s.loadCur.node

/-- A link as nine bits, 0 where it is absent (R41). -/
def linkBits : Option NodeIdx → BitVec 9
  | none => 0#9
  | some i => idxBits i

/-- NODE_LINK: {HAS_SYM, HAS_RIGHT, HAS_LEFT, SYM, RIGHT, LEFT} (R63). -/
def Node.linkWord (n : Node) : Word :=
  0#3 ++ bit n.sym.isSome ++ bit n.right.isSome ++ bit n.left.isSome ++ n.sym.getD 0#8 ++ linkBits n.right ++ linkBits n.left

/-- NODE_FREQ_LO: NFREQ[31:0] (R63). -/
def Node.freqLoWord (n : Node) : Word := n.nfreq.extractLsb' 0 32

/-- NODE_FREQ_HI: NFREQ[39:32] (R63). -/
def Node.freqHiWord (n : Node) : Word := 0#24 ++ n.nfreq.extractLsb' 32 8

end Sys2Proof.Machine
end

