-- ==== Sys2Proof/Machine/Port.lean ====
section
/-! DEFINITION. The register port: the map, host reads and host writes (20_memory.md R60 to R67, 70_reset_and_hazards.md R262). -/

namespace Sys2Proof.Machine

/-- What stands at a word of the register map (R63, R89). -/
inductive Target where
  | id
  | cmd
  | data
  | status
  | err
  | root
  | leafCount
  | nodeCount
  | rowCount
  | resLen
  | resPath (j : Fin 8)
  | decOut
  | decCount
  | cursor
  | loadCur
  | freq (sym : Byte)
  | ctSym (r : Fin 256)
  | ctLen (r : Fin 256)
  | ctPath (r : Fin 256) (j : Fin 8)
  | nodeLink (i : NodeIdx)
  | nodeFreqLo (i : NodeIdx)
  | nodeFreqHi (i : NodeIdx)
  | reserved
  deriving DecidableEq, Repr

/-- The byte offset of each name (R63, R89). A reserved word has no name; 0x0058 stands for one. -/
def Target.offset : Target → Nat
  | .id => 0x0000
  | .cmd => 0x0004
  | .data => 0x0008
  | .status => 0x000C
  | .err => 0x0010
  | .root => 0x0014
  | .leafCount => 0x0018
  | .nodeCount => 0x001C
  | .rowCount => 0x0020
  | .resLen => 0x0024
  | .resPath j => 0x0028 + 4 * j.val
  | .decOut => 0x0048
  | .decCount => 0x004C
  | .cursor => 0x0050
  | .loadCur => 0x0054
  | .freq sym => 0x0400 + 4 * sym.toNat
  | .ctSym r => 0x4000 + 0x40 * r.val
  | .ctLen r => 0x4000 + 0x40 * r.val + 0x04
  | .ctPath r j => 0x4000 + 0x40 * r.val + 0x08 + 4 * j.val
  | .nodeLink i => 0x8000 + 0x10 * i.val
  | .nodeFreqLo i => 0x8000 + 0x10 * i.val + 0x4
  | .nodeFreqHi i => 0x8000 + 0x10 * i.val + 0x8
  | .reserved => 0x0058

/-- The word index of each name, a[15:2] of its offset (R69). -/
def Target.addr (t : Target) : WordAddr := BitVec.ofNat 14 (t.offset / 4)

/-- The registers, offsets 0x0000 to 0x0054 (R63). -/
def regTarget (off : Nat) : Target :=
  if off = 0x0000 then .id
  else if off = 0x0004 then .cmd
  else if off = 0x0008 then .data
  else if off = 0x000C then .status
  else if off = 0x0010 then .err
  else if off = 0x0014 then .root
  else if off = 0x0018 then .leafCount
  else if off = 0x001C then .nodeCount
  else if off = 0x0020 then .rowCount
  else if off = 0x0024 then .resLen
  else if off < 0x0048 then .resPath (Fin.ofNat 8 ((off - 0x0028) / 4))
  else if off = 0x0048 then .decOut
  else if off = 0x004C then .decCount
  else if off = 0x0050 then .cursor
  else if off = 0x0054 then .loadCur
  else .reserved

/-- A word of the CT window: row r, byte `k` of its 0x40 (R63). -/
def ctTarget (r : Fin 256) (k : Nat) : Target :=
  if k = 0x00 then .ctSym r
  else if k = 0x04 then .ctLen r
  else if k < 0x28 then .ctPath r (Fin.ofNat 8 ((k - 0x08) / 4))
  else .reserved

/-- A word of the NODE window: entry i, byte `k` of its 0x10 (R63). -/
def nodeTarget (i : NodeIdx) (k : Nat) : Target :=
  if k = 0x0 then .nodeLink i
  else if k = 0x4 then .nodeFreqLo i
  else if k = 0x8 then .nodeFreqHi i
  else .reserved

/-- What stands at byte offset `off`, a multiple of 4 (R63). -/
def offsetTarget (off : Nat) : Target :=
  if off < 0x0400 then regTarget off
  else if off < 0x0800 then .freq (BitVec.ofNat 8 ((off - 0x0400) / 4))
  else if off < 0x4000 then .reserved
  else if off < 0x8000 then ctTarget (Fin.ofNat 256 ((off - 0x4000) / 0x40)) ((off - 0x4000) % 0x40)
  else if off < 0x9FF0 then nodeTarget (Fin.ofNat 511 ((off - 0x8000) / 0x10)) ((off - 0x8000) % 0x10)
  else .reserved

/-- What stands at a word index (R63, R69). -/
def target (a : WordAddr) : Target := offsetTarget (4 * a.toNat)

/-- A CT window word: 0 for a row at ROW_COUNT or beyond (R64). -/
def State.ctView (s : State) (r : Fin 256) (view : Row → Word) : Word := if r.val < s.rowCount.toNat then view s.ct[r] else 0#32

/-- A NODE window word: 0 for a node at NODE_COUNT or beyond (R64). -/
def State.nodeView (s : State) (i : NodeIdx) (view : Node → Word) : Word :=
  if i.val < s.nodeCount.val then view s.nodes[i] else 0#32

/-- The word a read returns while BUSY = 0 (R61, R63, R64). A WO register and a reserved word read 0. -/
def State.idleRead (s : State) : Target → Word
  | .id => Config.idValue
  | .cmd => 0#32
  | .data => s.data
  | .status => s.statusWord
  | .err => s.errWord
  | .root => s.rootWord
  | .leafCount => s.leafCountWord
  | .nodeCount => s.nodeCountWord
  | .rowCount => s.rowCountWord
  | .resLen => s.resLenWord
  | .resPath j => pathWord s.resPath j
  | .decOut => s.decOutWord
  | .decCount => s.decCount
  | .cursor => s.cursorWord
  | .loadCur => s.loadCurWord
  | .freq sym => s.freqAt sym
  | .ctSym r => s.ctView r fun row => 0#24 ++ row.sym
  | .ctLen r => s.ctView r fun row => 0#24 ++ row.len
  | .ctPath r j => s.ctView r fun row => pathWord row.path j
  | .nodeLink i => s.nodeView i Node.linkWord
  | .nodeFreqLo i => s.nodeView i Node.freqLoWord
  | .nodeFreqHi i => s.nodeView i Node.freqHiWord
  | .reserved => 0#32

/-- The word a read returns while BUSY = 1: ID is current, STATUS has its BUSY bit and nothing else current, and every other word is a
free draw (R61, R262, log 2, log 8). -/
def State.busyRead (s : State) : Target → Word
  | .id => Config.idValue
  | .status => (Config.busyRead s.draws).extractLsb' 1 31 ++ 1#1
  | _ => Config.busyRead s.draws

/-- MemRead: the value a host read returns (R61). -/
def State.readWord (s : State) (a : WordAddr) : Word := if s.busy then s.busyRead (target a) else s.idleRead (target a)

/-- A host read: the value is the host's, and no state of the block changes (R61, R72). A read while BUSY = 1 takes a draw (log 2). -/
def State.hostRead (s : State) (a : WordAddr) : State :=
  { s with reads := s.readWord a :: s.reads, draws := if s.busy then s.draws + 1 else s.draws }

/-- MemWrite, a host write (R62): to CMD, DATA or a FREQ word it is dropped with OVERRUN while BUSY = 1 (R67); else CMD latches the
command (R66), DATA and FREQ store; any other word ignores it. -/
def State.hostWrite (s : State) (a : WordAddr) (v : Word) : State :=
  match target a with
  | .cmd => if s.busy then { s with overrun := true } else { s with pend := ⟨true, v⟩ }
  | .data => if s.busy then { s with overrun := true } else { s with data := v }
  | .freq sym => if s.busy then { s with overrun := true } else s.setFreq sym v
  | _ => s

end Sys2Proof.Machine
end

