-- ==== Sys2Proof/Machine/Turn.lean ====
section
/-! DEFINITION. One turn of the system: the core's step (60_exceptions.md R226, 20_memory.md R66), or what the outside does next. -/

namespace Sys2Proof.Machine

/-- The pending word executed: its command, or ILLEGAL_CMD (R226). -/
def runWord (w : Word) (s : State) : Host.Outcome State Fault Refusal :=
  match decode w with
  | .command i => exec i s
  | .illegal why => runIllegal w why s

/-- core_step(): the initialisation job first, else the pending command; where neither is there the step is not enabled and the block
idles (R66, R226, R244, R251). -/
def coreStep (s : State) : Host.Outcome State Fault Refusal :=
  if s.initPending then .next s.initJob
  else if s.pend.valid then runWord s.pend.word s
  else .next s

/-- One read of STATUS by a WAIT, `rest` being what the outside does after it (R92). -/
def State.poll (s : State) (rest : List Input) : State := { s with inputs := rest }.hostRead Target.status.addr

/-- One turn of a WAIT: a read of STATUS, which ends the loop if it shows BUSY = 0 and repeats it if it shows BUSY = 1 (R92), until the
core has its turn while the loop goes on (R265, log 1). -/
def waitTurn (polls : Nat) (rest : List Input) (s : State) : Host.Outcome State Fault Refusal :=
  if s.busy then
    match polls with
    | 0 => coreStep s
    | k + 1 => .next (s.poll (.wait k :: rest))
  else .next (s.poll rest)

/-- The agent whose turn it is moves: the oldest input, or the core where there is none (R5, R70, log 1). -/
def takeTurn (s : State) : Host.Outcome State Fault Refusal :=
  match s.inputs with
  | [] => coreStep s
  | .read a :: rest => .next ({ s with inputs := rest }.hostRead a)
  | .write a v :: rest => .next ({ s with inputs := rest }.hostWrite a v)
  | .coreTurn :: rest => coreStep { s with inputs := rest }
  | .wait polls :: rest => waitTurn polls rest s
  | .reset :: rest => .next { s with inputs := rest }.hardwareReset

end Sys2Proof.Machine
end

