-- ==== Sys2Proof/Machine/Step.lean ====
section
/-! DEFINITION. The step, and how a command word is put where the next step takes it from. -/

namespace Sys2Proof.Machine

/-- One step of the system (R5, R66). -/
def step (s : State) : Host.Outcome State Fault Refusal := takeTurn s

/-- The command word latched in PEND, as a host write to CMD leaves it, with the initialisation job done and no host access before the
core's turn: the very next step executes it (R66, R251, log 9). -/
def State.withFetchWord (s : State) (nbits w : Nat) : State :=
  { s with inputs := [], initPending := false, pend := ⟨true, tableWord nbits w⟩ }

end Sys2Proof.Machine
end

