-- ==== Sys2Proof/Machine/Script.lean ====
section
/-! DEFINITION. The notation for host programs (30_encoding.md R88 to R95): each form as the inputs it stands for. -/

namespace Sys2Proof.Machine

/-- The command of a well-formed source line (R88). -/
def assembleLine (l : SourceLine) : Option Instr :=
  if l.wf then
    let v := l.operand.getD 0
    [Instr.nop, .softReset, .errClear, .freqClear, .build, .serialize, .loadBegin, .loadSym, .loadChar (BitVec.ofNat 8 v), .loadRowEnd,
      .loadEnd, .encode (BitVec.ofNat 8 v), .decBegin, .decBit (decide (v = 1)), .decEnd].find? (fun i => i.mnemonic == l.mnemonic)
  else none

/-- `WR <reg>, <value>` (R89). -/
def Script.wr (t : Target) (v : Word) : List Input := [.write t.addr v]

/-- `RD <reg>` (R89). -/
def Script.rd (t : Target) : List Input := [.read t.addr]

/-- `ISSUE <command>`: a write of its word to CMD, without waiting (R89). -/
def Script.issue (i : Instr) : List Input := Script.wr .cmd (encode i)

/-- `WAIT`: the loop of STATUS reads, `polls` of which show BUSY = 1 before the core's step (R92). -/
def Script.wait (polls : Nat) : List Input := [.wait polls]

/-- A command alone on a line, the synchronous form (R93). The notation gives its WAIT no count; `Script.Performs` lets it be any. -/
def Script.sync (i : Instr) : List Input := Script.issue i ++ Script.wait 0

/-- `FREQ <s>, <n>` (R90). -/
def Script.freq (sym : Byte) (n : Word) : List Input := Script.wr (.freq sym) n

/-- `LOAD_ROW <s>, "<p>"`, p over any characters (R91). -/
def Script.loadRow (sym : Word) (p : List Byte) : List Input :=
  Script.wr .data sym ++ Script.sync .loadSym ++ (p.map fun c => Script.sync (.loadChar c)).flatten ++ Script.sync .loadRowEnd

/-- `DEC_BITS "<bits>"` (R94). -/
def Script.decBits (bits : List Bool) : List Input := (bits.map fun b => Script.sync (.decBit b) ++ Script.rd .decOut).flatten

/-- `LOAD_TABLE { <s0>, "<p0>"; ... }` (R95). -/
def Script.loadTable (rows : List (Word × List Byte)) : List Input :=
  Script.sync .loadBegin ++ (rows.map fun r => Script.loadRow r.1 r.2).flatten ++ Script.sync .loadEnd

/-- An input with the count of a WAIT, which no program writes down, put to 0. -/
def Input.untimed : Input → Input
  | .read a => .read a
  | .write a v => .write a v
  | .coreTurn => .coreTurn
  | .wait _ => .wait 0
  | .reset => .reset

/-- The inputs are the program's, each WAIT with any number of reads before the core's step (R92, R265, log 1). -/
def Script.Performs (inputs program : List Input) : Prop := inputs.map Input.untimed = program

end Sys2Proof.Machine
end

