-- ==== Sys2Proof/Safety.lean ====
section
/-! DEFINITION. What a sound state is: the trees the arena may hold, the invariant that every step keeps, and the invariants of
10_state.md R45 as the spec words them. -/

namespace Sys2Proof.Safety

open Sys2Proof.Machine

/-- A binary tree of arena nodes: the shape the arena holds below a link. `absent` is a missing child. -/
inductive Tree where
  | absent
  | node (idx : NodeIdx) (sym : Option Byte) (left right : Tree)
  deriving DecidableEq, Repr

namespace Tree

/-- The link that leads to the tree. -/
def link : Tree → Option NodeIdx
  | .absent => none
  | .node i _ _ _ => some i

/-- The arena indices of the tree's nodes, in pre-order. -/
def indices : Tree → List NodeIdx
  | .absent => []
  | .node i _ l r => i :: (l.indices ++ r.indices)

/-- The symbols of the tree's nodes, in pre-order. -/
def syms : Tree → List Byte
  | .absent => []
  | .node _ sym l r => sym.toList ++ (l.syms ++ r.syms)

/-- The number of nodes on the longest path. A leaf at depth d makes it at least d + 1. -/
def height : Tree → Nat
  | .absent => 0
  | .node _ _ l r => 1 + max l.height r.height

/-- The subtree a path leads to: false descends left, true right (R10). -/
def sub : Tree → List Bool → Tree
  | t, [] => t
  | .absent, _ :: _ => .absent
  | .node _ _ l r, b :: p => if b then r.sub p else l.sub p

/-- Every node is a leaf or internal (R42). -/
def full : Tree → Bool
  | .absent => false
  | .node _ (some _) l r => l.link.isNone && r.link.isNone
  | .node _ none l r => l.full && r.full

/-- No node has both a symbol and a child (R42, R164). -/
def labelled : Tree → Bool
  | .absent => true
  | .node _ (some _) l r => l.link.isNone && r.link.isNone
  | .node _ none l r => l.labelled && r.labelled

/-- The rows of the tree's leaves in pre-order, p being the path that leads to the tree (R140). -/
def rows : Tree → List Bool → List Row
  | .absent, _ => []
  | .node _ (some sym) _ _, p => [Row.ofPath sym p]
  | .node _ none l r, p => l.rows (p ++ [false]) ++ r.rows (p ++ [true])

/-- The arena's entries are those of the tree. -/
def inArena (nodes : Vector Node 511) : Tree → Prop
  | .absent => True
  | .node i sym l r =>
    nodes[i].sym = sym ∧ nodes[i].left = l.link ∧ nodes[i].right = r.link ∧ l.inArena nodes ∧ r.inArena nodes

end Tree

/-- The live entries of the arena are exactly the nodes of the tree t, whose root is ROOT. -/
structure ArenaHolds (s : State) (t : Tree) : Prop where
  root : t.link = some s.root
  entries : t.inArena s.nodes
  once : t.indices.Nodup
  live : ∀ i : NodeIdx, i ∈ t.indices ↔ i.val < s.nodeCount.val
  depth : t.height ≤ Config.maxPath + 1
  symbols : t.syms.Nodup
  leaves : s.leafCount.toNat = t.syms.length

/-- What holds while a table is being loaded (43_deserializer.md): the open row's position is its path's, and its symbol is new. -/
def LoadingInv (s : State) : Prop :=
  s.root = 0 ∧ s.ctValid = false ∧ s.decState = .idle ∧
    ∃ t, ArenaHolds s t ∧ t.labelled = true ∧
      (s.rowOpen = true →
        ∃ p, (t.sub p).link = some s.loadCur.node ∧ p.length = s.loadCur.len.toNat ∧ s.loadCur.sym ∉ t.syms)

/-- Where the decoder's cursor may be in the tree t (R45 items 7 and 8). -/
def CursorInv (s : State) (t : Tree) : Prop :=
  match s.decState with
  | .idle => True
  | .atRoot => s.cursor = ⟨s.root, 0#8⟩
  | .descending =>
    ∃ p, p ≠ [] ∧ (t.sub p).link = some s.cursor.node ∧ p.length = s.cursor.pending.toNat ∧ s.nodes[s.cursor.node].isInternal = true

/-- What holds of a valid tree: the arena holds a full tree, CT holds its rows where CT_VALID = 1, and the cursor is in it. -/
def ValidInv (s : State) : Prop :=
  s.rowOpen = false ∧
    ∃ t, ArenaHolds s t ∧ t.full = true ∧
      (s.ctValid = true → s.rowCount.toNat = (t.rows []).length ∧ s.liveRows = t.rows []) ∧ CursorInv s t

/-- What holds where there is no tree (R45 item 1). -/
def EmptyInv (s : State) : Prop :=
  s.nodeCount = 0 ∧ s.leafCount = 0#9 ∧ s.root = 0 ∧ s.ctValid = false ∧ s.rowOpen = false ∧ s.decState = .idle

/-- What holds of the arena, by TREE_STATE. -/
def TreeInv (s : State) : Prop :=
  match s.treeState with
  | .empty => EmptyInv s
  | .built => ValidInv s
  | .loading => LoadingInv s
  | .loaded => ValidInv s

/-- The invariant of the model: it rules out the states that no sequence of host accesses reaches. -/
structure Inv (s : State) : Prop where
  /-- FREQ is in canonical form (log 3). -/
  freq : s.freq.wf = true
  /-- The arena, the code table, the loader and the decoder (R45). -/
  tree : TreeInv s
  /-- CT_VALID = 0 leaves no row (R45 item 4). -/
  noRows : s.ctValid = false → s.rowCount = 0#9
  /-- LOAD_CUR reads 0 where no row is open (R36). -/
  noRow : s.rowOpen = false → s.loadCur = ⟨0#8, 0#8, 0⟩
  /-- ERR is 0 where STATUS.ERR = 0 (R26). -/
  noError : s.err = false → s.errReg = ⟨0#8, 0#8, 0#8⟩
  /-- ERR is the record of one error where STATUS.ERR = 1 (R26, R220 to R222). -/
  error : s.err = true → ∃ op e, s.errReg = ⟨op, ErrorKind.sub e, ErrorKind.code e⟩
  /-- The bits of RES_PATH at RES_LEN and above are 0 (R32). -/
  result : ∀ i, s.resLen.toNat ≤ i → s.resPath.getLsbD i = false
  /-- No command is pending before the initialisation job has run (R250, R251). -/
  init : s.initPending = true → s.pend.valid = false

/-- Node j is the left or the right child of node i. -/
def IsChild (s : State) (i j : NodeIdx) : Prop := s.nodes[i].left = some j ∨ s.nodes[i].right = some j

/-- The node a path leads to from node i. -/
def descend (nodes : Vector Node 511) : NodeIdx → List Bool → Option NodeIdx
  | i, [] => some i
  | i, b :: p =>
    match nodes[i].child b with
    | none => none
    | some j => descend nodes j p

/-- R45 item 6, clause by clause. -/
structure ValidTreeR45 (s : State) : Prop where
  classes : ∀ i : NodeIdx, i.val < s.nodeCount.val → s.nodes[i].isLeaf = true ∨ s.nodes[i].isInternal = true
  parents : ∀ j : NodeIdx, j.val < s.nodeCount.val → j ≠ s.root → ∃! i : NodeIdx, i.val < s.nodeCount.val ∧ IsChild s i j
  count : s.nodeCount.val + 1 = 2 * s.leafCount.toNat
  distinct : ∀ (i j : NodeIdx) (sym : Byte), i.val < s.nodeCount.val → j.val < s.nodeCount.val →
    s.nodes[i].sym = some sym → s.nodes[j].sym = some sym → i = j
  depth : ∀ (p : List Bool) (i : NodeIdx), descend s.nodes s.root p = some i → s.nodes[i].isLeaf = true → p.length ≤ 255

/-- R45, item by item. -/
structure SpecR45 (s : State) : Prop where
  item1 : s.treeState = .empty → EmptyInv s
  item2 : s.treeState = .loading → 1 ≤ s.nodeCount.val ∧ s.root = 0 ∧ s.ctValid = false ∧ s.decState = .idle
  item3 : s.rowOpen = true → s.treeState = .loading
  item4 : (s.ctValid = false → s.rowCount = 0#9) ∧
    (s.ctValid = true → (s.treeState = .built ∨ s.treeState = .loaded) ∧ s.rowCount = s.leafCount)
  item5 : s.decState ≠ .idle → s.treeState = .built ∨ s.treeState = .loaded
  item6 : s.treeState = .built ∨ s.treeState = .loaded → ValidTreeR45 s
  item7 : s.decState = .atRoot → s.cursor.node = s.root ∧ s.cursor.pending = 0#8
  item8 : s.decState = .descending →
    s.nodes[s.cursor.node].isInternal = true ∧ s.cursor.node ≠ s.root ∧ 1 ≤ s.cursor.pending.toNat ∧
      ∃ p, descend s.nodes s.root p = some s.cursor.node ∧ p.length = s.cursor.pending.toNat

/-- Every node the loader made carries the sentinel frequency (R43). -/
def LoadedSentinel (s : State) : Prop :=
  s.treeState = .loading ∨ s.treeState = .loaded → ∀ i : NodeIdx, i.val < s.nodeCount.val → s.nodes[i].nfreq = Config.noFreq

/-- Every internal node of a built tree carries the 40-bit sum of its children's frequencies (R43, R124). -/
def BuiltSums (s : State) : Prop :=
  s.treeState = .built → ∀ i a b : NodeIdx, i.val < s.nodeCount.val → s.nodes[i].left = some a → s.nodes[i].right = some b →
    s.nodes[i].nfreq = s.nodes[a].nfreq + s.nodes[b].nfreq

/-! ## Words for statements about one command -/

/-- It is the core's turn in s, and u is s with that turn taken from the inputs: none is left, or the next is the core's turn, or the
host is in a WAIT whose reads before the core's step are done (R5, R70, R92, log 1). -/
def CoreMoves (s u : State) : Prop :=
  (s.inputs = [] ∧ u = s) ∨ (∃ rest, s.inputs = .coreTurn :: rest ∧ u = { s with inputs := rest }) ∨
    ∃ rest, s.inputs = .wait 0 :: rest ∧ s.busy = true ∧ u = s

/-- PEND at the end of a core step (R66). -/
def donePend (s : State) : Pend := ⟨false, s.pend.word⟩

/-- The state with an error recorded, the step complete, and nothing else moved (R224). -/
def recorded (s : State) (op sub code : Byte) : State :=
  { s with err := true, errReg := ⟨op, sub, code⟩, pend := donePend s }

/-- The table of R227, row by row: when a command is allowed. -/
def SpecAllowed (i : Instr) (s : State) : Prop :=
  match i with
  | .nop => True
  | .softReset => True
  | .errClear => True
  | .freqClear => True
  | .build => True
  | .loadBegin => True
  | .serialize => s.treeState = .built ∨ s.treeState = .loaded
  | .decBegin => s.treeState = .built ∨ s.treeState = .loaded
  | .encode _ => s.ctValid = true
  | .loadSym => s.treeState = .loading
  | .loadChar _ => s.treeState = .loading
  | .loadRowEnd => s.treeState = .loading
  | .loadEnd => s.treeState = .loading
  | .decBit _ => s.decState ≠ .idle
  | .decEnd => s.decState ≠ .idle

/-- The table of R223, row by row: the (CODE, SUB) pairs each command can raise. -/
def listedErrors : Instr → List (Byte × Byte)
  | .nop => []
  | .softReset => []
  | .errClear => []
  | .freqClear => []
  | .build => [(1#8, 0#8)]
  | .serialize => [(5#8, 0#8)]
  | .encode _ => [(5#8, 0#8), (6#8, 0#8)]
  | .loadBegin => []
  | .loadSym => [(5#8, 0#8), (2#8, 5#8), (2#8, 6#8), (2#8, 9#8)]
  | .loadChar _ => [(5#8, 0#8), (2#8, 5#8), (2#8, 1#8), (2#8, 7#8), (2#8, 2#8), (2#8, 8#8)]
  | .loadRowEnd => [(5#8, 0#8), (2#8, 5#8), (2#8, 4#8), (2#8, 3#8)]
  | .loadEnd => [(5#8, 0#8), (2#8, 5#8), (2#8, 11#8), (2#8, 10#8)]
  | .decBegin => [(5#8, 0#8)]
  | .decBit _ => [(5#8, 0#8), (4#8, 0#8)]
  | .decEnd => [(5#8, 0#8), (3#8, 0#8)]

/-- The table of R46, row by row: t differs from s in the listed state alone, beside PEND (R66). -/
def WritesOnlyListed (i : Instr) (s t : State) : Prop :=
  match i with
  | .nop => t = { s with pend := donePend s }
  | .softReset => t.inputs = s.inputs ∧ t.reads = s.reads ∧ t.draws = s.draws
  | .errClear => t = { s with err := t.err, overrun := t.overrun, errReg := t.errReg, pend := donePend s }
  | .freqClear => t = { s with freq := t.freq, pend := donePend s }
  | .build =>
    t = { s with
      nodes := t.nodes, nodeCount := t.nodeCount, leafCount := t.leafCount, root := t.root, treeState := t.treeState,
      ctValid := t.ctValid, rowCount := t.rowCount, rowOpen := t.rowOpen, loadCur := t.loadCur, decState := t.decState,
      pend := donePend s }
  | .serialize => t = { s with ct := t.ct, rowCount := t.rowCount, ctValid := t.ctValid, pend := donePend s }
  | .encode _ => t = { s with resLen := t.resLen, resPath := t.resPath, pend := donePend s }
  | .loadBegin =>
    t = { s with
      nodes := t.nodes, nodeCount := t.nodeCount, leafCount := t.leafCount, root := t.root, treeState := t.treeState,
      ctValid := t.ctValid, rowCount := t.rowCount, rowOpen := t.rowOpen, loadCur := t.loadCur, decState := t.decState,
      pend := donePend s }
  | .loadSym => t = { s with rowOpen := t.rowOpen, loadCur := t.loadCur, pend := donePend s }
  | .loadChar _ => t = { s with nodes := t.nodes, nodeCount := t.nodeCount, loadCur := t.loadCur, pend := donePend s }
  | .loadRowEnd =>
    t = { s with
      nodes := t.nodes, leafCount := t.leafCount, rowOpen := t.rowOpen, loadCur := t.loadCur, pend := donePend s } ∧
    ∀ k : NodeIdx, t.nodes[k] = { s.nodes[k] with sym := t.nodes[k].sym }
  | .loadEnd => t = { s with treeState := t.treeState, loadCur := t.loadCur, pend := donePend s }
  | .decBegin =>
    t = { s with
      decState := t.decState, cursor := t.cursor, decCount := t.decCount, decOut := t.decOut, pend := donePend s }
  | .decBit _ =>
    t = { s with
      decState := t.decState, cursor := t.cursor, decCount := t.decCount, decOut := t.decOut, pend := donePend s }
  | .decEnd => t = { s with decState := t.decState, pend := donePend s }

/-- The symbols with a nonzero FREQ entry, ascending (R121). -/
def usedSymbols (s : State) : List Byte :=
  ((List.range 256).map (BitVec.ofNat 8)).filter (fun sym => s.freqAt sym != 0#32)

/-- Node i exists when node n is made, and is no child yet: it is in Q (R122, R124). -/
def OpenAt (s : State) (n i : NodeIdx) : Prop := i.val < n.val ∧ ∀ m : NodeIdx, m.val < n.val → ¬ IsChild s m i

/-- Node x is extracted before node y: lower frequency, or equal frequency and inserted earlier (R123). A node's insertion serial is its
arena index, because leaves and merged nodes are inserted in the order they are numbered (R120). -/
def TakenBefore (s : State) (x y : NodeIdx) : Prop :=
  s.nodes[x].nfreq.toNat < s.nodes[y].nfreq.toNat ∨ (s.nodes[x].nfreq = s.nodes[y].nfreq ∧ x.val < y.val)

/-- One DEC_BIT per bit, the host reading DEC_OUT after each (R94, R196): the state at the end and the symbols emitted, in order; none
where a command does not answer a next state. -/
def decodeBits : List Bool → State → Option (State × List Byte)
  | [], s => some (s, [])
  | b :: bits, s =>
    match exec (.decBit b) s with
    | .next t =>
      match decodeBits bits t with
      | some (u, out) => some (u, if t.decOut.valid then t.decOut.sym :: out else out)
      | none => none
    | .fault _ => none
    | .refused _ => none

/-- The table that a host reads from CT, as LOAD_TABLE takes it (R91, R95, R160). -/
def tableOf (s : State) : List (Word × List Byte) := s.liveRows.map fun r => (r.sym.zeroExtend 32, r.bits.map bitChar)

/-- The two states agree on everything an access or a command can depend on: all but the NODE entries at NODE_COUNT and beyond, the CT
rows at ROW_COUNT and beyond, and the word of a PEND that is not valid (R41, R44, R252). -/
def SameLive (s s' : State) : Prop :=
  s' = { s with nodes := s'.nodes, ct := s'.ct, pend := s'.pend } ∧
  (∀ i : NodeIdx, i.val < s.nodeCount.val → s'.nodes[i] = s.nodes[i]) ∧
  (∀ r : Fin 256, r.val < s.rowCount.toNat → s'.ct[r] = s.ct[r]) ∧
  s'.pend.valid = s.pend.valid ∧ (s.pend.valid = true → s'.pend.word = s.pend.word)

end Sys2Proof.Safety
end

