-- ==== Sys2Proof/Certificates/Slice0/Obligations.lean ====
section
/-! DEFINITION. The statements for the provers. Each docstring names the rule of spec/ it formalises; exec, step and the port operations
are the model's, and the right sides are written from the rule. -/

open Sys2Proof Sys2Proof.Machine Sys2Proof.Safety

/-- A word of each family, written bit by bit, decodes to its command. Rests on 30_encoding.md R81, 30_encoding.md R83, 30_encoding.md R88. -/
def Obligations.SampleWordsDecodeToTheirCommands : Prop :=
  decode 0b00000000000000000000000000000001#32 = .command .softReset ∧
  decode 0b00000000000000000000000000010000#32 = .command .build ∧
  decode 0b00000000000000000000000000010001#32 = .command .serialize ∧
  decode 0b00000000000000000011000100100010#32 = .command (.loadChar 0x31#8) ∧
  decode 0b00000000000000000000000000100100#32 = .command .loadEnd ∧
  decode 0b00000000000000000100001000110000#32 = .command (.encode 0x42#8) ∧
  decode 0b00000000000000000000000101000001#32 = .command (.decBit true) ∧
  decode 0b00000000000000000000000001000010#32 = .command .decEnd ∧
  decode 0b00000000000000000000001001000001#32 = .illegal .reservedBits ∧
  decode 0b00000000000000000000000000000100#32 = .illegal .undefinedOpcode

/-- decode answers every word as its opcode map and formats say, and 526 words are legal. Formalises R84. -/
def Obligations.DecodeFollowsTheOpcodeMap : Prop :=
  (∀ w : Word,
    (w.extractLsb' 0 8 ∉ [0x00#8, 0x01#8, 0x02#8, 0x03#8, 0x10#8, 0x11#8, 0x20#8, 0x21#8, 0x22#8, 0x23#8, 0x24#8, 0x30#8, 0x40#8,
        0x41#8, 0x42#8] → decode w = .illegal .undefinedOpcode) ∧
    (∀ p ∈ [(0x00#8, Instr.nop), (0x01#8, Instr.softReset), (0x02#8, Instr.errClear), (0x03#8, Instr.freqClear),
        (0x10#8, Instr.build), (0x11#8, Instr.serialize), (0x20#8, Instr.loadBegin), (0x21#8, Instr.loadSym),
        (0x23#8, Instr.loadRowEnd), (0x24#8, Instr.loadEnd), (0x40#8, Instr.decBegin), (0x42#8, Instr.decEnd)],
      w.extractLsb' 0 8 = p.1 →
        decode w = if w.extractLsb' 8 24 = 0#24 then .command p.2 else .illegal .reservedBits) ∧
    (w.extractLsb' 0 8 = 0x22#8 →
      decode w = if w.extractLsb' 16 16 = 0#16 then .command (.loadChar (w.extractLsb' 8 8)) else .illegal .reservedBits) ∧
    (w.extractLsb' 0 8 = 0x30#8 →
      decode w = if w.extractLsb' 16 16 = 0#16 then .command (.encode (w.extractLsb' 8 8)) else .illegal .reservedBits) ∧
    (w.extractLsb' 0 8 = 0x41#8 →
      decode w = if w.extractLsb' 9 23 = 0#23 then .command (.decBit (w.getLsbD 8)) else .illegal .reservedBits)) ∧
  ∃ l : List Word, l.Nodup ∧ l.length = 526 ∧ ∀ w, w ∈ l ↔ ∃ i, decode w = .command i

/-- A word decodes to a command exactly when it is that command's encoding. Rests on 30_encoding.md R83, 30_encoding.md R84. -/
def Obligations.DecodeAndEncodeAgree : Prop :=
  ∀ (w : Word) (i : Instr), decode w = .command i ↔ w = encode i

/-- A word is legal exactly when one row of the opcode table covers it, with the same mnemonic. Rests on 30_encoding.md R83, opcode_table.json. -/
def Obligations.OpcodeTableAndDecoderAgree : Prop :=
  ∀ w : Word,
    (∀ i, decode w = .command i →
      ∃ r ∈ opcodeTable, r.covers w = true ∧ r.mnemonic = i.mnemonic ∧ ∀ r' ∈ opcodeTable, r'.covers w = true → r' = r) ∧
    (∀ why, decode w = .illegal why → ∀ r ∈ opcodeTable, r.covers w = false)

/-- Word j bit b of a packed path is descent 32j + b, and 0 past the path's end. Formalises R65. -/
def Obligations.PathsPackFirstDescentFirst : Prop :=
  (∀ (p : List Bool) (j : Fin 8) (b : Fin 32), p.length ≤ 256 →
    (pathWord (pack p) j).getLsbD b.val =
      if h : 32 * j.val + b.val < p.length then p[32 * j.val + b.val] else false) ∧
  pathWord (pack [true, true, false, true]) 0 = 0x0000000B#32 ∧
  (∀ j : Fin 8, j ≠ 0 → pathWord (pack [true, true, false, true]) j = 0#32) ∧
  ∀ s : State, s.busy = false → ∀ j : Fin 8,
    s.readWord (BitVec.ofNat 14 ((0x0028 + 4 * j.val) / 4)) = pathWord s.resPath j ∧
    ∀ r : Fin 256, r.val < s.rowCount.toNat →
      s.readWord (BitVec.ofNat 14 ((0x4000 + 0x40 * r.val + 0x08 + 4 * j.val) / 4)) = pathWord s.ct[r].path j

/-- Every name of the register map stands at its own offset, within the 64 KiB of the port. Rests on 20_memory.md R60, 20_memory.md R63, 30_encoding.md R89. -/
def Obligations.RegisterMapNamesAndOffsetsAgree : Prop :=
  ∀ t : Target, t ≠ .reserved → target t.addr = t ∧ t.offset % 4 = 0 ∧ t.offset < 0x10000

/-- While idle, each register word of the port shows the state's fields at their bit positions. Rests on 10_state.md R22 to R36, 20_memory.md R63. -/
def Obligations.RegisterReadsShowTheirFields : Prop :=
  ∀ s : State, s.busy = false →
    let rd := fun off => s.readWord (BitVec.ofNat 14 (off / 4))
    rd 0x0000 = 0x48554646#32 ∧ rd 0x0004 = 0#32 ∧ rd 0x0008 = s.data ∧
    ((rd 0x000C).getLsbD 0 = false ∧ (rd 0x000C).getLsbD 1 = s.err ∧ (rd 0x000C).getLsbD 2 = s.overrun ∧
      (rd 0x000C).getLsbD 3 = s.ctValid ∧
      (rd 0x000C).extractLsb' 4 2 = (match s.treeState with | .empty => 0#2 | .built => 1#2 | .loading => 2#2 | .loaded => 3#2) ∧
      (rd 0x000C).getLsbD 6 = s.rowOpen ∧ (rd 0x000C).getLsbD 7 = false ∧
      (rd 0x000C).extractLsb' 8 2 = (match s.decState with | .idle => 0#2 | .atRoot => 1#2 | .descending => 2#2) ∧
      (rd 0x000C).extractLsb' 10 22 = 0#22) ∧
    ((rd 0x0010).extractLsb' 0 8 = s.errReg.code ∧ (rd 0x0010).extractLsb' 8 8 = s.errReg.sub ∧
      (rd 0x0010).extractLsb' 16 8 = s.errReg.op ∧ (rd 0x0010).extractLsb' 24 8 = 0#8) ∧
    (rd 0x0014).toNat = s.root.val ∧ (rd 0x0018).toNat = s.leafCount.toNat ∧ (rd 0x001C).toNat = s.nodeCount.val ∧
    (rd 0x0020).toNat = s.rowCount.toNat ∧ (rd 0x0024).toNat = s.resLen.toNat ∧
    (∀ j : Fin 8, rd (0x0028 + 4 * j.val) = s.resPath.extractLsb' (32 * j.val) 32) ∧
    ((rd 0x0048).extractLsb' 0 8 = s.decOut.sym ∧ (rd 0x0048).getLsbD 8 = s.decOut.valid ∧ (rd 0x0048).extractLsb' 9 23 = 0#23) ∧
    rd 0x004C = s.decCount ∧
    (((rd 0x0050).extractLsb' 0 9).toNat = s.cursor.node.val ∧ (rd 0x0050).extractLsb' 9 7 = 0#7 ∧
      (rd 0x0050).extractLsb' 16 8 = s.cursor.pending ∧ (rd 0x0050).extractLsb' 24 8 = 0#8) ∧
    (((rd 0x0054).extractLsb' 0 9).toNat = s.loadCur.node.val ∧ (rd 0x0054).extractLsb' 9 7 = 0#7 ∧
      (rd 0x0054).extractLsb' 16 8 = s.loadCur.len ∧ (rd 0x0054).extractLsb' 24 8 = s.loadCur.sym)

/-- While idle, the CT and NODE windows show the fields of their live entries at the bits of the map. Rests on 20_memory.md R63, 10_state.md R41, 10_state.md R44. -/
def Obligations.WindowReadsShowLiveEntries : Prop :=
  ∀ s : State, s.busy = false →
    let rd := fun off => s.readWord (BitVec.ofNat 14 (off / 4))
    (∀ r : Fin 256, r.val < s.rowCount.toNat →
      (rd (0x4000 + 0x40 * r.val)).toNat = s.ct[r].sym.toNat ∧ (rd (0x4000 + 0x40 * r.val + 0x04)).toNat = s.ct[r].len.toNat ∧
      ∀ j : Fin 8, rd (0x4000 + 0x40 * r.val + 0x08 + 4 * j.val) = s.ct[r].path.extractLsb' (32 * j.val) 32) ∧
    (∀ i : NodeIdx, i.val < s.nodeCount.val →
      let w := rd (0x8000 + 0x10 * i.val)
      ((w.extractLsb' 0 9).toNat = (match s.nodes[i].left with | none => 0 | some j => j.val)) ∧
      ((w.extractLsb' 9 9).toNat = (match s.nodes[i].right with | none => 0 | some j => j.val)) ∧
      w.extractLsb' 18 8 = s.nodes[i].sym.getD 0#8 ∧
      w.getLsbD 26 = s.nodes[i].left.isSome ∧ w.getLsbD 27 = s.nodes[i].right.isSome ∧ w.getLsbD 28 = s.nodes[i].sym.isSome ∧
      w.extractLsb' 29 3 = 0#3 ∧
      rd (0x8000 + 0x10 * i.val + 0x4) = s.nodes[i].nfreq.extractLsb' 0 32 ∧
      (rd (0x8000 + 0x10 * i.val + 0x8)).toNat = (s.nodes[i].nfreq.extractLsb' 32 8).toNat ∧
      rd (0x8000 + 0x10 * i.val + 0xC) = 0#32)

/-- A window word at ROW_COUNT or NODE_COUNT or beyond reads 0, and no read depends on a stale entry. Formalises R64. -/
def Obligations.StaleEntriesAreNeverRead : Prop :=
  (∀ s : State, s.busy = false →
    (∀ (r : Fin 256) (j : Fin 10), s.rowCount.toNat ≤ r.val → s.readWord (BitVec.ofNat 14 ((0x4000 + 0x40 * r.val + 4 * j.val) / 4)) = 0#32) ∧
    (∀ (i : NodeIdx) (j : Fin 3), s.nodeCount.val ≤ i.val → s.readWord (BitVec.ofNat 14 ((0x8000 + 0x10 * i.val + 4 * j.val) / 4)) = 0#32) ∧
    (∀ sym : Byte, s.readWord (BitVec.ofNat 14 ((0x0400 + 4 * sym.toNat) / 4)) = s.freqAt sym)) ∧
  (∀ s : State, Inv s → s.ctValid = false → s.rowCount = 0#9) ∧
  ∀ (s : State) (nodes : Vector Node 511) (ct : Vector Row 256),
    (∀ i : NodeIdx, i.val < s.nodeCount.val → nodes[i] = s.nodes[i]) →
    (∀ r : Fin 256, r.val < s.rowCount.toNat → ct[r] = s.ct[r]) →
    ∀ a, ({ s with nodes := nodes, ct := ct } : State).readWord a = s.readWord a

/-- A host read returns the word read and moves nothing of the block; ID and STATUS.BUSY are current even while busy. Rests on 20_memory.md R61, 20_memory.md R72, 70_reset_and_hazards.md R262. -/
def Obligations.HostReadsMoveNothing : Prop :=
  ∀ (s : State) (a : WordAddr) (rest : List Input), s.inputs = .read a :: rest →
    step s = .next { s with inputs := rest, reads := s.readWord a :: s.reads, draws := if s.busy then s.draws + 1 else s.draws } ∧
      (4 * a.toNat = 0x0000 → s.readWord a = 0x48554646#32) ∧ (4 * a.toNat = 0x000C → (s.readWord a).getLsbD 0 = s.busy) ∧
      (s.busy = false → 4 * a.toNat = 0x0004 → s.readWord a = 0#32) ∧
      (s.busy = false →
        (0x0058 ≤ 4 * a.toNat ∧ 4 * a.toNat < 0x0400) ∨ (0x0800 ≤ 4 * a.toNat ∧ 4 * a.toNat < 0x4000) ∨
          (0x4000 ≤ 4 * a.toNat ∧ 4 * a.toNat < 0x8000 ∧ 0x28 ≤ 4 * a.toNat % 0x40) ∨
          (0x8000 ≤ 4 * a.toNat ∧ 4 * a.toNat < 0xA000 ∧ 4 * a.toNat % 0x10 = 0xC) ∨ 0x9FF0 ≤ 4 * a.toNat → s.readWord a = 0#32)

/-- A host write stores to DATA, a FREQ word or the command latch, is dropped while busy, or is ignored. Rests on 20_memory.md R62, 20_memory.md R66, 20_memory.md R67. The clauses about freq.wf, FREQ's canonical form, are the model's own choice (log 3), no rule of the spec. -/
def Obligations.HostWritesFollowTheMap : Prop :=
  ∀ (s : State) (a : WordAddr) (v : Word),
    (∀ rest, step { s with inputs := .write a v :: rest } = .next (({ s with inputs := rest } : State).hostWrite a v)) ∧
    (s.busy = true → 4 * a.toNat = 0x0004 ∨ 4 * a.toNat = 0x0008 ∨ (0x0400 ≤ 4 * a.toNat ∧ 4 * a.toNat < 0x0800) →
      s.hostWrite a v = { s with overrun := true }) ∧
    (s.busy = false → 4 * a.toNat = 0x0004 → s.hostWrite a v = { s with pend := ⟨true, v⟩ } ∧ (s.hostWrite a v).busy = true) ∧
    (s.busy = false → 4 * a.toNat = 0x0008 → s.hostWrite a v = { s with data := v }) ∧
    (∀ sym : Byte, s.busy = false → 4 * a.toNat = 0x0400 + 4 * sym.toNat →
      s.hostWrite a v = { s with freq := (s.hostWrite a v).freq } ∧
      (∀ sym' : Byte, sym' ≠ sym → (s.hostWrite a v).freqAt sym' = s.freqAt sym') ∧
      (s.freq.wf = true → (s.hostWrite a v).freqAt sym = v ∧ (s.hostWrite a v).freq.wf = true)) ∧
    (4 * a.toNat ≠ 0x0004 → 4 * a.toNat ≠ 0x0008 → ¬ (0x0400 ≤ 4 * a.toNat ∧ 4 * a.toNat < 0x0800) → s.hostWrite a v = s)

/-- OVERRUN, once set, stays until ERR_CLEAR, SOFT_RESET or a reset, and no other command depends on it. Formalises R67. -/
def Obligations.OverrunIsStickyAndStopsNothing : Prop :=
  (∀ (s : State) (a : WordAddr) (v : Word), s.busy = true →
    4 * a.toNat = 0x0004 ∨ 4 * a.toNat = 0x0008 ∨ (0x0400 ≤ 4 * a.toNat ∧ 4 * a.toNat < 0x0800) →
      s.hostWrite a v = { s with overrun := true }) ∧
  (∀ s t : State, s.overrun = true → step s = .next t →
    t.overrun = true ∨ (∃ rest, s.inputs = .reset :: rest) ∨
      ∃ u, CoreMoves s u ∧ s.initPending = false ∧ s.pend.valid = true ∧
        (decode s.pend.word = .command .errClear ∨ decode s.pend.word = .command .softReset)) ∧
  ∀ (i : Instr) (s t : State) (b : Bool), i ≠ .errClear → i ≠ .softReset → exec i s = .next t →
    t.overrun = s.overrun ∧ exec i { s with overrun := b } = .next { t with overrun := b }

/-- A core step with a legal word pending is exec of its command. Rests on 20_memory.md R66, 60_exceptions.md R226. -/
def Obligations.StepRunsThePendingCommand : Prop :=
  (∀ (s u : State) (i : Instr), CoreMoves s u → s.initPending = false → s.pend.valid = true → decode s.pend.word = .command i →
    step s = exec i u) ∧
  ∀ (s : State) (i : Instr),
    step (s.withFetchWord 32 (encode i).toNat) = exec i (s.withFetchWord 32 (encode i).toNat)

/-- The core's step checks in order: initialisation, discard while ERR, illegal, sequencing, then the command. Formalises R226. -/
def Obligations.DispatchFollowsItsOrder : Prop :=
  ∀ s u : State, CoreMoves s u →
    (s.initPending = true → ∃ t, step s = .next t ∧ (∀ sym, t.freqAt sym = 0#32) ∧ t = { u with freq := t.freq, initPending := false }) ∧
    (s.initPending = false → s.pend.valid = false → step s = .next u) ∧
    (s.initPending = false → s.pend.valid = true →
      (s.err = true → ∀ i, decode s.pend.word = .command i → i = .softReset ∨ i = .errClear → step s = exec i u) ∧
      (s.err = true → decode s.pend.word ≠ .command .softReset → decode s.pend.word ≠ .command .errClear →
        step s = .next { u with pend := ⟨false, s.pend.word⟩ }) ∧
      (s.err = false → decode s.pend.word = .illegal .undefinedOpcode →
        step s = .next (recorded u (s.pend.word.extractLsb' 0 8) 1#8 7#8)) ∧
      (s.err = false → decode s.pend.word = .illegal .reservedBits →
        step s = .next (recorded u (s.pend.word.extractLsb' 0 8) 2#8 7#8)) ∧
      (s.err = false → ∀ i, decode s.pend.word = .command i → ¬ SpecAllowed i s →
        step s = .next (recorded u (s.pend.word.extractLsb' 0 8) 0#8 5#8)) ∧
      (s.err = false → ∀ i, decode s.pend.word = .command i → SpecAllowed i s → step s = exec i u))

/-- Executing a word that is no command raises ILLEGAL_CMD, unless STATUS.ERR = 1, when it is ignored. Formalises R85. -/
def Obligations.IllegalWordsRaiseIllegalCmd : Prop :=
  (∀ s u : State, CoreMoves s u → s.initPending = false → s.pend.valid = true →
    (s.err = false → decode s.pend.word = .illegal .undefinedOpcode →
      step s = .next (recorded u (s.pend.word.extractLsb' 0 8) 1#8 7#8)) ∧
    (s.err = false → decode s.pend.word = .illegal .reservedBits →
      step s = .next (recorded u (s.pend.word.extractLsb' 0 8) 2#8 7#8)) ∧
    (s.err = true → ∀ why, decode s.pend.word = .illegal why → step s = .next { u with pend := ⟨false, s.pend.word⟩ })) ∧
  ∀ w : Word, decode w = .illegal .undefinedOpcode ↔
    (0x04 ≤ (w.extractLsb' 0 8).toNat ∧ (w.extractLsb' 0 8).toNat ≤ 0x0F) ∨
    (0x12 ≤ (w.extractLsb' 0 8).toNat ∧ (w.extractLsb' 0 8).toNat ≤ 0x1F) ∨
    (0x25 ≤ (w.extractLsb' 0 8).toNat ∧ (w.extractLsb' 0 8).toNat ≤ 0x2F) ∨
    (0x31 ≤ (w.extractLsb' 0 8).toNat ∧ (w.extractLsb' 0 8).toNat ≤ 0x3F) ∨
    (0x43 ≤ (w.extractLsb' 0 8).toNat ∧ (w.extractLsb' 0 8).toNat ≤ 0xFF)

/-- While STATUS.ERR = 1 every command but ERR_CLEAR and SOFT_RESET is discarded, and those two never raise. Formalises R232. -/
def Obligations.ErrorsDoNotNest : Prop :=
  (∀ (i : Instr) (s : State), s.err = true → i ≠ .errClear → i ≠ .softReset →
    exec i s = .next { s with pend := ⟨false, s.pend.word⟩ }) ∧
  (∀ s u : State, CoreMoves s u → s.initPending = false → s.pend.valid = true → s.err = true →
    decode s.pend.word ≠ .command .errClear → decode s.pend.word ≠ .command .softReset →
    ∃ t, step s = .next t ∧ t = { u with pend := ⟨false, s.pend.word⟩ } ∧ t.busy = false) ∧
  ∀ (i : Instr) (s : State), i = .errClear ∨ i = .softReset → ∃ t, exec i s = .next t ∧ t.err = false

/-- A command that its state does not allow raises SEQUENCE and does nothing else. Formalises R227. -/
def Obligations.CommandsOutOfSequenceRaiseSequence : Prop :=
  (∀ (i : Instr) (s : State), s.err = false → ¬ SpecAllowed i s → exec i s = .next (recorded s i.opcode 0#8 5#8)) ∧
  (∀ (i : Instr) (s t : State), s.err = false → SpecAllowed i s → exec i s = .next t → t.err = true → t.errReg.code ≠ 5#8) ∧
  ∀ s : State, s.err = false → s.treeState = .loading →
    (s.rowOpen = true →
      exec .loadSym s = .next (recorded s.discardTree 0x21#8 5#8 2#8) ∧ exec .loadEnd s = .next (recorded s.discardTree 0x24#8 5#8 2#8)) ∧
    (s.rowOpen = false →
      (∀ c, exec (.loadChar c) s = .next (recorded s.discardTree 0x22#8 5#8 2#8)) ∧
      exec .loadRowEnd s = .next (recorded s.discardTree 0x23#8 5#8 2#8))

/-- A command records its own opcode and one of the errors that its row of R223 lists. Rests on 60_exceptions.md R223, 60_exceptions.md R224. -/
def Obligations.CommandsRaiseOnlyTheirListedErrors : Prop :=
  ∀ (i : Instr) (s t : State), s.err = false → exec i s = .next t → t.err = true →
    t.errReg.op = i.opcode ∧ (t.errReg.code, t.errReg.sub) ∈ listedErrors i

/-- A command that raises no error writes only the state that its row of R46 lists, and the handshake. Formalises R46. -/
def Obligations.CommandsWriteOnlyTheirListedState : Prop :=
  ∀ (i : Instr) (s t : State), s.err = false → exec i s = .next t → t.err = false → WritesOnlyListed i s t

/-- An error discards the tree, ends the session or changes nothing, as R225 lists it for its code. Formalises R225. -/
def Obligations.ErrorsHaveTheirListedEffects : Prop :=
  (∀ (i : Instr) (s t : State), s.err = false → exec i s = .next t → t.err = true →
    (t.errReg.code = 1#8 ∨ t.errReg.code = 2#8 →
      t = { s with
        treeState := .empty, nodeCount := 0, leafCount := 0#9, root := 0, ctValid := false, rowCount := 0#9, rowOpen := false,
        loadCur := ⟨0#8, 0#8, 0⟩, decState := .idle, err := true, errReg := t.errReg, pend := donePend s }) ∧
    (t.errReg.code = 3#8 ∨ t.errReg.code = 4#8 →
      t = { s with decState := .idle, err := true, errReg := t.errReg, pend := donePend s }) ∧
    (t.errReg.code = 5#8 ∨ t.errReg.code = 6#8 →
      t = { s with err := true, errReg := t.errReg, pend := donePend s })) ∧
  (∀ (s u : State) (why : Illegal), CoreMoves s u → s.initPending = false → s.pend.valid = true → s.err = false →
    decode s.pend.word = .illegal why →
    ∃ t, step s = .next t ∧ t.errReg.code = 7#8 ∧ t = { u with err := true, errReg := t.errReg, pend := donePend u }) ∧
  ∀ (i : Instr) (s t : State), i = .build ∨ i = .loadBegin → s.err = false → exec i s = .next t → t.err = false →
    t.ctValid = false ∧ t.rowCount = 0#9 ∧ t.rowOpen = false ∧ t.loadCur = ⟨0#8, 0#8, 0⟩ ∧ t.decState = .idle ∧
      t.cursor = s.cursor ∧ t.decCount = s.decCount ∧ t.decOut = s.decOut ∧ t.resLen = s.resLen ∧ t.resPath = s.resPath ∧
      t.data = s.data ∧ t.freq = s.freq

/-- A CMD write sets PEND and BUSY; the core's step, enabled exactly then or before the job, completes and clears BUSY. Rests on 20_memory.md R66, 10_state.md R37. -/
def Obligations.CommandAcceptanceAndExecutionAreTwoSteps : Prop :=
  (∀ (s : State) (w : Word), s.busy = false → s.hostWrite 1#14 w = { s with pend := ⟨true, w⟩ } ∧ (s.hostWrite 1#14 w).busy = true) ∧
  (∀ s u : State, CoreMoves s u → s.busy = false → step s = .next u) ∧
  ∀ s u : State, Inv s → CoreMoves s u → s.busy = true → ∃ t, step s = .next t ∧ t.pend.valid = false ∧ t.busy = false

/-- The reset event sets every register to its reset value, BUSY and INIT_PENDING to 1, whatever came before. Formalises R250. -/
def Obligations.HardwareResetSetsEveryRegister : Prop :=
  ∀ (s : State) (rest : List Input), s.inputs = .reset :: rest →
    ∃ t, step s = .next t ∧
      t.data = 0#32 ∧ t.err = false ∧ t.overrun = false ∧ t.ctValid = false ∧ t.treeState = .empty ∧ t.rowOpen = false ∧
      t.decState = .idle ∧ t.errReg = ⟨0#8, 0#8, 0#8⟩ ∧ t.root = 0 ∧ t.leafCount = 0#9 ∧ t.nodeCount = 0 ∧ t.rowCount = 0#9 ∧
      t.resLen = 0#8 ∧ t.resPath = 0#256 ∧ t.decOut = ⟨false, 0#8⟩ ∧ t.decCount = 0#32 ∧ t.cursor = ⟨0, 0#8⟩ ∧
      t.loadCur = ⟨0#8, 0#8, 0⟩ ∧ (∀ sym, t.freqAt sym = 0#32) ∧ t.pend.valid = false ∧ t.initPending = true ∧ t.busy = true ∧
      t.readWord 0#14 = 0x48554646#32 ∧ t.inputs = rest ∧
      ∀ s' : State, s'.inputs = s.inputs → s'.reads = s.reads → s'.draws = s.draws →
        ∃ t', step s' = .next t' ∧ SameLive t t'

/-- The initialisation job clears FREQ and INIT_PENDING; until it has run, host writes are dropped. Formalises R251. -/
def Obligations.InitialisationJobClearsFreq : Prop :=
  (∀ s u : State, CoreMoves s u → s.initPending = true →
    ∃ t, step s = .next t ∧ (∀ sym, t.freqAt sym = 0#32) ∧ t = { u with freq := t.freq, initPending := false } ∧
      (s.pend.valid = false → t.busy = false)) ∧
  (∃ t, step State.reset = .next t ∧ t.busy = false ∧ t.readWord 0#14 = 0x48554646#32 ∧
    ∀ a : WordAddr, a ≠ 0#14 → t.readWord a = 0#32) ∧
  (∀ s : State, s.initPending = true → s.busy = true ∧
    ∀ (a : WordAddr) (v : Word), 4 * a.toNat = 0x0004 ∨ 4 * a.toNat = 0x0008 ∨ (0x0400 ≤ 4 * a.toNat ∧ 4 * a.toNat < 0x0800) →
      s.hostWrite a v = { s with overrun := true }) ∧
  ∀ s : State, ∃ t, exec .softReset s = .next t ∧ (∀ sym, t.freqAt sym = 0#32) ∧ t.initPending = false ∧ t.busy = false

/-- NOP answers a next state that differs in the handshake alone; NOP with reserved bits set is illegal. Formalises R100. -/
def Obligations.NopMovesNothing : Prop :=
  decode 0x00000000#32 = .command .nop ∧
  ((∀ s : State, exec .nop s = .next { s with pend := ⟨false, s.pend.word⟩ }) ∧
  ∀ w : Word, w.extractLsb' 0 8 = 0#8 → w ≠ 0#32 → decode w = .illegal .reservedBits)

/-- After SOFT_RESET, from any state, every word of the port but ID reads 0 and the block is idle. Formalises R101. -/
def Obligations.SoftResetResetsEverything : Prop :=
  decode 0x00000001#32 = .command .softReset ∧
  ((∀ s : State, ∃ t, exec .softReset s = .next t ∧
    t.data = 0#32 ∧ t.err = false ∧ t.overrun = false ∧ t.ctValid = false ∧ t.treeState = .empty ∧ t.rowOpen = false ∧
    t.decState = .idle ∧ t.errReg = ⟨0#8, 0#8, 0#8⟩ ∧ t.root = 0 ∧ t.leafCount = 0#9 ∧ t.nodeCount = 0 ∧ t.rowCount = 0#9 ∧
    t.resLen = 0#8 ∧ t.resPath = 0#256 ∧ t.decOut = ⟨false, 0#8⟩ ∧ t.decCount = 0#32 ∧ t.cursor = ⟨0, 0#8⟩ ∧
    t.loadCur = ⟨0#8, 0#8, 0⟩ ∧ t.pend.valid = false ∧ t.initPending = false ∧ t.busy = false ∧ (∀ sym, t.freqAt sym = 0#32) ∧
    t.readWord 0#14 = 0x48554646#32 ∧ (∀ a : WordAddr, a ≠ 0#14 → t.readWord a = 0#32) ∧
    t.inputs = s.inputs ∧ t.reads = s.reads ∧ t.draws = s.draws) ∧
  ∀ (s : State) (w : Word), s.pend.valid = true → s.hostWrite 1#14 w = { s with overrun := true })

/-- ERR_CLEAR clears ERR, STATUS.ERR and STATUS.OVERRUN and moves nothing else. Formalises R102. -/
def Obligations.ErrClearClearsTheError : Prop :=
  decode 0x00000002#32 = .command .errClear ∧
  (∀ s : State, exec .errClear s =
    .next { s with errReg := ⟨0#8, 0#8, 0#8⟩, err := false, overrun := false, pend := ⟨false, s.pend.word⟩ })

/-- FREQ_CLEAR sets every FREQ entry to 0 and moves nothing else; a BUILD after it raises CONSTRUCTION. Formalises R103. -/
def Obligations.FreqClearClearsFreqAlone : Prop :=
  decode 0x00000003#32 = .command .freqClear ∧
  (∀ s : State, s.err = false →
    ∃ t, exec .freqClear s = .next t ∧ (∀ sym, t.freqAt sym = 0#32) ∧ t = { s with freq := t.freq, pend := donePend s } ∧
      exec .build t = .next (recorded t.discardTree 0x10#8 0#8 1#8))

/-- BUILD of k symbols makes k leaves and k - 1 internal nodes with the root last, and writes nothing else. Rests on 41_tree_builder.md R120, 41_tree_builder.md R125, 60_exceptions.md R225. -/
def Obligations.BuildMakesAValidTree : Prop :=
  ∀ s : State, s.err = false → usedSymbols s ≠ [] →
    ∃ t, exec .build s = .next t ∧
      t.leafCount.toNat = (usedSymbols s).length ∧ t.nodeCount.val + 1 = 2 * (usedSymbols s).length ∧
      t.root.val + 2 = 2 * (usedSymbols s).length ∧
      (∀ i : NodeIdx, i.val < t.nodeCount.val → t.nodes[i].isLeaf = true ∨ t.nodes[i].isInternal = true) ∧
      (∀ i : NodeIdx, t.nodeCount.val ≤ i.val → t.nodes[i] = s.nodes[i]) ∧
      t = { s with
        nodes := t.nodes, nodeCount := t.nodeCount, leafCount := t.leafCount, root := t.root, treeState := .built, ctValid := false,
        rowCount := 0#9, rowOpen := false, loadCur := ⟨0#8, 0#8, 0⟩, decState := .idle, pend := donePend s }

/-- BUILD puts the leaf of the j-th nonzero symbol at index j, with its count as frequency. Rests on 41_tree_builder.md R121, 10_state.md R43. -/
def Obligations.BuildMakesOneLeafPerUsedSymbol : Prop :=
  ∀ s : State, s.err = false → usedSymbols s ≠ [] →
    ∃ t, exec .build s = .next t ∧ t.freq = s.freq ∧
      ∀ (j : NodeIdx) (h : j.val < (usedSymbols s).length),
        t.nodes[j] =
          { left := none, right := none, sym := some (usedSymbols s)[j.val],
            nfreq := (s.freqAt (usedSymbols s)[j.val]).zeroExtend 40 }

/-- Each internal node BUILD makes joins the two open nodes that come first, by frequency and then by age. Rests on 41_tree_builder.md R122, 41_tree_builder.md R123, 41_tree_builder.md R124, 10_state.md R43. -/
def Obligations.BuildMergesTheTwoLeastEntries : Prop :=
  ∀ s : State, s.err = false → usedSymbols s ≠ [] →
    ∃ t, exec .build s = .next t ∧
      ∀ n : NodeIdx, (usedSymbols s).length ≤ n.val → n.val < t.nodeCount.val →
        ∃ a b : NodeIdx,
          t.nodes[n] = { left := some a, right := some b, sym := none, nfreq := t.nodes[a].nfreq + t.nodes[b].nfreq } ∧
          t.nodes[n].nfreq.toNat = t.nodes[a].nfreq.toNat + t.nodes[b].nfreq.toNat ∧
          OpenAt t n a ∧ OpenAt t n b ∧ a ≠ b ∧
          (∀ i, OpenAt t n i → i ≠ a → TakenBefore t a i) ∧ (∀ i, OpenAt t n i → i ≠ a → i ≠ b → TakenBefore t b i)

/-- BUILD with every FREQ entry 0 raises CONSTRUCTION and leaves no tree. Formalises R126. -/
def Obligations.BuildOfNothingRaisesConstruction : Prop :=
  ∀ s : State, s.err = false → (∀ sym, s.freqAt sym = 0#32) →
    exec .build s = .next
      { s with
        treeState := .empty, nodeCount := 0, leafCount := 0#9, root := 0, ctValid := false, rowCount := 0#9, rowOpen := false,
        loadCur := ⟨0#8, 0#8, 0⟩, decState := .idle, err := true, errReg := ⟨0x10#8, 0#8, 1#8⟩, pend := donePend s }

/-- With one nonzero symbol BUILD makes a one-leaf tree, whose row and path are empty and which cannot be decoded. Formalises R127. -/
def Obligations.SingleSymbolAlphabetIsDegenerate : Prop :=
  ∀ (s : State) (sym : Byte), s.err = false → usedSymbols s = [sym] →
    ∃ t, exec .build s = .next t ∧ t.err = false ∧ t.treeState = .built ∧ t.root = 0 ∧ t.nodeCount.val = 1 ∧
      t.nodes[(0 : NodeIdx)] = { left := none, right := none, sym := some sym, nfreq := (s.freqAt sym).zeroExtend 40 } ∧
      ∃ u, exec .serialize t = .next u ∧ u.rowCount = 1#9 ∧ u.ct[(0 : Fin 256)] = { sym := sym, len := 0#8, path := 0#256 } ∧
        (∃ v, exec (.encode sym) u = .next v ∧ v.err = false ∧ v.resLen = 0#8 ∧ v.resPath = 0#256) ∧
        ∃ d, exec .decBegin u = .next d ∧
          ∀ b, exec (.decBit b) d = .next (recorded { d with decState := .idle } 0x41#8 0#8 4#8)

/-- SERIALIZE of a valid tree writes exactly its leaves' symbols and paths, left before right, and nothing else. Rests on 42_serializer_encoder.md R140, 20_memory.md R65, 10_state.md R44. -/
def Obligations.SerializeWritesOneRowPerLeafInPreOrder : Prop :=
  ∀ s : State, Inv s → s.err = false → s.treeState = .built ∨ s.treeState = .loaded →
    ∃ t, exec .serialize s = .next t ∧
      (∀ r : Fin 256, r.val < t.rowCount.toNat →
        (∃ i, descend s.nodes s.root t.ct[r].bits = some i ∧ s.nodes[i].isLeaf = true ∧ s.nodes[i].sym = some t.ct[r].sym) ∧
        ∀ b, t.ct[r].len.toNat ≤ b → t.ct[r].path.getLsbD b = false) ∧
      (∀ p i, descend s.nodes s.root p = some i → s.nodes[i].isLeaf = true →
        ∃ r : Fin 256, r.val < t.rowCount.toNat ∧ t.ct[r].bits = p) ∧
      (∀ r r' : Fin 256, r.val < r'.val → r'.val < t.rowCount.toNat →
        ∃ p q q', t.ct[r].bits = p ++ false :: q ∧ t.ct[r'].bits = p ++ true :: q') ∧
      (∀ r : Fin 256, t.rowCount.toNat ≤ r.val → t.ct[r] = s.ct[r]) ∧
      t = { s with ct := t.ct, rowCount := t.rowCount, ctValid := true, pend := donePend s }

/-- SERIALIZE emits LEAF_COUNT rows of distinct symbols, and serializing again changes nothing. Rests on 42_serializer_encoder.md R141, 41_tree_builder.md R128. -/
def Obligations.SerializerGuarantees : Prop :=
  ∀ s : State, Inv s → s.err = false → s.treeState = .built ∨ s.treeState = .loaded →
    ∃ t, exec .serialize s = .next t ∧ t.rowCount = s.leafCount ∧ exec .serialize t = .next t ∧
      (2 ≤ s.leafCount.toNat → ∀ r : Fin 256, r.val < t.rowCount.toNat → 1 ≤ t.ct[r].len.toNat) ∧
      ∀ r r' : Fin 256, r.val < t.rowCount.toNat → r'.val < t.rowCount.toNat → t.ct[r].sym = t.ct[r'].sym → r = r'

/-- Each row of a valid code table is a leaf's path of LEN bits, and no row's path is a prefix of another's. Rests on 41_tree_builder.md R128, 10_state.md R44, 43_deserializer.md R168. -/
def Obligations.CodeTableIsPrefixFree : Prop :=
  ∀ s : State, Inv s → s.ctValid = true →
    (∀ r : Fin 256, r.val < s.rowCount.toNat →
      ∃ (p : List Bool) (i : NodeIdx), descend s.nodes s.root p = some i ∧ s.nodes[i].isLeaf = true ∧ s.nodes[i].sym = some s.ct[r].sym ∧
        s.ct[r].bits = p ∧ s.ct[r].len.toNat = p.length ∧ p.length ≤ 255) ∧
    ∀ r r' : Fin 256, r.val < s.rowCount.toNat → r'.val < s.rowCount.toNat → r ≠ r' → ¬ s.ct[r].bits <+: s.ct[r'].bits

/-- ENCODE s copies the row of s to RES_LEN and RES_PATH, or raises SYMBOL_ABSENT and keeps them. Formalises R142. -/
def Obligations.EncodeReturnsTheSymbolsRow : Prop :=
  (∀ sym : Byte, decode (0x0000#16 ++ sym ++ 0x30#8) = .command (.encode sym)) ∧
  (∀ (s : State) (sym : Byte), s.err = false →
    (s.ctValid = false → exec (.encode sym) s = .next (recorded s 0x30#8 0#8 5#8)) ∧
    (s.ctValid = true → ∀ r : Fin 256, r.val < s.rowCount.toNat → s.ct[r].sym = sym →
      (∀ r' : Fin 256, r'.val < s.rowCount.toNat → s.ct[r'].sym = sym → r' = r) →
      ∃ t, exec (.encode sym) s = .next t ∧ t.resLen = s.ct[r].len ∧
        (∀ j : Fin 8, pathWord t.resPath j = pathWord s.ct[r].path j) ∧
        t = { s with resLen := t.resLen, resPath := t.resPath, pend := donePend s }) ∧
    (s.ctValid = true → (∀ r : Fin 256, r.val < s.rowCount.toNat → s.ct[r].sym ≠ sym) →
      exec (.encode sym) s = .next (recorded s 0x30#8 0#8 6#8)) ∧
    (Inv s → s.ctValid = true → s.leafCount = 1#9 →
      ∃ i, s.nodes[s.root].sym = some i ∧
        ∃ t, exec (.encode i) s = .next t ∧ t.err = false ∧ t.resLen = 0#8 ∧ t.resPath = 0#256))

/-- BUILD and LOAD_BEGIN clear the code table and end the session; later FREQ writes do not change the tree. Formalises R264. -/
def Obligations.StaleInputsAreRefused : Prop :=
  (∀ (s : State) (sym : Byte) (v : Word),
    s.hostWrite (Target.freq sym).addr v =
      { s with freq := (s.hostWrite (Target.freq sym).addr v).freq, overrun := (s.hostWrite (Target.freq sym).addr v).overrun }) ∧
  ∀ (i : Instr) (s t : State), i = .build ∨ i = .loadBegin → s.err = false → exec i s = .next t → t.err = false →
    t.ctValid = false ∧ t.decState = .idle ∧ (∀ sym, exec (.encode sym) t = .next (recorded t 0x30#8 0#8 5#8)) ∧
      ∀ b, exec (.decBit b) t = .next (recorded t 0x41#8 0#8 5#8)

/-- LOAD_BEGIN discards what there is and opens a load with one placeholder root at index 0. Formalises R161. -/
def Obligations.LoadBeginOpensAnEmptyLoad : Prop :=
  decode 0x00000020#32 = .command .loadBegin ∧
  (∀ s : State, s.err = false →
    ∃ t, exec .loadBegin s = .next t ∧
      t = { s with
        nodes := s.nodes.set 0 { left := none, right := none, sym := none, nfreq := 0xFFFFFFFFFF#40 }, nodeCount := 1, root := 0,
        leafCount := 0#9, treeState := .loading, ctValid := false, rowCount := 0#9, rowOpen := false, loadCur := ⟨0#8, 0#8, 0⟩,
        decState := .idle, pend := donePend s } ∧
      (s.overrun = false → s.initPending = false → t.statusWord = 0x00000020#32))

/-- LOAD_SYM checks the open row, the range and the symbol, in that order, and opens a row at the root. Formalises R162. -/
def Obligations.LoadSymOpensARow : Prop :=
  decode 0x00000021#32 = .command .loadSym ∧
  (∀ s : State, s.err = false →
    (s.treeState ≠ .loading → exec .loadSym s = .next (recorded s 0x21#8 0#8 5#8)) ∧
    (s.treeState = .loading →
      (s.rowOpen = true → exec .loadSym s = .next (recorded s.discardTree 0x21#8 5#8 2#8)) ∧
      (s.rowOpen = false → 255 < s.data.toNat → exec .loadSym s = .next (recorded s.discardTree 0x21#8 6#8 2#8)) ∧
      (s.rowOpen = false → s.data.toNat ≤ 255 →
        (∃ i : NodeIdx, i.val < s.nodeCount.val ∧ s.nodes[i].sym = some (s.data.extractLsb' 0 8)) →
        exec .loadSym s = .next (recorded s.discardTree 0x21#8 9#8 2#8)) ∧
      (s.rowOpen = false → s.data.toNat ≤ 255 →
        (∀ i : NodeIdx, i.val < s.nodeCount.val → s.nodes[i].sym ≠ some (s.data.extractLsb' 0 8)) →
        exec .loadSym s = .next { s with rowOpen := true, loadCur := ⟨s.data.extractLsb' 0 8, 0#8, s.root⟩, pend := donePend s })))

/-- LOAD_CHAR makes its checks in order, then descends to the child of its bit, making it where it is absent. Formalises R163. -/
def Obligations.LoadCharDescendsOrMakesAChild : Prop :=
  (∀ c : Byte, decode (0x0000#16 ++ c ++ 0x22#8) = .command (.loadChar c)) ∧
  (∀ (s : State) (c : Byte), s.err = false →
    (s.treeState ≠ .loading → exec (.loadChar c) s = .next (recorded s 0x22#8 0#8 5#8)) ∧
    (s.treeState = .loading → s.rowOpen = false → exec (.loadChar c) s = .next (recorded s.discardTree 0x22#8 5#8 2#8)) ∧
    (s.treeState = .loading → s.rowOpen = true →
      (c ≠ 0x30#8 → c ≠ 0x31#8 → exec (.loadChar c) s = .next (recorded s.discardTree 0x22#8 1#8 2#8)) ∧
      (∀ b : Bool, c = (if b then 0x31#8 else 0x30#8) →
        (s.loadCur.len = 255#8 → exec (.loadChar c) s = .next (recorded s.discardTree 0x22#8 7#8 2#8)) ∧
        (s.loadCur.len ≠ 255#8 →
          ((s.nodes[s.loadCur.node].sym.isSome = true) →
            exec (.loadChar c) s = .next (recorded s.discardTree 0x22#8 2#8 2#8)) ∧
          (s.nodes[s.loadCur.node].sym = none →
            (∀ j : NodeIdx, (if b then s.nodes[s.loadCur.node].right else s.nodes[s.loadCur.node].left) = some j →
              exec (.loadChar c) s =
                .next { s with loadCur := { s.loadCur with node := j, len := s.loadCur.len + 1#8 }, pend := donePend s }) ∧
            ((if b then s.nodes[s.loadCur.node].right else s.nodes[s.loadCur.node].left) = none →
              (s.nodeCount.val = 511 → exec (.loadChar c) s = .next (recorded s.discardTree 0x22#8 8#8 2#8)) ∧
              (∀ j : NodeIdx, j.val = s.nodeCount.val → s.loadCur.node.val < s.nodeCount.val →
                ∃ t, exec (.loadChar c) s = .next t ∧ t.nodeCount.val = s.nodeCount.val + 1 ∧
                  t.nodes[j] = { left := none, right := none, sym := none, nfreq := 0xFFFFFFFFFF#40 } ∧
                  t.nodes[s.loadCur.node] =
                    (if b then { s.nodes[s.loadCur.node] with right := some j }
                      else { s.nodes[s.loadCur.node] with left := some j }) ∧
                  (∀ k : NodeIdx, k ≠ j → k ≠ s.loadCur.node → t.nodes[k] = s.nodes[k]) ∧
                  t = { s with
                    nodes := t.nodes, nodeCount := t.nodeCount,
                    loadCur := { s.loadCur with node := j, len := s.loadCur.len + 1#8 }, pend := donePend s })))))) ∧
    (Inv s → s.treeState = .loading → s.rowOpen = true → s.loadCur.node.val < s.nodeCount.val))

/-- LOAD_ROW_END makes its checks in order, then gives the node reached the row's symbol and closes the row. Formalises R166. -/
def Obligations.LoadRowEndLabelsTheNode : Prop :=
  decode 0x00000023#32 = .command .loadRowEnd ∧
  (∀ s : State, s.err = false →
    (s.treeState ≠ .loading → exec .loadRowEnd s = .next (recorded s 0x23#8 0#8 5#8)) ∧
    (s.treeState = .loading → s.rowOpen = false → exec .loadRowEnd s = .next (recorded s.discardTree 0x23#8 5#8 2#8)) ∧
    (s.treeState = .loading → s.rowOpen = true →
      (s.nodes[s.loadCur.node].sym.isSome = true → exec .loadRowEnd s = .next (recorded s.discardTree 0x23#8 4#8 2#8)) ∧
      (s.nodes[s.loadCur.node].sym = none →
        (s.nodes[s.loadCur.node].left.isSome = true ∨ s.nodes[s.loadCur.node].right.isSome = true →
          exec .loadRowEnd s = .next (recorded s.discardTree 0x23#8 3#8 2#8)) ∧
        (s.nodes[s.loadCur.node].left = none → s.nodes[s.loadCur.node].right = none →
          ∃ t, exec .loadRowEnd s = .next t ∧
            t.nodes[s.loadCur.node] = { s.nodes[s.loadCur.node] with sym := some s.loadCur.sym } ∧
            (∀ k : NodeIdx, k ≠ s.loadCur.node → t.nodes[k] = s.nodes[k]) ∧
            t = { s with
              nodes := t.nodes, leafCount := s.leafCount + 1#9, rowOpen := false, loadCur := ⟨0#8, 0#8, 0⟩, pend := donePend s }))))

/-- LOAD_END makes its checks in order, then a table with no placeholder left becomes the loaded tree. Formalises R168. -/
def Obligations.LoadEndAcceptsCompleteTreesOnly : Prop :=
  decode 0x00000024#32 = .command .loadEnd ∧
  (∀ s : State, s.err = false →
    (s.treeState ≠ .loading → exec .loadEnd s = .next (recorded s 0x24#8 0#8 5#8)) ∧
    (s.treeState = .loading →
      (s.rowOpen = true → exec .loadEnd s = .next (recorded s.discardTree 0x24#8 5#8 2#8)) ∧
      (s.rowOpen = false → s.leafCount = 0#9 → exec .loadEnd s = .next (recorded s.discardTree 0x24#8 11#8 2#8)) ∧
      (s.rowOpen = false → s.leafCount ≠ 0#9 →
        (∃ i : NodeIdx, i.val < s.nodeCount.val ∧ s.nodes[i].sym = none ∧ (s.nodes[i].left = none ∨ s.nodes[i].right = none)) →
        exec .loadEnd s = .next (recorded s.discardTree 0x24#8 10#8 2#8)) ∧
      (s.rowOpen = false → s.leafCount ≠ 0#9 →
        (∀ i : NodeIdx, i.val < s.nodeCount.val → s.nodes[i].sym.isSome = true ∨
          (s.nodes[i].left.isSome = true ∧ s.nodes[i].right.isSome = true)) →
        exec .loadEnd s = .next { s with treeState := .loaded, loadCur := ⟨0#8, 0#8, 0⟩, pend := donePend s })) ∧
    (Inv s → s.treeState = .loading → s.root = 0 ∧
      ∀ t, exec .loadEnd s = .next t → t.treeState = .loaded →
        ∀ i : NodeIdx, i.val < t.nodeCount.val → t.nodes[i].isLeaf = true ∨ t.nodes[i].isInternal = true))

/-- In every state of the invariant no live node has both a symbol and a child. Rests on 43_deserializer.md R164, 43_deserializer.md R167, 10_state.md R42. -/
def Obligations.NoNodeHasBothSymbolAndChild : Prop :=
  ∀ s : State, Inv s → ∀ i : NodeIdx, i.val < s.nodeCount.val → s.nodes[i].sym ≠ none →
    s.nodes[i].left = none ∧ s.nodes[i].right = none

/-- A FORMAT error leaves no tree, and further LOAD commands raise SEQUENCE once the error is cleared. Formalises R170. -/
def Obligations.FormatErrorsEndTheLoad : Prop :=
  ∀ (i : Instr) (s t : State) (c : Byte), i ∈ [Instr.loadSym, .loadChar c, .loadRowEnd, .loadEnd] → s.err = false →
    exec i s = .next t → t.err = true → t.errReg.code = 2#8 →
      t.treeState = .empty ∧ t.nodeCount = 0 ∧ t.leafCount = 0#9 ∧
      ∃ u, exec .errClear t = .next u ∧
        ∀ (j : Instr) (c' : Byte), j ∈ [Instr.loadSym, .loadChar c', .loadRowEnd, .loadEnd] →
          exec j u = .next (recorded u j.opcode 0#8 5#8)

/-- The rows of a code table, loaded back in order, load without error and serialize to the same rows. Rests on 43_deserializer.md R169, 30_encoding.md R92, 30_encoding.md R95, 43_deserializer.md R160. How a WAIT is run is log 1. -/
def Obligations.LoadingASerializedTableRestoresIt : Prop :=
  ∀ s : State, Inv s → s.busy = false → s.inputs = [] → s.err = false → s.ctValid = true →
    ∀ inputs : List Input, Script.Performs inputs (Script.loadTable (tableOf s)) →
      ∃ n t u, core.run n { s with inputs := inputs } = .next t ∧ t.inputs = [] ∧ t.err = false ∧ t.treeState = .loaded ∧ t.leafCount = s.leafCount ∧
      exec .serialize t = .next u ∧ u.rowCount = s.rowCount ∧ u.liveRows = s.liveRows

/-- DEC_BEGIN on a valid tree puts the cursor at the root with no bit pending and clears the outputs. Formalises R191. -/
def Obligations.DecBeginOpensASession : Prop :=
  decode 0x00000040#32 = .command .decBegin ∧
  (∀ s : State, s.err = false →
    (s.treeState ≠ .built → s.treeState ≠ .loaded → exec .decBegin s = .next (recorded s 0x40#8 0#8 5#8)) ∧
    (s.treeState = .built ∨ s.treeState = .loaded →
      exec .decBegin s = .next
        { s with decState := .atRoot, cursor := ⟨s.root, 0#8⟩, decCount := 0#32, decOut := ⟨false, 0#8⟩, pend := donePend s }))

/-- DEC_BIT moves the cursor to the child of its bit, emits at a leaf and raises DEGENERATE where there is no child. Formalises R192. -/
def Obligations.DecBitMovesTheCursor : Prop :=
  decode 0x00000041#32 = .command (.decBit false) ∧ decode 0x00000141#32 = .command (.decBit true) ∧
  (∀ (s : State) (b : Bool), s.err = false →
    (s.decState = .idle → exec (.decBit b) s = .next (recorded s 0x41#8 0#8 5#8)) ∧
    (s.decState ≠ .idle →
      ((if b then s.nodes[s.cursor.node].right else s.nodes[s.cursor.node].left) = none →
        exec (.decBit b) s = .next (recorded { s with decState := .idle } 0x41#8 0#8 4#8)) ∧
      (∀ (j : NodeIdx), (if b then s.nodes[s.cursor.node].right else s.nodes[s.cursor.node].left) = some j →
        (∀ sym, s.nodes[j].sym = some sym →
          exec (.decBit b) s = .next
            { s with
              decOut := ⟨true, sym⟩, decCount := BitVec.ofNat 32 (s.decCount.toNat + 1), cursor := ⟨s.root, 0#8⟩,
              decState := .atRoot, pend := donePend s }) ∧
        (s.nodes[j].sym = none →
          exec (.decBit b) s = .next
            { s with
              decOut := ⟨false, 0#8⟩, cursor := ⟨j, s.cursor.pending + 1#8⟩, decState := .descending, pend := donePend s }))) ∧
    (Inv s → s.decState ≠ .idle →
      (∃ t, exec (.decBit b) s = .next t ∧ t.cursor.pending.toNat ≤ 254) ∧
      ((if b then s.nodes[s.cursor.node].right else s.nodes[s.cursor.node].left) = none → s.nodes[s.root].isLeaf = true)))

/-- On a tree whose root is a leaf, the first DEC_BIT raises DEGENERATE, and a session without bits succeeds. Formalises R194. -/
def Obligations.DegenerateTreesCannotBeDecoded : Prop :=
  ∀ s : State, s.err = false → s.treeState = .built ∨ s.treeState = .loaded → s.nodes[s.root].isLeaf = true →
    ∃ d, exec .decBegin s = .next d ∧
      (∀ b, exec (.decBit b) d = .next (recorded { d with decState := .idle } 0x41#8 0#8 4#8)) ∧
      ∃ e, exec .decEnd d = .next e ∧ e.err = false ∧ e.decState = .idle ∧ e.decCount = 0#32 ∧ e.decOut.valid = false

/-- DEC_END ends the session, and raises TRUNCATED, keeping the cursor, when the session ends inside a code word. Formalises R195. -/
def Obligations.DecEndReportsTruncation : Prop :=
  decode 0x00000042#32 = .command .decEnd ∧
  (∀ s : State, s.err = false →
    (s.decState = .idle → exec .decEnd s = .next (recorded s 0x42#8 0#8 5#8)) ∧
    (s.decState = .atRoot → exec .decEnd s = .next { s with decState := .idle, pend := donePend s }) ∧
    (s.decState = .descending → exec .decEnd s = .next (recorded { s with decState := .idle } 0x42#8 0#8 3#8)) ∧
    (Inv s → s.decState = .descending →
      s.nodes[s.cursor.node].isInternal = true ∧ s.cursor.node ≠ s.root ∧ 1 ≤ s.cursor.pending.toNat))

/-- Decoding the concatenated paths of any symbol sequence gives the sequence back, with no error. Rests on 44_decoder.md R197, 42_serializer_encoder.md R143, 44_decoder.md R196. -/
def Obligations.DecodingAnEncodedSequenceGivesItBack : Prop :=
  ∀ s : State, Inv s → s.err = false → s.ctValid = true → 2 ≤ s.leafCount.toNat →
    ∀ rows : List Row, (∀ r ∈ rows, r ∈ s.liveRows) →
      ∃ d e f, exec .decBegin s = .next d ∧
        decodeBits (rows.map Row.bits).flatten d = some (e, rows.map Row.sym) ∧ e.err = false ∧
        exec .decEnd e = .next f ∧ f.err = false ∧ f.decState = .idle ∧ f.decCount = BitVec.ofNat 32 rows.length

/-- A strict non-empty prefix of a code word emits nothing and ends in TRUNCATED. Rests on 44_decoder.md R198, 44_decoder.md R195. -/
def Obligations.TruncatedCodeWordsAreReported : Prop :=
  ∀ s : State, Inv s → s.err = false → s.ctValid = true →
    ∀ (r : Row) (p q : List Bool), r ∈ s.liveRows → r.bits = p ++ q → p ≠ [] → q ≠ [] →
      ∃ d e, exec .decBegin s = .next d ∧ decodeBits p d = some (e, []) ∧ e.err = false ∧ e.cursor.pending.toNat = p.length ∧
        exec .decEnd e = .next (recorded { e with decState := .idle } 0x42#8 0#8 3#8)

/-- The state after reset satisfies the invariant, with any host accesses to come. Rests on 70_reset_and_hazards.md R250, 10_state.md R45. -/
def Obligations.ResetSatisfiesTheInvariant : Prop :=
  ∀ inputs : List Input, Inv { State.reset with inputs := inputs }

/-- Every step from a state of the invariant leads to a state of the invariant. Rests on 10_state.md R45, 43_deserializer.md, 41_tree_builder.md. -/
def Obligations.EveryStepKeepsTheInvariant : Prop :=
  ∀ s t : State, Inv s → step s = .next t → Inv t

/-- From a state of the invariant every step answers a next state. Rests on 20_memory.md R66, 20_memory.md R74. -/
def Obligations.NoStepStops : Prop :=
  ∀ s : State, Inv s → ∃ t, step s = .next t

/-- The eight invariants of the architectural state hold after every step, for every sequence of host accesses. Formalises R45. -/
def Obligations.StateInvariantsHoldAfterEveryStep : Prop :=
  (∀ s : State, Inv s → SpecR45 s) ∧
  (∀ s t : State, Inv s → step s = .next t → SpecR45 t) ∧
  ∀ (inputs : List Input) (n : Nat) (t : State), core.run n { State.reset with inputs := inputs } = .next t → SpecR45 t

/-- Every step keeps that the nodes the loader made carry the frequency 0xFF_FFFF_FFFF. Rests on 10_state.md R43, 90_conflicts.md C1. -/
def Obligations.LoadedNodesKeepTheSentinelFrequency : Prop :=
  LoadedSentinel State.reset ∧ ∀ s t : State, LoadedSentinel s → step s = .next t → LoadedSentinel t

/-- Every step keeps that each internal node of a built tree carries the sum of its children's frequencies. Rests on 10_state.md R43, 41_tree_builder.md R124. -/
def Obligations.BuiltNodesKeepTheSumOfTheirChildren : Prop :=
  BuiltSums State.reset ∧ ∀ s t : State, BuiltSums s → step s = .next t → BuiltSums t

/-- Two states that differ only in entries no rule reads step to states that differ only in such entries. Rests on 70_reset_and_hazards.md R252, 10_state.md R41, 10_state.md R44. -/
def Obligations.StaleEntriesNeverMatter : Prop :=
  ∀ s s' t : State, Inv s → SameLive s s' → step s = .next t → ∃ t', step s' = .next t' ∧ SameLive t t'

/-- WAIT reads STATUS, while BUSY = 1 and once more after the core's step, and that read, of BUSY = 0, ends it. Rests on 30_encoding.md R92, 70_reset_and_hazards.md R265. The count of reads before the core's step is the model's form of R265's open duration (log 1). -/
def Obligations.WaitEndsOnceTheCommandIsFinished : Prop :=
  ∀ (s : State) (k : Nat) (rest : List Input), s.inputs = .wait k :: rest →
    (s.busy = false →
      step s = .next { s with inputs := rest, reads := s.statusWord :: s.reads } ∧ s.statusWord.getLsbD 0 = false) ∧
    (Inv s → s.busy = true →
      ∃ (polls : List Word) (c : State), polls.length = k ∧ (∀ v ∈ polls, v.getLsbD 0 = true) ∧
        step { s with inputs := [] } = .next c ∧ c.busy = false ∧ c.statusWord.getLsbD 0 = false ∧
        core.run (k + 2) s =
          .next { c with inputs := rest, reads := c.statusWord :: (polls ++ s.reads), draws := s.draws + k })
end

