-- ==== Sys2Proof/Laws/Builder.lean ====
section
/-! SUPPORT. What the priority structure of BUILD does (41_tree_builder.md R122, R123). -/

namespace Sys2Proof.Machine

theorem QEntry.before_iff (a b : QEntry) : a.before b = true ↔ a.f < b.f ∨ (a.f = b.f ∧ a.seq < b.seq) := by
  simp [QEntry.before]

/-- The order of extract_min is transitive against "not before". -/
theorem QEntry.not_before_trans {a b c : QEntry} (hab : b.before a = false) (hbc : c.before b = false) : c.before a = false := by
  have hab : ¬ (b.f < a.f ∨ (b.f = a.f ∧ b.seq < a.seq)) := fun h => by simp [(QEntry.before_iff b a).2 h] at hab
  have hbc : ¬ (c.f < b.f ∨ (c.f = b.f ∧ c.seq < b.seq)) := fun h => by simp [(QEntry.before_iff c b).2 h] at hbc
  rw [← Bool.not_eq_true, QEntry.before_iff]
  simp only [BitVec.lt_def, ← BitVec.toNat_inj] at *
  omega

theorem QEntry.before_asymm {a b : QEntry} (h : a.before b = true) : b.before a = false := by
  rw [QEntry.before_iff] at h
  rw [← Bool.not_eq_true, QEntry.before_iff]
  simp only [BitVec.lt_def, ← BitVec.toNat_inj] at *
  omega

@[simp] theorem QEntry.before_self (a : QEntry) : a.before a = false := by
  rw [← Bool.not_eq_true, QEntry.before_iff]
  simp

theorem leastEntry_mem (m : QEntry) (q : List QEntry) : leastEntry m q ∈ m :: q := by
  induction q generalizing m with
  | nil => simp [leastEntry]
  | cons e q ih =>
    simp only [leastEntry]
    have := ih (if e.before m then e else m)
    split
    · rename_i he
      simp only [he, if_true, List.mem_cons] at this ⊢
      exact .inr this
    · rename_i he
      simp only [he, Bool.false_eq_true, if_false, List.mem_cons] at this ⊢
      exact this.imp id .inr

theorem leastEntry_least (m : QEntry) (q : List QEntry) : ∀ x ∈ m :: q, x.before (leastEntry m q) = false := by
  induction q generalizing m with
  | nil => simp [leastEntry]
  | cons e q ih =>
    intro x hx
    simp only [leastEntry]
    cases he : e.before m with
    | true =>
      simp only [if_true]
      rcases List.mem_cons.1 hx with rfl | hx
      · exact QEntry.not_before_trans (ih e e (by simp)) (QEntry.before_asymm he)
      · exact ih e x hx
    | false =>
      simp only [Bool.false_eq_true, if_false]
      rcases List.mem_cons.1 hx with rfl | hx
      · exact ih x x (by simp)
      · rcases List.mem_cons.1 hx with rfl | hx
        · exact QEntry.not_before_trans (ih m m (by simp)) he
        · exact ih m x (by simp [hx])

/-- extract_min answers an entry of Q, none of Q is before it, and the rest is Q without it. -/
theorem extractMin_spec {q rest : List QEntry} {m : QEntry} (h : extractMin q = some (m, rest)) :
    m ∈ q ∧ (∀ x ∈ q, x.before m = false) ∧ q.Perm (m :: rest) := by
  cases q with
  | nil => simp [extractMin] at h
  | cons e q =>
    simp only [extractMin, Option.some.injEq, Prod.mk.injEq] at h
    obtain ⟨rfl, rfl⟩ := h
    exact ⟨leastEntry_mem e q, leastEntry_least e q, List.perm_cons_erase (leastEntry_mem e q)⟩

theorem extractMin_eq_none_iff (q : List QEntry) : extractMin q = none ↔ q = [] := by
  cases q <;> simp [extractMin]

@[simp] theorem Builder.push_n (b : Builder) (node : Node) : (b.push node).n = b.n + 1 := rfl
@[simp] theorem Builder.push_seq (b : Builder) (node : Node) : (b.push node).seq = b.seq + 1 := rfl
@[simp] theorem Builder.push_queue (b : Builder) (node : Node) :
    (b.push node).queue = ⟨node.nfreq, b.seq, Fin.ofNat 511 b.n⟩ :: b.queue := rfl
@[simp] theorem Builder.push_nodes (b : Builder) (node : Node) :
    (b.push node).nodes = b.nodes.set (Fin.ofNat 511 b.n).val node (Fin.ofNat 511 b.n).isLt := rfl

/-- A merge turn on a Q of two or more: the two least entries leave, their sum enters (R124). -/
theorem Builder.mergeTurn_spec {b : Builder} (h : 1 < b.queue.length) :
    ∃ x y q1 q2, extractMin b.queue = some (x, q1) ∧ extractMin q1 = some (y, q2) ∧
      b.mergeTurn = { b with queue := q2 }.push { left := some x.idx, right := some y.idx, sym := none, nfreq := x.f + y.f } := by
  cases h1 : extractMin b.queue with
  | none => simp [(extractMin_eq_none_iff _).1 h1] at h
  | some p1 =>
    obtain ⟨x, q1⟩ := p1
    have hlen := (extractMin_spec h1).2.2.length_eq
    cases h2 : extractMin q1 with
    | none => simp [(extractMin_eq_none_iff _).1 h2] at hlen; omega
    | some p2 =>
      obtain ⟨y, q2⟩ := p2
      exact ⟨x, y, q1, q2, rfl, h2, by simp [Builder.mergeTurn, h1, h2]⟩

/-- A merge turn lowers the size of Q by one and takes one node. -/
theorem Builder.mergeTurn_length {b : Builder} (h : 1 < b.queue.length) :
    b.mergeTurn.queue.length + 1 = b.queue.length ∧ b.mergeTurn.n = b.n + 1 := by
  obtain ⟨x, y, q1, q2, h1, h2, he⟩ := Builder.mergeTurn_spec h
  have l1 := (extractMin_spec h1).2.2.length_eq
  have l2 := (extractMin_spec h2).2.2.length_eq
  simp only [List.length_cons] at l1 l2
  rw [he]
  simp only [Builder.push_queue, Builder.push_n, List.length_cons, and_true]
  omega

/-- The merge loop with enough fuel leaves at most one entry, having taken one node a turn (R124). -/
theorem Builder.merges_length (fuel : Nat) (b : Builder) (h : b.queue.length ≤ fuel + 1) (h0 : b.queue ≠ []) :
    (Builder.merges fuel b).queue.length = 1 ∧ (Builder.merges fuel b).n + 1 = b.n + b.queue.length := by
  induction fuel generalizing b with
  | zero =>
    have : b.queue.length ≠ 0 := by simpa using h0
    simp only [Builder.merges]
    omega
  | succ fuel ih =>
    have : b.queue.length ≠ 0 := by simpa using h0
    simp only [Builder.merges]
    split
    · rename_i hlt
      have hl := Builder.mergeTurn_length hlt
      have hne : b.mergeTurn.queue ≠ [] := by
        intro hn
        simp [hn] at hl
        omega
      have := ih b.mergeTurn (by omega) hne
      omega
    · omega

end Sys2Proof.Machine
end

