-- ==== Sys2Proof/Laws/State.lean ====
section
/-! SUPPORT. The small lemmas of State: one per field per update, so that no later proof unfolds an update. -/

namespace Sys2Proof.Machine

variable (s : State)

/-! ## complete -/

@[simp] theorem State.complete_data : (s.complete).data = s.data := rfl
@[simp] theorem State.complete_err : (s.complete).err = s.err := rfl
@[simp] theorem State.complete_overrun : (s.complete).overrun = s.overrun := rfl
@[simp] theorem State.complete_ctValid : (s.complete).ctValid = s.ctValid := rfl
@[simp] theorem State.complete_treeState : (s.complete).treeState = s.treeState := rfl
@[simp] theorem State.complete_rowOpen : (s.complete).rowOpen = s.rowOpen := rfl
@[simp] theorem State.complete_decState : (s.complete).decState = s.decState := rfl
@[simp] theorem State.complete_errReg : (s.complete).errReg = s.errReg := rfl
@[simp] theorem State.complete_root : (s.complete).root = s.root := rfl
@[simp] theorem State.complete_leafCount : (s.complete).leafCount = s.leafCount := rfl
@[simp] theorem State.complete_nodeCount : (s.complete).nodeCount = s.nodeCount := rfl
@[simp] theorem State.complete_rowCount : (s.complete).rowCount = s.rowCount := rfl
@[simp] theorem State.complete_resLen : (s.complete).resLen = s.resLen := rfl
@[simp] theorem State.complete_resPath : (s.complete).resPath = s.resPath := rfl
@[simp] theorem State.complete_decOut : (s.complete).decOut = s.decOut := rfl
@[simp] theorem State.complete_decCount : (s.complete).decCount = s.decCount := rfl
@[simp] theorem State.complete_cursor : (s.complete).cursor = s.cursor := rfl
@[simp] theorem State.complete_loadCur : (s.complete).loadCur = s.loadCur := rfl
@[simp] theorem State.complete_pend : (s.complete).pend = { s.pend with valid := false } := rfl
@[simp] theorem State.complete_initPending : (s.complete).initPending = s.initPending := rfl
@[simp] theorem State.complete_freq : (s.complete).freq = s.freq := rfl
@[simp] theorem State.complete_nodes : (s.complete).nodes = s.nodes := rfl
@[simp] theorem State.complete_ct : (s.complete).ct = s.ct := rfl
@[simp] theorem State.complete_inputs : (s.complete).inputs = s.inputs := rfl
@[simp] theorem State.complete_reads : (s.complete).reads = s.reads := rfl
@[simp] theorem State.complete_draws : (s.complete).draws = s.draws := rfl

/-! ## discardTree -/

@[simp] theorem State.discardTree_data : (s.discardTree).data = s.data := rfl
@[simp] theorem State.discardTree_err : (s.discardTree).err = s.err := rfl
@[simp] theorem State.discardTree_overrun : (s.discardTree).overrun = s.overrun := rfl
@[simp] theorem State.discardTree_ctValid : (s.discardTree).ctValid = false := rfl
@[simp] theorem State.discardTree_treeState : (s.discardTree).treeState = .empty := rfl
@[simp] theorem State.discardTree_rowOpen : (s.discardTree).rowOpen = false := rfl
@[simp] theorem State.discardTree_decState : (s.discardTree).decState = .idle := rfl
@[simp] theorem State.discardTree_errReg : (s.discardTree).errReg = s.errReg := rfl
@[simp] theorem State.discardTree_root : (s.discardTree).root = 0 := rfl
@[simp] theorem State.discardTree_leafCount : (s.discardTree).leafCount = 0#9 := rfl
@[simp] theorem State.discardTree_nodeCount : (s.discardTree).nodeCount = 0 := rfl
@[simp] theorem State.discardTree_rowCount : (s.discardTree).rowCount = 0#9 := rfl
@[simp] theorem State.discardTree_resLen : (s.discardTree).resLen = s.resLen := rfl
@[simp] theorem State.discardTree_resPath : (s.discardTree).resPath = s.resPath := rfl
@[simp] theorem State.discardTree_decOut : (s.discardTree).decOut = s.decOut := rfl
@[simp] theorem State.discardTree_decCount : (s.discardTree).decCount = s.decCount := rfl
@[simp] theorem State.discardTree_cursor : (s.discardTree).cursor = s.cursor := rfl
@[simp] theorem State.discardTree_loadCur : (s.discardTree).loadCur = ⟨0#8, 0#8, 0⟩ := rfl
@[simp] theorem State.discardTree_pend : (s.discardTree).pend = s.pend := rfl
@[simp] theorem State.discardTree_initPending : (s.discardTree).initPending = s.initPending := rfl
@[simp] theorem State.discardTree_freq : (s.discardTree).freq = s.freq := rfl
@[simp] theorem State.discardTree_nodes : (s.discardTree).nodes = s.nodes := rfl
@[simp] theorem State.discardTree_ct : (s.discardTree).ct = s.ct := rfl
@[simp] theorem State.discardTree_inputs : (s.discardTree).inputs = s.inputs := rfl
@[simp] theorem State.discardTree_reads : (s.discardTree).reads = s.reads := rfl
@[simp] theorem State.discardTree_draws : (s.discardTree).draws = s.draws := rfl

/-! ## clearError -/

@[simp] theorem State.clearError_data : (s.clearError).data = s.data := rfl
@[simp] theorem State.clearError_err : (s.clearError).err = false := rfl
@[simp] theorem State.clearError_overrun : (s.clearError).overrun = false := rfl
@[simp] theorem State.clearError_ctValid : (s.clearError).ctValid = s.ctValid := rfl
@[simp] theorem State.clearError_treeState : (s.clearError).treeState = s.treeState := rfl
@[simp] theorem State.clearError_rowOpen : (s.clearError).rowOpen = s.rowOpen := rfl
@[simp] theorem State.clearError_decState : (s.clearError).decState = s.decState := rfl
@[simp] theorem State.clearError_errReg : (s.clearError).errReg = ⟨0#8, 0#8, 0#8⟩ := rfl
@[simp] theorem State.clearError_root : (s.clearError).root = s.root := rfl
@[simp] theorem State.clearError_leafCount : (s.clearError).leafCount = s.leafCount := rfl
@[simp] theorem State.clearError_nodeCount : (s.clearError).nodeCount = s.nodeCount := rfl
@[simp] theorem State.clearError_rowCount : (s.clearError).rowCount = s.rowCount := rfl
@[simp] theorem State.clearError_resLen : (s.clearError).resLen = s.resLen := rfl
@[simp] theorem State.clearError_resPath : (s.clearError).resPath = s.resPath := rfl
@[simp] theorem State.clearError_decOut : (s.clearError).decOut = s.decOut := rfl
@[simp] theorem State.clearError_decCount : (s.clearError).decCount = s.decCount := rfl
@[simp] theorem State.clearError_cursor : (s.clearError).cursor = s.cursor := rfl
@[simp] theorem State.clearError_loadCur : (s.clearError).loadCur = s.loadCur := rfl
@[simp] theorem State.clearError_pend : (s.clearError).pend = s.pend := rfl
@[simp] theorem State.clearError_initPending : (s.clearError).initPending = s.initPending := rfl
@[simp] theorem State.clearError_freq : (s.clearError).freq = s.freq := rfl
@[simp] theorem State.clearError_nodes : (s.clearError).nodes = s.nodes := rfl
@[simp] theorem State.clearError_ct : (s.clearError).ct = s.ct := rfl
@[simp] theorem State.clearError_inputs : (s.clearError).inputs = s.inputs := rfl
@[simp] theorem State.clearError_reads : (s.clearError).reads = s.reads := rfl
@[simp] theorem State.clearError_draws : (s.clearError).draws = s.draws := rfl

/-! ## initJob -/

@[simp] theorem State.initJob_data : (s.initJob).data = s.data := rfl
@[simp] theorem State.initJob_err : (s.initJob).err = s.err := rfl
@[simp] theorem State.initJob_overrun : (s.initJob).overrun = s.overrun := rfl
@[simp] theorem State.initJob_ctValid : (s.initJob).ctValid = s.ctValid := rfl
@[simp] theorem State.initJob_treeState : (s.initJob).treeState = s.treeState := rfl
@[simp] theorem State.initJob_rowOpen : (s.initJob).rowOpen = s.rowOpen := rfl
@[simp] theorem State.initJob_decState : (s.initJob).decState = s.decState := rfl
@[simp] theorem State.initJob_errReg : (s.initJob).errReg = s.errReg := rfl
@[simp] theorem State.initJob_root : (s.initJob).root = s.root := rfl
@[simp] theorem State.initJob_leafCount : (s.initJob).leafCount = s.leafCount := rfl
@[simp] theorem State.initJob_nodeCount : (s.initJob).nodeCount = s.nodeCount := rfl
@[simp] theorem State.initJob_rowCount : (s.initJob).rowCount = s.rowCount := rfl
@[simp] theorem State.initJob_resLen : (s.initJob).resLen = s.resLen := rfl
@[simp] theorem State.initJob_resPath : (s.initJob).resPath = s.resPath := rfl
@[simp] theorem State.initJob_decOut : (s.initJob).decOut = s.decOut := rfl
@[simp] theorem State.initJob_decCount : (s.initJob).decCount = s.decCount := rfl
@[simp] theorem State.initJob_cursor : (s.initJob).cursor = s.cursor := rfl
@[simp] theorem State.initJob_loadCur : (s.initJob).loadCur = s.loadCur := rfl
@[simp] theorem State.initJob_pend : (s.initJob).pend = s.pend := rfl
@[simp] theorem State.initJob_initPending : (s.initJob).initPending = false := rfl
@[simp] theorem State.initJob_freq : (s.initJob).freq = [] := rfl
@[simp] theorem State.initJob_nodes : (s.initJob).nodes = s.nodes := rfl
@[simp] theorem State.initJob_ct : (s.initJob).ct = s.ct := rfl
@[simp] theorem State.initJob_inputs : (s.initJob).inputs = s.inputs := rfl
@[simp] theorem State.initJob_reads : (s.initJob).reads = s.reads := rfl
@[simp] theorem State.initJob_draws : (s.initJob).draws = s.draws := rfl

/-! ## setNode -/

@[simp] theorem State.setNode_data (i : NodeIdx) (n : Node) : (s.setNode i n).data = s.data := rfl
@[simp] theorem State.setNode_err (i : NodeIdx) (n : Node) : (s.setNode i n).err = s.err := rfl
@[simp] theorem State.setNode_overrun (i : NodeIdx) (n : Node) : (s.setNode i n).overrun = s.overrun := rfl
@[simp] theorem State.setNode_ctValid (i : NodeIdx) (n : Node) : (s.setNode i n).ctValid = s.ctValid := rfl
@[simp] theorem State.setNode_treeState (i : NodeIdx) (n : Node) : (s.setNode i n).treeState = s.treeState := rfl
@[simp] theorem State.setNode_rowOpen (i : NodeIdx) (n : Node) : (s.setNode i n).rowOpen = s.rowOpen := rfl
@[simp] theorem State.setNode_decState (i : NodeIdx) (n : Node) : (s.setNode i n).decState = s.decState := rfl
@[simp] theorem State.setNode_errReg (i : NodeIdx) (n : Node) : (s.setNode i n).errReg = s.errReg := rfl
@[simp] theorem State.setNode_root (i : NodeIdx) (n : Node) : (s.setNode i n).root = s.root := rfl
@[simp] theorem State.setNode_leafCount (i : NodeIdx) (n : Node) : (s.setNode i n).leafCount = s.leafCount := rfl
@[simp] theorem State.setNode_nodeCount (i : NodeIdx) (n : Node) : (s.setNode i n).nodeCount = s.nodeCount := rfl
@[simp] theorem State.setNode_rowCount (i : NodeIdx) (n : Node) : (s.setNode i n).rowCount = s.rowCount := rfl
@[simp] theorem State.setNode_resLen (i : NodeIdx) (n : Node) : (s.setNode i n).resLen = s.resLen := rfl
@[simp] theorem State.setNode_resPath (i : NodeIdx) (n : Node) : (s.setNode i n).resPath = s.resPath := rfl
@[simp] theorem State.setNode_decOut (i : NodeIdx) (n : Node) : (s.setNode i n).decOut = s.decOut := rfl
@[simp] theorem State.setNode_decCount (i : NodeIdx) (n : Node) : (s.setNode i n).decCount = s.decCount := rfl
@[simp] theorem State.setNode_cursor (i : NodeIdx) (n : Node) : (s.setNode i n).cursor = s.cursor := rfl
@[simp] theorem State.setNode_loadCur (i : NodeIdx) (n : Node) : (s.setNode i n).loadCur = s.loadCur := rfl
@[simp] theorem State.setNode_pend (i : NodeIdx) (n : Node) : (s.setNode i n).pend = s.pend := rfl
@[simp] theorem State.setNode_initPending (i : NodeIdx) (n : Node) : (s.setNode i n).initPending = s.initPending := rfl
@[simp] theorem State.setNode_freq (i : NodeIdx) (n : Node) : (s.setNode i n).freq = s.freq := rfl
@[simp] theorem State.setNode_nodes (i : NodeIdx) (n : Node) : (s.setNode i n).nodes = s.nodes.set i.val n i.isLt := rfl
@[simp] theorem State.setNode_ct (i : NodeIdx) (n : Node) : (s.setNode i n).ct = s.ct := rfl
@[simp] theorem State.setNode_inputs (i : NodeIdx) (n : Node) : (s.setNode i n).inputs = s.inputs := rfl
@[simp] theorem State.setNode_reads (i : NodeIdx) (n : Node) : (s.setNode i n).reads = s.reads := rfl
@[simp] theorem State.setNode_draws (i : NodeIdx) (n : Node) : (s.setNode i n).draws = s.draws := rfl

/-! ## setFreq -/

@[simp] theorem State.setFreq_data (sym : Byte) (v : Word) : (s.setFreq sym v).data = s.data := rfl
@[simp] theorem State.setFreq_err (sym : Byte) (v : Word) : (s.setFreq sym v).err = s.err := rfl
@[simp] theorem State.setFreq_overrun (sym : Byte) (v : Word) : (s.setFreq sym v).overrun = s.overrun := rfl
@[simp] theorem State.setFreq_ctValid (sym : Byte) (v : Word) : (s.setFreq sym v).ctValid = s.ctValid := rfl
@[simp] theorem State.setFreq_treeState (sym : Byte) (v : Word) : (s.setFreq sym v).treeState = s.treeState := rfl
@[simp] theorem State.setFreq_rowOpen (sym : Byte) (v : Word) : (s.setFreq sym v).rowOpen = s.rowOpen := rfl
@[simp] theorem State.setFreq_decState (sym : Byte) (v : Word) : (s.setFreq sym v).decState = s.decState := rfl
@[simp] theorem State.setFreq_errReg (sym : Byte) (v : Word) : (s.setFreq sym v).errReg = s.errReg := rfl
@[simp] theorem State.setFreq_root (sym : Byte) (v : Word) : (s.setFreq sym v).root = s.root := rfl
@[simp] theorem State.setFreq_leafCount (sym : Byte) (v : Word) : (s.setFreq sym v).leafCount = s.leafCount := rfl
@[simp] theorem State.setFreq_nodeCount (sym : Byte) (v : Word) : (s.setFreq sym v).nodeCount = s.nodeCount := rfl
@[simp] theorem State.setFreq_rowCount (sym : Byte) (v : Word) : (s.setFreq sym v).rowCount = s.rowCount := rfl
@[simp] theorem State.setFreq_resLen (sym : Byte) (v : Word) : (s.setFreq sym v).resLen = s.resLen := rfl
@[simp] theorem State.setFreq_resPath (sym : Byte) (v : Word) : (s.setFreq sym v).resPath = s.resPath := rfl
@[simp] theorem State.setFreq_decOut (sym : Byte) (v : Word) : (s.setFreq sym v).decOut = s.decOut := rfl
@[simp] theorem State.setFreq_decCount (sym : Byte) (v : Word) : (s.setFreq sym v).decCount = s.decCount := rfl
@[simp] theorem State.setFreq_cursor (sym : Byte) (v : Word) : (s.setFreq sym v).cursor = s.cursor := rfl
@[simp] theorem State.setFreq_loadCur (sym : Byte) (v : Word) : (s.setFreq sym v).loadCur = s.loadCur := rfl
@[simp] theorem State.setFreq_pend (sym : Byte) (v : Word) : (s.setFreq sym v).pend = s.pend := rfl
@[simp] theorem State.setFreq_initPending (sym : Byte) (v : Word) : (s.setFreq sym v).initPending = s.initPending := rfl
@[simp] theorem State.setFreq_freq (sym : Byte) (v : Word) : (s.setFreq sym v).freq = s.freq.write sym.toNat v := rfl
@[simp] theorem State.setFreq_nodes (sym : Byte) (v : Word) : (s.setFreq sym v).nodes = s.nodes := rfl
@[simp] theorem State.setFreq_ct (sym : Byte) (v : Word) : (s.setFreq sym v).ct = s.ct := rfl
@[simp] theorem State.setFreq_inputs (sym : Byte) (v : Word) : (s.setFreq sym v).inputs = s.inputs := rfl
@[simp] theorem State.setFreq_reads (sym : Byte) (v : Word) : (s.setFreq sym v).reads = s.reads := rfl
@[simp] theorem State.setFreq_draws (sym : Byte) (v : Word) : (s.setFreq sym v).draws = s.draws := rfl

/-! ## hardwareReset -/

@[simp] theorem State.hardwareReset_data : (s.hardwareReset).data = State.reset.data := rfl
@[simp] theorem State.hardwareReset_err : (s.hardwareReset).err = State.reset.err := rfl
@[simp] theorem State.hardwareReset_overrun : (s.hardwareReset).overrun = State.reset.overrun := rfl
@[simp] theorem State.hardwareReset_ctValid : (s.hardwareReset).ctValid = State.reset.ctValid := rfl
@[simp] theorem State.hardwareReset_treeState : (s.hardwareReset).treeState = State.reset.treeState := rfl
@[simp] theorem State.hardwareReset_rowOpen : (s.hardwareReset).rowOpen = State.reset.rowOpen := rfl
@[simp] theorem State.hardwareReset_decState : (s.hardwareReset).decState = State.reset.decState := rfl
@[simp] theorem State.hardwareReset_errReg : (s.hardwareReset).errReg = State.reset.errReg := rfl
@[simp] theorem State.hardwareReset_root : (s.hardwareReset).root = State.reset.root := rfl
@[simp] theorem State.hardwareReset_leafCount : (s.hardwareReset).leafCount = State.reset.leafCount := rfl
@[simp] theorem State.hardwareReset_nodeCount : (s.hardwareReset).nodeCount = State.reset.nodeCount := rfl
@[simp] theorem State.hardwareReset_rowCount : (s.hardwareReset).rowCount = State.reset.rowCount := rfl
@[simp] theorem State.hardwareReset_resLen : (s.hardwareReset).resLen = State.reset.resLen := rfl
@[simp] theorem State.hardwareReset_resPath : (s.hardwareReset).resPath = State.reset.resPath := rfl
@[simp] theorem State.hardwareReset_decOut : (s.hardwareReset).decOut = State.reset.decOut := rfl
@[simp] theorem State.hardwareReset_decCount : (s.hardwareReset).decCount = State.reset.decCount := rfl
@[simp] theorem State.hardwareReset_cursor : (s.hardwareReset).cursor = State.reset.cursor := rfl
@[simp] theorem State.hardwareReset_loadCur : (s.hardwareReset).loadCur = State.reset.loadCur := rfl
@[simp] theorem State.hardwareReset_pend : (s.hardwareReset).pend = State.reset.pend := rfl
@[simp] theorem State.hardwareReset_initPending : (s.hardwareReset).initPending = State.reset.initPending := rfl
@[simp] theorem State.hardwareReset_freq : (s.hardwareReset).freq = State.reset.freq := rfl
@[simp] theorem State.hardwareReset_nodes : (s.hardwareReset).nodes = State.reset.nodes := rfl
@[simp] theorem State.hardwareReset_ct : (s.hardwareReset).ct = State.reset.ct := rfl
@[simp] theorem State.hardwareReset_inputs : (s.hardwareReset).inputs = s.inputs := rfl
@[simp] theorem State.hardwareReset_reads : (s.hardwareReset).reads = s.reads := rfl
@[simp] theorem State.hardwareReset_draws : (s.hardwareReset).draws = s.draws := rfl

/-! ## softReset -/

@[simp] theorem State.softReset_data : (s.softReset).data = State.reset.data := rfl
@[simp] theorem State.softReset_err : (s.softReset).err = State.reset.err := rfl
@[simp] theorem State.softReset_overrun : (s.softReset).overrun = State.reset.overrun := rfl
@[simp] theorem State.softReset_ctValid : (s.softReset).ctValid = State.reset.ctValid := rfl
@[simp] theorem State.softReset_treeState : (s.softReset).treeState = State.reset.treeState := rfl
@[simp] theorem State.softReset_rowOpen : (s.softReset).rowOpen = State.reset.rowOpen := rfl
@[simp] theorem State.softReset_decState : (s.softReset).decState = State.reset.decState := rfl
@[simp] theorem State.softReset_errReg : (s.softReset).errReg = State.reset.errReg := rfl
@[simp] theorem State.softReset_root : (s.softReset).root = State.reset.root := rfl
@[simp] theorem State.softReset_leafCount : (s.softReset).leafCount = State.reset.leafCount := rfl
@[simp] theorem State.softReset_nodeCount : (s.softReset).nodeCount = State.reset.nodeCount := rfl
@[simp] theorem State.softReset_rowCount : (s.softReset).rowCount = State.reset.rowCount := rfl
@[simp] theorem State.softReset_resLen : (s.softReset).resLen = State.reset.resLen := rfl
@[simp] theorem State.softReset_resPath : (s.softReset).resPath = State.reset.resPath := rfl
@[simp] theorem State.softReset_decOut : (s.softReset).decOut = State.reset.decOut := rfl
@[simp] theorem State.softReset_decCount : (s.softReset).decCount = State.reset.decCount := rfl
@[simp] theorem State.softReset_cursor : (s.softReset).cursor = State.reset.cursor := rfl
@[simp] theorem State.softReset_loadCur : (s.softReset).loadCur = State.reset.loadCur := rfl
@[simp] theorem State.softReset_pend : (s.softReset).pend = State.reset.pend := rfl
@[simp] theorem State.softReset_initPending : (s.softReset).initPending = false := rfl
@[simp] theorem State.softReset_freq : (s.softReset).freq = [] := rfl
@[simp] theorem State.softReset_nodes : (s.softReset).nodes = State.reset.nodes := rfl
@[simp] theorem State.softReset_ct : (s.softReset).ct = State.reset.ct := rfl
@[simp] theorem State.softReset_inputs : (s.softReset).inputs = s.inputs := rfl
@[simp] theorem State.softReset_reads : (s.softReset).reads = s.reads := rfl
@[simp] theorem State.softReset_draws : (s.softReset).draws = s.draws := rfl

/-! ## recordError and raise -/

theorem State.recordError_of_clear (h : s.err = false) (op : Byte) (e : ErrorKind) :
    s.recordError op e = { s with errReg := ⟨op, e.sub, e.code⟩, err := true } := by
  simp [State.recordError, h]

theorem State.recordError_of_set (h : s.err = true) (op : Byte) (e : ErrorKind) : s.recordError op e = s := by
  simp [State.recordError, h]

@[simp] theorem State.recordError_data (op : Byte) (e : ErrorKind) : (s.recordError op e).data = s.data := by
  unfold State.recordError; split <;> rfl
@[simp] theorem State.recordError_overrun (op : Byte) (e : ErrorKind) : (s.recordError op e).overrun = s.overrun := by
  unfold State.recordError; split <;> rfl
@[simp] theorem State.recordError_ctValid (op : Byte) (e : ErrorKind) : (s.recordError op e).ctValid = s.ctValid := by
  unfold State.recordError; split <;> rfl
@[simp] theorem State.recordError_treeState (op : Byte) (e : ErrorKind) : (s.recordError op e).treeState = s.treeState := by
  unfold State.recordError; split <;> rfl
@[simp] theorem State.recordError_rowOpen (op : Byte) (e : ErrorKind) : (s.recordError op e).rowOpen = s.rowOpen := by
  unfold State.recordError; split <;> rfl
@[simp] theorem State.recordError_decState (op : Byte) (e : ErrorKind) : (s.recordError op e).decState = s.decState := by
  unfold State.recordError; split <;> rfl
@[simp] theorem State.recordError_root (op : Byte) (e : ErrorKind) : (s.recordError op e).root = s.root := by
  unfold State.recordError; split <;> rfl
@[simp] theorem State.recordError_leafCount (op : Byte) (e : ErrorKind) : (s.recordError op e).leafCount = s.leafCount := by
  unfold State.recordError; split <;> rfl
@[simp] theorem State.recordError_nodeCount (op : Byte) (e : ErrorKind) : (s.recordError op e).nodeCount = s.nodeCount := by
  unfold State.recordError; split <;> rfl
@[simp] theorem State.recordError_rowCount (op : Byte) (e : ErrorKind) : (s.recordError op e).rowCount = s.rowCount := by
  unfold State.recordError; split <;> rfl
@[simp] theorem State.recordError_resLen (op : Byte) (e : ErrorKind) : (s.recordError op e).resLen = s.resLen := by
  unfold State.recordError; split <;> rfl
@[simp] theorem State.recordError_resPath (op : Byte) (e : ErrorKind) : (s.recordError op e).resPath = s.resPath := by
  unfold State.recordError; split <;> rfl
@[simp] theorem State.recordError_decOut (op : Byte) (e : ErrorKind) : (s.recordError op e).decOut = s.decOut := by
  unfold State.recordError; split <;> rfl
@[simp] theorem State.recordError_decCount (op : Byte) (e : ErrorKind) : (s.recordError op e).decCount = s.decCount := by
  unfold State.recordError; split <;> rfl
@[simp] theorem State.recordError_cursor (op : Byte) (e : ErrorKind) : (s.recordError op e).cursor = s.cursor := by
  unfold State.recordError; split <;> rfl
@[simp] theorem State.recordError_loadCur (op : Byte) (e : ErrorKind) : (s.recordError op e).loadCur = s.loadCur := by
  unfold State.recordError; split <;> rfl
@[simp] theorem State.recordError_pend (op : Byte) (e : ErrorKind) : (s.recordError op e).pend = s.pend := by
  unfold State.recordError; split <;> rfl
@[simp] theorem State.recordError_initPending (op : Byte) (e : ErrorKind) : (s.recordError op e).initPending = s.initPending := by
  unfold State.recordError; split <;> rfl
@[simp] theorem State.recordError_freq (op : Byte) (e : ErrorKind) : (s.recordError op e).freq = s.freq := by
  unfold State.recordError; split <;> rfl
@[simp] theorem State.recordError_nodes (op : Byte) (e : ErrorKind) : (s.recordError op e).nodes = s.nodes := by
  unfold State.recordError; split <;> rfl
@[simp] theorem State.recordError_ct (op : Byte) (e : ErrorKind) : (s.recordError op e).ct = s.ct := by
  unfold State.recordError; split <;> rfl
@[simp] theorem State.recordError_inputs (op : Byte) (e : ErrorKind) : (s.recordError op e).inputs = s.inputs := by
  unfold State.recordError; split <;> rfl
@[simp] theorem State.recordError_reads (op : Byte) (e : ErrorKind) : (s.recordError op e).reads = s.reads := by
  unfold State.recordError; split <;> rfl
@[simp] theorem State.recordError_draws (op : Byte) (e : ErrorKind) : (s.recordError op e).draws = s.draws := by
  unfold State.recordError; split <;> rfl

@[simp] theorem State.raise_data (op : Byte) (e : ErrorKind) : (s.raise op e).data = s.data := by
  unfold State.raise State.errorEffect; cases e <;> simp
@[simp] theorem State.raise_overrun (op : Byte) (e : ErrorKind) : (s.raise op e).overrun = s.overrun := by
  unfold State.raise State.errorEffect; cases e <;> simp
@[simp] theorem State.raise_resLen (op : Byte) (e : ErrorKind) : (s.raise op e).resLen = s.resLen := by
  unfold State.raise State.errorEffect; cases e <;> simp
@[simp] theorem State.raise_resPath (op : Byte) (e : ErrorKind) : (s.raise op e).resPath = s.resPath := by
  unfold State.raise State.errorEffect; cases e <;> simp
@[simp] theorem State.raise_decOut (op : Byte) (e : ErrorKind) : (s.raise op e).decOut = s.decOut := by
  unfold State.raise State.errorEffect; cases e <;> simp
@[simp] theorem State.raise_decCount (op : Byte) (e : ErrorKind) : (s.raise op e).decCount = s.decCount := by
  unfold State.raise State.errorEffect; cases e <;> simp
@[simp] theorem State.raise_cursor (op : Byte) (e : ErrorKind) : (s.raise op e).cursor = s.cursor := by
  unfold State.raise State.errorEffect; cases e <;> simp
@[simp] theorem State.raise_pend (op : Byte) (e : ErrorKind) : (s.raise op e).pend = s.pend := by
  unfold State.raise State.errorEffect; cases e <;> simp
@[simp] theorem State.raise_initPending (op : Byte) (e : ErrorKind) : (s.raise op e).initPending = s.initPending := by
  unfold State.raise State.errorEffect; cases e <;> simp
@[simp] theorem State.raise_freq (op : Byte) (e : ErrorKind) : (s.raise op e).freq = s.freq := by
  unfold State.raise State.errorEffect; cases e <;> simp
@[simp] theorem State.raise_nodes (op : Byte) (e : ErrorKind) : (s.raise op e).nodes = s.nodes := by
  unfold State.raise State.errorEffect; cases e <;> simp
@[simp] theorem State.raise_ct (op : Byte) (e : ErrorKind) : (s.raise op e).ct = s.ct := by
  unfold State.raise State.errorEffect; cases e <;> simp
@[simp] theorem State.raise_inputs (op : Byte) (e : ErrorKind) : (s.raise op e).inputs = s.inputs := by
  unfold State.raise State.errorEffect; cases e <;> simp
@[simp] theorem State.raise_reads (op : Byte) (e : ErrorKind) : (s.raise op e).reads = s.reads := by
  unfold State.raise State.errorEffect; cases e <;> simp
@[simp] theorem State.raise_draws (op : Byte) (e : ErrorKind) : (s.raise op e).draws = s.draws := by
  unfold State.raise State.errorEffect; cases e <;> simp

@[simp] theorem State.raise_err (op : Byte) (e : ErrorKind) : (s.raise op e).err = true := by
  cases h : s.err <;> cases e <;> simp [State.raise, State.errorEffect, State.recordError, h]

theorem State.raise_errReg (h : s.err = false) (op : Byte) (e : ErrorKind) : (s.raise op e).errReg = ⟨op, e.sub, e.code⟩ := by
  cases e <;> simp [State.raise, State.errorEffect, State.recordError, h]

end Sys2Proof.Machine
end

