-- ==== Sys2Proof/Laws/Encoder.lean ====
section
/-! SUPPORT. What packing, the code table's writes and the serializer's walk do (20_memory.md R65, 42_serializer_encoder.md R140). -/

namespace Sys2Proof.Machine

/-- Bit i of a packed path is its i-th descent, and 0 past its end. -/
theorem pack_getLsbD (p : List Bool) (i : Nat) (h : i < 256) : (pack p).getLsbD i = (p[i]?).getD false := by
  induction p generalizing i with
  | nil => simp [pack]
  | cons b p ih =>
    cases i with
    | zero => cases b <;> simp [pack]
    | succ i =>
      have hb : (if b then 1#256 else 0#256).getLsbD (i + 1) = false := by cases b <;> simp
      rw [pack, BitVec.getLsbD_or, hb, BitVec.getLsbD_shiftLeft, Bool.or_false]
      simpa [h] using ih i (by omega)

theorem writeRows_get (rows : List Row) (ct : Vector Row 256) (i : Fin 256) :
    (writeRows rows ct)[i] = (rows[i.val]?).getD ct[i] := by
  simp [writeRows]

/-- Rows written are the live rows, when as many are live as were written. -/
theorem take_writeRows (rows : List Row) (ct : Vector Row 256) (h : rows.length ≤ 256) :
    (writeRows rows ct).toList.take rows.length = rows := by
  apply List.ext_getElem
  · simpa using h
  · intro i h1 h2
    have h3 : i < 256 := by omega
    have := writeRows_get rows ct ⟨i, h3⟩
    simp only [Fin.getElem_fin] at this
    simp [this, h2]

theorem Row.ofPath_bits (sym : Byte) (p : List Bool) (h : p.length < 256) : (Row.ofPath sym p).bits = p := by
  unfold Row.bits Row.ofPath
  apply List.ext_getElem
  · simp; omega
  · intro i h1 h2
    simp only [List.getElem_map, List.getElem_range]
    rw [pack_getLsbD p i (by omega)]
    simp [h2]

/-- SERIALIZE's rule answers a next state exactly where its walk ends with at most 256 rows. -/
theorem serializeTree_next {s t : State} (h : serializeTree s = .next t) :
    ∃ rows, visit s.nodes Config.maxPath s.root [] = some rows ∧ rows.length ≤ 256 ∧
      t = { s with ct := writeRows rows s.ct, rowCount := BitVec.ofNat 9 rows.length, ctValid := true } := by
  unfold serializeTree at h
  split at h
  · simp at h
  · rename_i rows hv
    split at h
    · rename_i hl
      simp only [Host.Outcome.next.injEq] at h
      exact ⟨rows, hv, hl, h.symm⟩
    · simp at h

theorem serializeTree_of_visit {s : State} {rows : List Row} (hv : visit s.nodes Config.maxPath s.root [] = some rows)
    (hl : rows.length ≤ 256) :
    serializeTree s = .next { s with ct := writeRows rows s.ct, rowCount := BitVec.ofNat 9 rows.length, ctValid := true } := by
  simp [serializeTree, hv, hl]

/-- ENCODE's rule where the symbol has a row. -/
theorem encodeSymbol_found {s : State} {sym : Byte} {r : Row} (h : s.liveRows.find? (fun r => r.sym == sym) = some r) :
    encodeSymbol sym s = { s with resLen := r.len, resPath := r.path } := by
  simp [encodeSymbol, h]

/-- ENCODE's rule where it has none. -/
theorem encodeSymbol_absent {s : State} {sym : Byte} (h : s.liveRows.find? (fun r => r.sym == sym) = none) :
    encodeSymbol sym s = s.raise 0x30#8 .symbolAbsent := by
  simp [encodeSymbol, h, Instr.opcode]

end Sys2Proof.Machine
end

