-- ==== Sys2Proof/Laws/Ops.lean ====
section
/-! SUPPORT. What the shared operations do, said once: FREQ storage, the arena, an error, the dispatch of a command. -/

namespace Sys2Proof.Machine

/-! ## FREQ storage -/

theorem Memory.wfFrom_weaken {m : Memory} {lo lo' : Nat} (h : lo' ≤ lo) (hm : m.wfFrom lo = true) : m.wfFrom lo' = true := by
  cases m with
  | nil => rfl
  | cons c m =>
    simp only [Memory.wfFrom, Bool.and_eq_true, decide_eq_true_eq] at hm ⊢
    exact ⟨⟨⟨by omega, hm.1.1.2⟩, hm.1.2⟩, hm.2⟩

/-- A symbol below every listed one reads 0. -/
theorem Memory.read_below {m : Memory} {lo k : Nat} (hm : m.wfFrom lo = true) (hk : k < lo) : m.read k = 0#32 := by
  induction m generalizing lo with
  | nil => rfl
  | cons c m ih =>
    simp only [Memory.wfFrom, Bool.and_eq_true, decide_eq_true_eq] at hm
    have hne : k ≠ c.1 := by omega
    simp only [Memory.read, if_neg hne]
    exact ih hm.2 (by omega)

/-- A write changes no other symbol, in any memory. -/
theorem Memory.read_write_other (m : Memory) {k k' : Nat} (v : Word) (h : k' ≠ k) : (m.write k v).read k' = m.read k' := by
  induction m with
  | nil =>
    simp only [Memory.write]
    split <;> simp [Memory.read, h]
  | cons c m ih =>
    simp only [Memory.write]
    split
    · split <;> simp [Memory.read, h]
    · split
      · rename_i hk
        subst hk
        split <;> simp [Memory.read, h]
      · simp only [Memory.read, ih]

/-- A write is read back, in a canonical memory. -/
theorem Memory.read_write_same {m : Memory} {lo k : Nat} (hm : m.wfFrom lo = true) (v : Word) : (m.write k v).read k = v := by
  induction m generalizing lo with
  | nil =>
    simp only [Memory.write]
    split <;> simp_all [Memory.read]
  | cons c m ih =>
    have hw := hm
    simp only [Memory.wfFrom, Bool.and_eq_true, decide_eq_true_eq] at hm
    simp only [Memory.write]
    split
    · rename_i hlt
      split
      · rename_i hv
        subst hv
        have hne : k ≠ c.1 := by omega
        simp only [Memory.read, if_neg hne]
        exact Memory.read_below hm.2 (by omega)
      · simp [Memory.read]
    · split
      · rename_i hk
        split
        · rename_i hv
          subst hv
          exact Memory.read_below hm.2 (by omega)
        · simp [Memory.read]
      · rename_i hk
        simp only [Memory.read, if_neg hk]
        exact ih hm.2

/-- A write keeps the canonical form. -/
theorem Memory.write_wfFrom {m : Memory} {lo k : Nat} (hm : m.wfFrom lo = true) (hlo : lo ≤ k) (hk : k < 256) (v : Word) :
    (m.write k v).wfFrom lo = true := by
  induction m generalizing lo with
  | nil =>
    simp only [Memory.write]
    split <;> simp_all [Memory.wfFrom]
  | cons c m ih =>
    have hw := hm
    simp only [Memory.wfFrom, Bool.and_eq_true, decide_eq_true_eq, Bool.not_eq_true', decide_eq_false_iff_not] at hm
    simp only [Memory.write]
    split
    · split
      · exact hw
      · simp only [Memory.wfFrom, Bool.and_eq_true, decide_eq_true_eq, Bool.not_eq_true', decide_eq_false_iff_not]
        exact ⟨⟨⟨hlo, hk⟩, by assumption⟩, ⟨⟨by omega, hm.1.1.2⟩, hm.1.2⟩, hm.2⟩
    · split
      · rename_i hkc
        split
        · exact Memory.wfFrom_weaken (by omega) hm.2
        · simp only [Memory.wfFrom, Bool.and_eq_true, decide_eq_true_eq, Bool.not_eq_true', decide_eq_false_iff_not]
          exact ⟨⟨⟨hlo, hk⟩, by assumption⟩, hkc ▸ hm.2⟩
      · simp only [Memory.wfFrom, Bool.and_eq_true, decide_eq_true_eq, Bool.not_eq_true', decide_eq_false_iff_not]
        exact ⟨hm.1, ih hm.2 (by omega)⟩

/-- Every write of a symbol keeps FREQ canonical. -/
theorem State.setFreq_wf {s : State} (h : s.freq.wf = true) (sym : Byte) (v : Word) : (s.setFreq sym v).freq.wf = true :=
  Memory.write_wfFrom h (Nat.zero_le _) sym.isLt v

theorem State.freqAt_setFreq_same {s : State} (h : s.freq.wf = true) (sym : Byte) (v : Word) :
    (s.setFreq sym v).freqAt sym = v :=
  Memory.read_write_same h v

theorem State.freqAt_setFreq_other (s : State) {sym sym' : Byte} (h : sym' ≠ sym) (v : Word) :
    (s.setFreq sym v).freqAt sym' = s.freqAt sym' :=
  Memory.read_write_other _ v (fun e => h (BitVec.eq_of_toNat_eq e))

@[simp] theorem Memory.read_nil (k : Nat) : Memory.read [] k = 0#32 := rfl

@[simp] theorem Memory.wf_nil : Memory.wf [] = true := rfl

theorem State.reset_freq_wf : State.reset.freq.wf = true := rfl

/-! ## The arena -/

@[simp] theorem State.setNode_get_same (s : State) (i : NodeIdx) (n : Node) : (s.setNode i n).nodes[i] = n := by
  simp [State.setNode]

theorem State.setNode_get_other (s : State) {i j : NodeIdx} (h : i ≠ j) (n : Node) : (s.setNode i n).nodes[j] = s.nodes[j] := by
  have h' : i.val ≠ j.val := fun e => h (Fin.ext e)
  simp [State.setNode, h']

/-- alloc answers only where there is room, and then with the index NODE_COUNT. -/
theorem State.alloc_spec {s s' : State} {j : NodeIdx} (h : s.alloc = some (j, s')) :
    j.val = s.nodeCount.val ∧ s'.nodeCount.val = s.nodeCount.val + 1 ∧
      s' = { s.setNode j Node.empty with nodeCount := s'.nodeCount } := by
  unfold State.alloc at h
  split at h
  · simp only [Option.some.injEq, Prod.mk.injEq] at h
    obtain ⟨rfl, rfl⟩ := h
    exact ⟨rfl, rfl, rfl⟩
  · simp at h

theorem State.alloc_eq_none_iff (s : State) : s.alloc = none ↔ s.nodeCount.val = 511 := by
  have := s.nodeCount.isLt
  unfold State.alloc
  split <;> simp <;> omega

/-- alloc moves no field but NODE and NODE_COUNT. -/
theorem State.alloc_frame {s s' : State} {j : NodeIdx} (h : s.alloc = some (j, s')) :
    s' = { s with nodes := s.nodes.set j.val Node.empty j.isLt, nodeCount := s'.nodeCount } := (State.alloc_spec h).2.2

/-- setChild moves no field but NODE. -/
theorem State.setChild_frame (s : State) (i : NodeIdx) (b : Bool) (j : NodeIdx) :
    s.setChild i b j = { s with nodes := (s.setChild i b j).nodes } := by
  unfold State.setChild
  split <;> rfl

theorem State.setChild_get_same (s : State) (i : NodeIdx) (b : Bool) (j : NodeIdx) :
    (s.setChild i b j).nodes[i] =
      if b then { s.nodes[i] with right := some j } else { s.nodes[i] with left := some j } := by
  unfold State.setChild
  split <;> simp [State.setNode]

theorem State.setChild_get_other (s : State) {i k : NodeIdx} (h : i ≠ k) (b : Bool) (j : NodeIdx) :
    (s.setChild i b j).nodes[k] = s.nodes[k] := by
  unfold State.setChild
  split <;> exact State.setNode_get_other s h _

theorem State.mem_liveNodes {s : State} {n : Node} :
    n ∈ s.liveNodes ↔ ∃ i : NodeIdx, i.val < s.nodeCount.val ∧ s.nodes[i] = n := by
  unfold State.liveNodes
  rw [List.mem_take_iff_getElem]
  constructor
  · rintro ⟨i, hi, rfl⟩
    have h1 : i < s.nodeCount.val := by omega
    have h2 : i < 511 := by simp at hi; omega
    exact ⟨⟨i, h2⟩, h1, by simp⟩
  · rintro ⟨i, hi, rfl⟩
    exact ⟨i.val, by have := i.isLt; simp; omega, by simp⟩

/-! ## An error -/

/-- Raising an error where none is recorded: the record, then the effect. -/
theorem State.raise_of_clear {s : State} (h : s.err = false) (op : Byte) (e : ErrorKind) :
    s.raise op e = ({ s with errReg := ⟨op, e.sub, e.code⟩, err := true } : State).errorEffect e := by
  rw [State.raise, State.recordError_of_clear s h]

theorem State.raise_sequence {s : State} (h : s.err = false) (op : Byte) :
    s.raise op .sequence = { s with errReg := ⟨op, 0#8, 5#8⟩, err := true } := State.raise_of_clear h op _

theorem State.raise_symbolAbsent {s : State} (h : s.err = false) (op : Byte) :
    s.raise op .symbolAbsent = { s with errReg := ⟨op, 0#8, 6#8⟩, err := true } := State.raise_of_clear h op _

theorem State.raise_truncated {s : State} (h : s.err = false) (op : Byte) :
    s.raise op .truncated = { s with errReg := ⟨op, 0#8, 3#8⟩, err := true } := State.raise_of_clear h op _

theorem State.raise_degenerate {s : State} (h : s.err = false) (op : Byte) :
    s.raise op .degenerate = { s with errReg := ⟨op, 0#8, 4#8⟩, err := true } := State.raise_of_clear h op _

theorem State.raise_illegalCmd {s : State} (h : s.err = false) (op : Byte) (why : Illegal) :
    s.raise op (.illegalCmd why) = { s with errReg := ⟨op, (ErrorKind.illegalCmd why).sub, 7#8⟩, err := true } :=
  State.raise_of_clear h op _

theorem State.raise_format {s : State} (h : s.err = false) (op : Byte) (sub : FormatSub) :
    s.raise op (.format sub) = { s.discardTree with errReg := ⟨op, sub.code, 2#8⟩, err := true } := State.raise_of_clear h op _

theorem State.raise_construction {s : State} (h : s.err = false) (op : Byte) :
    s.raise op .construction = { s.discardTree with errReg := ⟨op, 0#8, 1#8⟩, err := true } := State.raise_of_clear h op _

@[simp] theorem State.discardTree_idem (s : State) : s.discardTree.discardTree = s.discardTree := rfl

/-! ## The dispatch of a command -/

/-- Everything a dispatched command can do when it answers a next state (R226). -/
theorem runCommand_cases {i : Instr} {body : State → Host.Outcome State Fault Refusal} {s t : State}
    (h : runCommand i body s = .next t) :
    (s.err = true ∧ t = s.complete) ∨
    (s.err = false ∧ allowed i s = true ∧ ∃ u, body s = .next u ∧ t = u.complete) ∨
    (s.err = false ∧ allowed i s = false ∧ t = (s.raise i.opcode .sequence).complete) := by
  unfold runCommand at h
  cases he : s.err
  · cases ha : allowed i s
    · simp only [he, ha, Bool.false_eq_true, if_false, Host.Outcome.next.injEq] at h
      exact .inr (.inr ⟨rfl, rfl, h.symm⟩)
    · simp only [he, ha, Bool.false_eq_true, if_false, if_true] at h
      cases hb : body s with
      | next u =>
        simp only [hb, finish, Host.Outcome.next.injEq] at h
        exact .inr (.inl ⟨rfl, rfl, u, rfl, h.symm⟩)
      | fault r => simp [hb, finish] at h
      | refused r => simp [hb, finish] at h
  · simp only [he, if_true, Host.Outcome.next.injEq] at h
    exact .inl ⟨rfl, h.symm⟩

theorem runCommand_discard {i : Instr} {s : State} (body : State → Host.Outcome State Fault Refusal) (h : s.err = true) :
    runCommand i body s = .next s.complete := by
  simp [runCommand, h]

theorem runCommand_sequence {i : Instr} {s : State} (body : State → Host.Outcome State Fault Refusal) (h : s.err = false)
    (ha : allowed i s = false) : runCommand i body s = .next (s.raise i.opcode .sequence).complete := by
  simp [runCommand, h, ha]

theorem runCommand_run {i : Instr} {s u : State} {body : State → Host.Outcome State Fault Refusal} (h : s.err = false)
    (ha : allowed i s = true) (hb : body s = .next u) : runCommand i body s = .next u.complete := by
  simp [runCommand, h, ha, hb, finish]

@[simp] theorem State.busy_complete (s : State) : s.complete.busy = s.initPending := by
  simp [State.busy]

@[simp] theorem finish_next (s : State) : finish (.next s) = .next s.complete := rfl

end Sys2Proof.Machine
end

