-- ==== Sys2Proof/Laws/Loader.lean ====
section
/-! SUPPORT. What the loader's shared operation does (43_deserializer.md R163). -/

namespace Sys2Proof.Machine

/-- Descending answers the child that is there, moving nothing, or a node made at NODE_COUNT. -/
theorem State.descendOrMake_cases {s s' : State} {i j : NodeIdx} {b : Bool} (h : s.descendOrMake i b = some (j, s')) :
    (s.nodes[i].child b = some j ∧ s' = s) ∨
    (s.nodes[i].child b = none ∧ ∃ u, s.alloc = some (j, u) ∧ s' = u.setChild i b j) := by
  unfold State.descendOrMake at h
  split at h
  · rename_i k hk
    simp only [Option.some.injEq, Prod.mk.injEq] at h
    obtain ⟨rfl, rfl⟩ := h
    exact .inl ⟨hk, rfl⟩
  · rename_i hk
    split at h
    · simp at h
    · rename_i k u hu
      simp only [Option.some.injEq, Prod.mk.injEq] at h
      obtain ⟨rfl, rfl⟩ := h
      exact .inr ⟨hk, u, hu, rfl⟩

/-- Descending is refused only where the child is absent and all 511 nodes are in use (R165). -/
theorem State.descendOrMake_eq_none_iff (s : State) (i : NodeIdx) (b : Bool) :
    s.descendOrMake i b = none ↔ s.nodes[i].child b = none ∧ s.nodeCount.val = 511 := by
  rw [← State.alloc_eq_none_iff]
  unfold State.descendOrMake
  cases hk : s.nodes[i].child b with
  | some k => exact ⟨fun h => (Option.some_ne_none _ h).elim, fun h => (Option.some_ne_none _ h.1).elim⟩
  | none =>
    cases hu : s.alloc with
    | none => exact ⟨fun _ => ⟨rfl, rfl⟩, fun _ => rfl⟩
    | some p => exact ⟨fun h => (Option.some_ne_none _ h).elim, fun h => (Option.some_ne_none _ h.2).elim⟩

/-- Descending moves no field but NODE and NODE_COUNT. -/
theorem State.descendOrMake_frame {s s' : State} {i j : NodeIdx} {b : Bool} (h : s.descendOrMake i b = some (j, s')) :
    s' = { s with nodes := s'.nodes, nodeCount := s'.nodeCount } := by
  rcases State.descendOrMake_cases h with ⟨-, rfl⟩ | ⟨-, u, hu, rfl⟩
  · rfl
  · have h1 := State.alloc_frame hu
    have h2 := State.setChild_frame u i b j
    rw [h2, h1]

theorem charBit_char0 : charBit 0x30#8 = some false := by decide

theorem charBit_char1 : charBit 0x31#8 = some true := by decide

theorem charBit_other {c : Byte} (h0 : c ≠ 0x30#8) (h1 : c ≠ 0x31#8) : charBit c = none := by
  simp [charBit, Config.char0, Config.char1, h0, h1]

@[simp] theorem charBit_bitChar (b : Bool) : charBit (bitChar b) = some b := by
  cases b <;> decide

theorem State.dataSymbol_eq_none_iff (s : State) : s.dataSymbol = none ↔ 255 < s.data.toNat := by
  unfold State.dataSymbol
  split <;> simp <;> omega

end Sys2Proof.Machine
end

