-- ==== Sys2Proof/Laws/PerInstr.lean ====
section
/-! SUPPORT. A family of statements about the commands as syntax, one lemma per constructor. -/

namespace Sys2Proof.Laws.EncodeFits

/-- A command is well formed; its word has its opcode in OP, its operand byte in IMM8, and 0 in the bits its format reserves (R81). -/
def Statement (i : Instr) : Prop :=
  i.wf = true ∧ wordOp (encode i) = i.opcode ∧ wordImm8 (encode i) = i.operandByte ∧ reservedClear i.format (encode i) = true

theorem nop : Statement .nop := by unfold Statement; decide
theorem softReset : Statement .softReset := by unfold Statement; decide
theorem errClear : Statement .errClear := by unfold Statement; decide
theorem freqClear : Statement .freqClear := by unfold Statement; decide
theorem build : Statement .build := by unfold Statement; decide
theorem serialize : Statement .serialize := by unfold Statement; decide
theorem loadBegin : Statement .loadBegin := by unfold Statement; decide
theorem loadSym : Statement .loadSym := by unfold Statement; decide
theorem loadChar (c : Byte) : Statement (.loadChar c) := by
  refine ⟨by simp [Instr.wf, Instr.format, Instr.operand, operandFits, c.isLt], ?_, ?_, ?_⟩ <;>
    simp [encode, wordOp, wordImm8, Instr.operandByte, Instr.opcode, reservedClear, Instr.format] <;> decide +revert
theorem loadRowEnd : Statement .loadRowEnd := by unfold Statement; decide
theorem loadEnd : Statement .loadEnd := by unfold Statement; decide
theorem encode (s : Byte) : Statement (.encode s) := by
  refine ⟨by simp [Instr.wf, Instr.format, Instr.operand, operandFits, s.isLt], ?_, ?_, ?_⟩ <;>
    simp [Sys2Proof.encode, wordOp, wordImm8, Instr.operandByte, Instr.opcode, reservedClear, Instr.format] <;> decide +revert
theorem decBegin : Statement .decBegin := by unfold Statement; decide
theorem decBit (b : Bool) : Statement (.decBit b) := by unfold Statement; cases b <;> decide
theorem decEnd : Statement .decEnd := by unfold Statement; decide

end Sys2Proof.Laws.EncodeFits
end

