-- ==== Sys2Proof/Laws/Tree.lean ====
section
/-! SUPPORT. The small lemmas of Safety's trees: what a write to the arena leaves, what a path leads to, what SERIALIZE's walk gives. -/

namespace Sys2Proof.Safety

open Sys2Proof.Machine

namespace Tree

@[simp] theorem link_absent : Tree.absent.link = none := rfl
@[simp] theorem link_node (i : NodeIdx) (sym : Option Byte) (l r : Tree) : (Tree.node i sym l r).link = some i := rfl

theorem link_eq_none_iff (t : Tree) : t.link = none ↔ t = .absent := by
  cases t <;> simp

theorem mem_indices_of_link {t : Tree} {i : NodeIdx} (h : t.link = some i) : i ∈ t.indices := by
  cases t with
  | absent => simp at h
  | node j sym l r => simp only [link_node, Option.some.injEq] at h; simp [indices, h]

/-- A write to an entry that is not the tree's leaves the tree in the arena. -/
theorem inArena_set {nodes : Vector Node 511} {t : Tree} (i : NodeIdx) (n : Node) (h : t.inArena nodes) (hi : i ∉ t.indices) :
    t.inArena (nodes.set i.val n i.isLt) := by
  induction t with
  | absent => trivial
  | node j sym l r ihl ihr =>
    obtain ⟨h1, h2, h3, h4, h5⟩ := h
    simp only [indices, List.mem_cons, List.mem_append, not_or] at hi
    have hne : (nodes.set i.val n i.isLt)[j] = nodes[j] := by
      simp only [Fin.getElem_fin]
      exact Vector.getElem_set_ne i.isLt j.isLt (fun he => hi.1 (Fin.ext he))
    exact ⟨hne ▸ h1, hne ▸ h2, hne ▸ h3, ihl h4 hi.2.1, ihr h5 hi.2.2⟩

/-- Two arenas that agree on the tree's entries hold it alike. -/
theorem inArena_congr {nodes nodes' : Vector Node 511} {t : Tree} (h : t.inArena nodes)
    (he : ∀ i ∈ t.indices, nodes'[i] = nodes[i]) : t.inArena nodes' := by
  induction t with
  | absent => trivial
  | node j sym l r ihl ihr =>
    obtain ⟨h1, h2, h3, h4, h5⟩ := h
    have hj : nodes'[j] = nodes[j] := he j (by simp [indices])
    exact ⟨hj ▸ h1, hj ▸ h2, hj ▸ h3, ihl h4 fun i hi => he i (by simp [indices, hi]), ihr h5 fun i hi => he i (by simp [indices, hi])⟩

/-- A path from the tree's root leads where the arena's links lead. -/
theorem descend_eq_sub {nodes : Vector Node 511} {t : Tree} {i : NodeIdx} (h : t.inArena nodes) (hl : t.link = some i) (p : List Bool) :
    descend nodes i p = (t.sub p).link := by
  induction p generalizing t i with
  | nil => cases t <;> simp_all [descend, sub]
  | cons b p ih =>
    cases t with
    | absent => simp at hl
    | node j sym l r =>
      obtain ⟨-, h2, h3, h4, h5⟩ := h
      simp only [link_node, Option.some.injEq] at hl
      subst hl
      have hc : nodes[j].child b = (if b then r else l).link := by
        cases b
        · exact h2
        · exact h3
      have ha : (if b then r else l).inArena nodes := by cases b <;> simp [h4, h5]
      have hs : (Tree.node j sym l r).sub (b :: p) = (if b then r else l).sub p := by cases b <;> simp [sub]
      rw [descend, hc, hs]
      cases hk : (if b then r else l).link with
      | none => rw [(link_eq_none_iff _).1 hk]; cases p <;> rfl
      | some k => exact ih ha hk

theorem full_labelled {t : Tree} (h : t.full = true) : t.labelled = true := by
  induction t with
  | absent => rfl
  | node i sym l r ihl ihr =>
    cases sym with
    | some s => exact h
    | none =>
      simp only [full, Bool.and_eq_true] at h
      simp [labelled, ihl h.1, ihr h.2]

/-- SERIALIZE's walk over a full tree gives the tree's rows (R140). -/
theorem visit_eq_rows {nodes : Vector Node 511} {t : Tree} {i : NodeIdx} (h : t.inArena nodes) (hl : t.link = some i)
    (hf : t.full = true) {room : Nat} (hh : t.height ≤ room + 1) (p : List Bool) : visit nodes room i p = some (t.rows p) := by
  induction t generalizing i room p with
  | absent => simp at hl
  | node j sym l r ihl ihr =>
    obtain ⟨h1, h2, h3, h4, h5⟩ := h
    simp only [link_node, Option.some.injEq] at hl
    subst hl
    cases sym with
    | some s =>
      simp only [full, Bool.and_eq_true] at hf
      cases room <;> simp [-Fin.getElem_fin, visit, h1, h2, h3, hf.1, hf.2, rows]
    | none =>
      simp only [full, Bool.and_eq_true] at hf
      cases hll : l.link with
      | none => rw [(link_eq_none_iff _).1 hll] at hf; simp [full] at hf
      | some a =>
        cases hrl : r.link with
        | none => rw [(link_eq_none_iff _).1 hrl] at hf; simp [full] at hf
        | some b =>
          have hpos : 1 ≤ l.height := by
            cases l with
            | absent => simp at hll
            | node _ _ _ _ => simp [height]
          simp only [height] at hh
          cases room with
          | zero => omega
          | succ room =>
            have e1 := ihl h4 hll hf.1 (room := room) (by omega) (p ++ [false])
            have e2 := ihr h5 hrl hf.2 (room := room) (by omega) (p ++ [true])
            simp [-Fin.getElem_fin, visit, h2, h3, hll, hrl, e1, e2, rows]

/-- The symbols of a full tree's rows are its symbols, in order (R141). -/
theorem rows_syms {t : Tree} (hf : t.full = true) (p : List Bool) : (t.rows p).map Row.sym = t.syms := by
  induction t generalizing p with
  | absent => simp [full] at hf
  | node i sym l r ihl ihr =>
    cases sym with
    | some s =>
      simp only [full, Bool.and_eq_true, Option.isNone_iff_eq_none, link_eq_none_iff] at hf
      simp [rows, syms, hf.1, hf.2, Row.ofPath]
    | none =>
      simp only [full, Bool.and_eq_true] at hf
      simp [rows, syms, ihl hf.1, ihr hf.2]

/-- A full tree has one node fewer than twice its leaves (R45 item 6). -/
theorem full_indices_length {t : Tree} (hf : t.full = true) : t.indices.length + 1 = 2 * t.syms.length := by
  induction t with
  | absent => simp [full] at hf
  | node i sym l r ihl ihr =>
    cases sym with
    | some s =>
      simp only [full, Bool.and_eq_true, Option.isNone_iff_eq_none, link_eq_none_iff] at hf
      simp [indices, syms, hf.1, hf.2]
    | none =>
      simp only [full, Bool.and_eq_true] at hf
      have h1 := ihl hf.1
      have h2 := ihr hf.2
      simp only [indices, syms, List.length_cons, List.length_append, Option.toList_none, List.nil_append]
      omega

end Tree

end Sys2Proof.Safety
end

