-- ==== Sys2Proof/Laws/Turn.lean ====
section
/-! SUPPORT. What one step can do, said once (20_memory.md R62, R66, 60_exceptions.md R226). -/

namespace Sys2Proof.Machine

/-- While idle a read shows what stands at its word (R61, R63). -/
theorem State.readWord_idle {s : State} (h : s.busy = false) (a : WordAddr) : s.readWord a = s.idleRead (target a) := by
  simp [State.readWord, h]

/-- While busy a read of ID, of BUSY in STATUS, or a free draw (R262). -/
theorem State.readWord_busy {s : State} (h : s.busy = true) (a : WordAddr) : s.readWord a = s.busyRead (target a) := by
  simp [State.readWord, h]

/-- A host read moves the model's own fields alone (R72). -/
theorem State.hostRead_frame (s : State) (a : WordAddr) :
    s.hostRead a = { s with reads := (s.hostRead a).reads, draws := (s.hostRead a).draws } := rfl

/-- Every host write is one of these (R62, R67). -/
theorem State.hostWrite_cases (s : State) (a : WordAddr) (v : Word) :
    (s.busy = true ∧ (target a = .cmd ∨ target a = .data ∨ ∃ sym, target a = .freq sym) ∧ s.hostWrite a v = { s with overrun := true }) ∨
    (s.busy = false ∧ target a = .cmd ∧ s.hostWrite a v = { s with pend := ⟨true, v⟩ }) ∨
    (s.busy = false ∧ target a = .data ∧ s.hostWrite a v = { s with data := v }) ∨
    (s.busy = false ∧ ∃ sym, target a = .freq sym ∧ s.hostWrite a v = s.setFreq sym v) ∨
    (target a ≠ .cmd ∧ target a ≠ .data ∧ (∀ sym, target a ≠ .freq sym) ∧ s.hostWrite a v = s) := by
  unfold State.hostWrite
  cases s.busy <;> cases target a <;> simp

/-- Every core step is one of these (R226, R251). -/
theorem coreStep_cases {s t : State} (h : coreStep s = .next t) :
    (s.initPending = true ∧ t = s.initJob) ∨
    (s.initPending = false ∧ s.pend.valid = true ∧ ∃ i, decode s.pend.word = .command i ∧ exec i s = .next t) ∨
    (s.initPending = false ∧ s.pend.valid = true ∧
      ∃ why, decode s.pend.word = .illegal why ∧ runIllegal s.pend.word why s = .next t) ∨
    (s.initPending = false ∧ s.pend.valid = false ∧ t = s) := by
  unfold coreStep at h
  cases hi : s.initPending
  · cases hp : s.pend.valid
    · simp only [hi, hp, Bool.false_eq_true, if_false, Host.Outcome.next.injEq] at h
      exact .inr (.inr (.inr ⟨rfl, rfl, h.symm⟩))
    · simp only [hi, hp, Bool.false_eq_true, if_false, if_true, runWord] at h
      cases hd : decode s.pend.word with
      | command i => rw [hd] at h; exact .inr (.inl ⟨rfl, rfl, i, rfl, h⟩)
      | illegal why => rw [hd] at h; exact .inr (.inr (.inl ⟨rfl, rfl, why, rfl, h⟩))
  · simp only [hi, if_true, Host.Outcome.next.injEq] at h
    exact .inl ⟨rfl, h.symm⟩

/-- Everything one turn of a WAIT can do (R92). -/
theorem waitTurn_cases {polls : Nat} {rest : List Input} {s t : State} (h : waitTurn polls rest s = .next t) :
    (s.busy = false ∧ t = s.poll rest) ∨ (s.busy = true ∧ ∃ k, polls = k + 1 ∧ t = s.poll (.wait k :: rest)) ∨
    (s.busy = true ∧ polls = 0 ∧ coreStep s = .next t) := by
  unfold waitTurn at h
  cases hb : s.busy
  · simp only [hb, Bool.false_eq_true, if_false, Host.Outcome.next.injEq] at h
    exact .inl ⟨rfl, h.symm⟩
  · simp only [hb, if_true] at h
    cases polls with
    | zero => exact .inr (.inr ⟨rfl, rfl, h⟩)
    | succ k => exact .inr (.inl ⟨rfl, k, rfl, (Host.Outcome.next.inj h).symm⟩)

/-- A poll moves the model's own fields alone (R72). -/
theorem State.poll_frame (s : State) (rest : List Input) :
    s.poll rest = { s with inputs := rest, reads := (s.poll rest).reads, draws := (s.poll rest).draws } := rfl

/-- Every step is a host read, a host write, a reset event, a turn of a WAIT or a turn of the core (R5, R70, R92). -/
theorem step_cases {s t : State} (h : step s = .next t) :
    (s.inputs = [] ∧ coreStep s = .next t) ∨
    (∃ rest, s.inputs = .coreTurn :: rest ∧ coreStep { s with inputs := rest } = .next t) ∨
    (∃ a rest, s.inputs = .read a :: rest ∧ t = { s with inputs := rest }.hostRead a) ∨
    (∃ a v rest, s.inputs = .write a v :: rest ∧ t = { s with inputs := rest }.hostWrite a v) ∨
    (∃ rest, s.inputs = .reset :: rest ∧ t = { s with inputs := rest }.hardwareReset) ∨
    (∃ polls rest, s.inputs = .wait polls :: rest ∧ waitTurn polls rest s = .next t) := by
  unfold step takeTurn at h
  cases hin : s.inputs with
  | nil => rw [hin] at h; exact .inl ⟨rfl, h⟩
  | cons i rest =>
    rw [hin] at h
    cases i with
    | read a => exact .inr (.inr (.inl ⟨a, rest, rfl, (Host.Outcome.next.inj h).symm⟩))
    | write a v => exact .inr (.inr (.inr (.inl ⟨a, v, rest, rfl, (Host.Outcome.next.inj h).symm⟩)))
    | coreTurn => exact .inr (.inl ⟨rest, rfl, h⟩)
    | reset => exact .inr (.inr (.inr (.inr (.inl ⟨rest, rfl, (Host.Outcome.next.inj h).symm⟩))))
    | wait polls => exact .inr (.inr (.inr (.inr (.inr ⟨polls, rest, rfl, h⟩))))

/-- Everything an illegal word can do (R85). -/
theorem runIllegal_cases {w : Word} {why : Illegal} {s t : State} (h : runIllegal w why s = .next t) :
    (s.err = true ∧ t = s.complete) ∨ (s.err = false ∧ t = (s.raise (wordOp w) (.illegalCmd why)).complete) := by
  unfold runIllegal at h
  cases he : s.err
  · simp only [he, Bool.false_eq_true, if_false, Host.Outcome.next.injEq] at h
    exact .inr ⟨rfl, h.symm⟩
  · simp only [he, if_true, Host.Outcome.next.injEq] at h
    exact .inl ⟨rfl, h.symm⟩

end Sys2Proof.Machine
end

