-- ==== Sys2Proof/Tests/Slice0.lean ====
section
/-! SUPPORT. The model's own tests, and for every obligation with hypotheses a witness that meets them. Expected values come from
spec/95_test_vectors.md (V-*) and from the rules named; none is the model's own answer. -/

namespace Sys2Proof.Tests

set_option Elab.async false

open Sys2Proof.Machine Sys2Proof.Safety

/-! ## Small states -/

/-- The arena with these nodes first. -/
def nodesOf (l : List Node) : Vector Node 511 := Vector.ofFn fun i => l.getD i.val Node.empty

def leaf (sym : Byte) (f : NodeFreq) : Node := { left := none, right := none, sym := some sym, nfreq := f }

def inner (a b : NodeIdx) (f : NodeFreq) : Node := { left := some a, right := some b, sym := none, nfreq := f }

/-- Reset, and the initialisation job done. -/
def fresh : State := { State.reset with initPending := false }

/-- FREQ of V-B3: A 2, B 1, C 1. -/
def counted : State := { fresh with freq := [(0x41, 2#32), (0x42, 1#32), (0x43, 1#32)] }

/-- The tree of V-B3. -/
def built : State :=
  { counted with
    nodes := nodesOf [leaf 0x41#8 2#40, leaf 0x42#8 1#40, leaf 0x43#8 1#40, inner 1 2 2#40, inner 0 3 4#40]
    nodeCount := 5, leafCount := 3#9, root := 4, treeState := .built }

/-- The rows of V-B3: A "0", B "10", C "11". -/
def rows3 : List Row := [⟨0x41#8, 1#8, 0#256⟩, ⟨0x42#8, 2#8, 1#256⟩, ⟨0x43#8, 2#8, 3#256⟩]

def serialized : State := { built with ct := Vector.ofFn fun i => rows3.getD i.val Row.zero, rowCount := 3#9, ctValid := true }

def atRoot : State := { serialized with decState := .atRoot, cursor := ⟨4, 0#8⟩ }

def descending : State := { serialized with decState := .descending, cursor := ⟨3, 1#8⟩ }

/-- The tree of V-B5's kind: one leaf, 'Z' of count 9 (P5). -/
def single : State :=
  { fresh with
    freq := [(0x5A, 9#32)], nodes := nodesOf [leaf 0x5A#8 9#40], nodeCount := 1, leafCount := 1#9, root := 0, treeState := .built }

def singleTable : State :=
  { single with ct := Vector.ofFn fun i => [(⟨0x5A#8, 0#8, 0#256⟩ : Row)].getD i.val Row.zero, rowCount := 1#9, ctValid := true }

def singleSession : State := { singleTable with decState := .atRoot }

/-- After LOAD_BEGIN, with 'A' in DATA. -/
def loading : State := { fresh with data := 0x41#32, treeState := .loading, nodeCount := 1 }

/-- After LOAD_BEGIN and LOAD_SYM 'A'. -/
def openRow : State := { loading with rowOpen := true, loadCur := ⟨0x41#8, 0#8, 0⟩ }

/-- After LOAD_BEGIN, LOAD_SYM 'A', LOAD_CHAR '0'. -/
def halfRow : State :=
  { loading with
    nodes := nodesOf [{ Node.empty with left := some 1 }], nodeCount := 2, rowOpen := true, loadCur := ⟨0x41#8, 1#8, 1⟩ }

/-- After LOAD_BEGIN and LOAD_ROW 'A', "0". -/
def oneRow : State :=
  { loading with nodes := nodesOf [{ Node.empty with left := some 1 }, leaf 0x41#8 Config.noFreq], nodeCount := 2, leafCount := 1#9 }

/-- oneRow with a row of 'B' opened, which stands at node i after `len` characters. -/
def secondRow (i : NodeIdx) (len : Byte) : State := { oneRow with rowOpen := true, loadCur := ⟨0x42#8, len, i⟩ }

/-- After the two rows of V-L1, before LOAD_END. -/
def twoRows : State :=
  { loading with
    nodes := nodesOf [inner 1 2 Config.noFreq, leaf 0x41#8 Config.noFreq, leaf 0x42#8 Config.noFreq]
    nodeCount := 3, leafCount := 2#9 }

/-- An error standing: SEQUENCE by SERIALIZE. -/
def failed : State := { fresh with err := true, errReg := ⟨0x11#8, 0#8, 5#8⟩ }

/-- A word pending. -/
def pending (w : Word) (s : State) : State := { s with pend := ⟨true, w⟩ }

/-- The next state of a command passes the check. -/
def after (i : Instr) (s : State) (p : State → Bool) : Bool :=
  match exec i s with
  | .next t => p t
  | .fault _ => false
  | .refused _ => false

/-! ## WellFormed refuses what R88 refuses -/

theorem test_wf_n_operand : operandFits .n (some 0) = false := by decide
theorem test_wf_b_missing : operandFits .b none = false := by decide
theorem test_wf_b_range : operandFits .b (some 256) = false ∧ operandFits .b (some 255) = true := by decide
theorem test_wf_t_missing : operandFits .t none = false := by decide
theorem test_wf_t_range : operandFits .t (some 2) = false ∧ operandFits .t (some 1) = true := by decide
theorem test_wf_line_operand : SourceLine.wf ⟨"BUILD", some 1⟩ = false := by decide
theorem test_wf_line_missing : SourceLine.wf ⟨"ENCODE", none⟩ = false := by decide
theorem test_wf_line_range : SourceLine.wf ⟨"LOAD_CHAR", some 256⟩ = false := by decide
theorem test_wf_line_bit : SourceLine.wf ⟨"DEC_BIT", some 2⟩ = false := by decide
theorem test_wf_line_name : SourceLine.wf ⟨"BUILDS", none⟩ = false := by decide
theorem test_wf_line_good : SourceLine.wf ⟨"DEC_BIT", some 1⟩ = true ∧ SourceLine.wf ⟨"LOAD_SYM", none⟩ = true := by decide

/-! ## Decoding: words written bit by bit from R81 and R83 (R88 and V-E give the examples with operands) -/

theorem test_decode_nop : decode 0b00000000000000000000000000000000#32 = .command .nop := by decide
theorem test_decode_softReset : decode 0b00000000000000000000000000000001#32 = .command .softReset := by decide
theorem test_decode_errClear : decode 0b00000000000000000000000000000010#32 = .command .errClear := by decide
theorem test_decode_freqClear : decode 0b00000000000000000000000000000011#32 = .command .freqClear := by decide
theorem test_decode_build : decode 0b00000000000000000000000000010000#32 = .command .build := by decide
theorem test_decode_serialize : decode 0b00000000000000000000000000010001#32 = .command .serialize := by decide
theorem test_decode_loadBegin : decode 0b00000000000000000000000000100000#32 = .command .loadBegin := by decide
theorem test_decode_loadSym : decode 0b00000000000000000000000000100001#32 = .command .loadSym := by decide
theorem test_decode_loadChar : decode 0b00000000000000000011000100100010#32 = .command (.loadChar 0x31#8) := by decide
theorem test_decode_loadRowEnd : decode 0b00000000000000000000000000100011#32 = .command .loadRowEnd := by decide
theorem test_decode_loadEnd : decode 0b00000000000000000000000000100100#32 = .command .loadEnd := by decide
theorem test_decode_encode : decode 0b00000000000000000100001000110000#32 = .command (.encode 0x42#8) := by decide
theorem test_decode_decBegin : decode 0b00000000000000000000000001000000#32 = .command .decBegin := by decide
theorem test_decode_decBit : decode 0b00000000000000000000000101000001#32 = .command (.decBit true) := by decide
theorem test_decode_decEnd : decode 0b00000000000000000000000001000010#32 = .command .decEnd := by decide
theorem test_decode_illegal : decode 0xFFFFFFFF#32 = .illegal .undefinedOpcode ∧ decode 0x00000100#32 = .illegal .reservedBits ∧
    decode 0x00010022#32 = .illegal .reservedBits ∧ decode 0x00000241#32 = .illegal .reservedBits := by decide
theorem test_encode_words : encode (.loadChar 0x31#8) = 0x00003122#32 ∧ encode (.encode 0x42#8) = 0x00004230#32 := by decide
theorem test_assemble : assembleLine ⟨"ENCODE", some 0x42⟩ = some (.encode 0x42#8) := by decide
theorem test_table_word : decodeTableWord 32 0x00000141 = some (.decBit true) ∧ decodeTableWord 32 0x00000004 = none := by decide

/-! ## One step of each command -/

/-- V-C1: NOP changes nothing (R100). -/
theorem test_nop : after .nop serialized (fun t => t.statusWord == 0x18#32 && t.root == 4 && t.rowCount == 3#9) = true := by decide +kernel
/-- V-C2, step 2. -/
theorem test_softReset : after .softReset { serialized with data := 0x1234#32, err := true, overrun := true }
    (fun t => t.statusWord == 0#32 && t.data == 0#32 && t.freqAt 0x41#8 == 0#32 && t.nodeCount == 0) = true := by decide +kernel
/-- V-C5, step 5, with the error of R102's example. -/
theorem test_errClear : after .errClear { built with err := true, overrun := true, errReg := ⟨0x42#8, 0#8, 3#8⟩ }
    (fun t => t.statusWord == 0x10#32 && t.errWord == 0#32) = true := by decide +kernel
/-- V-C4, step 1. -/
theorem test_freqClear : after .freqClear counted (fun t => t.freqAt 0x41#8 == 0#32 && t.statusWord == 0#32) = true := by decide +kernel
/-- V-B3. -/
theorem test_build_three : after .build counted (fun t => t.root == 4 && t.nodeCount == 5 && t.statusWord == 0x10#32 &&
    t.nodes[3].linkWord == 0x0C000401#32 && t.nodes[4].linkWord == 0x0C000600#32) = true := by decide +kernel
/-- V-B6. -/
theorem test_build_empty : after .build fresh (fun t => t.errWord == 0x00100001#32 && t.statusWord == 0x02#32) = true := by decide +kernel
/-- V-B3's rows, packed by R65. -/
theorem test_serialize : after .serialize built (fun t => t.rowCount == 3#9 && t.statusWord == 0x18#32 &&
    t.liveRows == rows3) = true := by decide +kernel
/-- V-Q3. -/
theorem test_serialize_sequence : after .serialize fresh (fun t => t.errWord == 0x00110005#32 && t.statusWord == 0x02#32) = true := by decide +kernel
/-- R142 on the rows of V-B3: 'B' is "10". -/
theorem test_encode : after (.encode 0x42#8) serialized (fun t => t.resLen == 2#8 && pathWord t.resPath 0 == 1#32) = true := by decide +kernel
/-- V-S3's kind: no row for 'G'. -/
theorem test_encode_absent : after (.encode 0x47#8) serialized (fun t => t.errWord == 0x00300006#32 && t.statusWord == 0x1A#32) = true := by decide +kernel
/-- R161's example. -/
theorem test_loadBegin : after .loadBegin serialized (fun t => t.statusWord == 0x20#32 && t.nodeCount == 1 && t.rowCount == 0#9) = true := by decide +kernel
/-- R162's example. -/
theorem test_loadSym : after .loadSym loading (fun t => t.loadCurWord == 0x41000000#32 && t.rowOpen) = true := by decide +kernel
/-- V-F6. -/
theorem test_loadSym_range : after .loadSym { loading with data := 0x100#32 } (fun t => t.errWord == 0x00210602#32 && t.statusWord == 2#32) = true := by decide +kernel
/-- R163's example. -/
theorem test_loadChar : after (.loadChar 0x31#8) openRow (fun t => t.loadCurWord == 0x41010001#32 && t.nodeCount == 2 &&
    t.nodes[0].linkWord == 0x08000200#32) = true := by decide +kernel
/-- V-F2. -/
theorem test_loadChar_leaf : after (.loadChar 0x31#8) (secondRow 1 1#8) (fun t => t.errWord == 0x00220202#32 && t.nodeCount == 0) = true := by decide +kernel
/-- P3's first row. -/
theorem test_loadRowEnd : after .loadRowEnd halfRow (fun t => t.leafCount == 1#9 && t.nodes[1].linkWord == 0x11040000#32 &&
    t.loadCurWord == 0#32) = true := by decide +kernel
/-- V-F4. -/
theorem test_loadRowEnd_duplicate : after .loadRowEnd (secondRow 1 1#8) (fun t => t.errWord == 0x00230402#32) = true := by decide +kernel
/-- V-L1. -/
theorem test_loadEnd : after .loadEnd twoRows (fun t => t.statusWord == 0x30#32 && t.nodeCount == 3 && t.leafCount == 2#9) = true := by decide +kernel
/-- V-F10. -/
theorem test_loadEnd_incomplete : after .loadEnd oneRow (fun t => t.errWord == 0x00240A02#32 && t.statusWord == 2#32) = true := by decide +kernel
/-- R191 on the tree of V-B3. -/
theorem test_decBegin : after .decBegin descending (fun t => t.statusWord == 0x118#32 && t.cursorWord == 4#32) = true := by decide +kernel
/-- R192 on the tree of V-B3: "11" is 'C'. -/
theorem test_decBit_emits : after (.decBit true) descending (fun t => t.decOutWord == 0x143#32 && t.cursorWord == 4#32 &&
    t.decCount == 1#32) = true := by decide +kernel
/-- V-D3. -/
theorem test_decBit_degenerate : after (.decBit false) singleSession (fun t => t.errWord == 0x00410004#32 && t.statusWord == 0x1A#32) = true := by decide +kernel
/-- R195 with no bit pending. -/
theorem test_decEnd : after .decEnd atRoot (fun t => t.statusWord == 0x18#32) = true := by decide +kernel
/-- V-D2's kind. -/
theorem test_decEnd_truncated : after .decEnd descending (fun t => t.errWord == 0x00420003#32 && t.statusWord == 0x1A#32 &&
    t.cursorWord == 0x00010003#32) = true := by decide +kernel

/-! ## One turn of a WAIT (R92), on V-B3's BUILD -/

/-- The next state of a step passes the check. -/
def steps (s : State) (p : State → Bool) : Bool :=
  match step s with
  | .next t => p t
  | .fault _ => false
  | .refused _ => false

/-- A read with BUSY = 1 repeats the loop, and the command stays pending. -/
theorem test_wait_polls : steps { pending 0x10#32 counted with inputs := [.wait 1] } (fun t =>
    t.inputs == [.wait 0] && t.busy && t.reads.length == 1) = true := by decide +kernel
/-- The core's step falls inside the loop. -/
theorem test_wait_core : steps { pending 0x10#32 counted with inputs := [.wait 0] } (fun t =>
    t.inputs == [.wait 0] && t.statusWord == 0x10#32 && t.root == 4 && t.reads == []) = true := by decide +kernel
/-- A read with BUSY = 0 ends the loop. -/
theorem test_wait_ends : steps { built with inputs := [.wait 0, .read 0x0003#14] } (fun t =>
    t.inputs == [.read 0x0003#14] && t.reads == [0x10#32]) = true := by decide +kernel

/-! ## The small states satisfy the invariant -/

/-- The tree of V-B3. -/
def tree3 : Tree :=
  .node 4 none (.node 0 (some 0x41#8) .absent .absent)
    (.node 3 none (.node 1 (some 0x42#8) .absent .absent) (.node 2 (some 0x43#8) .absent .absent))

/-- The tree of P5. -/
def tree1 : Tree := .node 0 (some 0x5A#8) .absent .absent

/-- The tree of V-L1. -/
def tree2 : Tree := .node 0 none (.node 1 (some 0x41#8) .absent .absent) (.node 2 (some 0x42#8) .absent .absent)

theorem built_holds : ArenaHolds built tree3 where
  root := rfl
  entries := by
    refine ⟨?_, ?_, ?_, ⟨?_, ?_, ?_, trivial, trivial⟩, ?_, ?_, ?_, ⟨?_, ?_, ?_, trivial, trivial⟩, ?_, ?_, ?_, trivial, trivial⟩ <;>
      decide +kernel
  once := by decide
  live := by decide +kernel
  depth := by decide
  symbols := by decide
  leaves := rfl

theorem single_holds : ArenaHolds single tree1 where
  root := rfl
  entries := by refine ⟨?_, ?_, ?_, trivial, trivial⟩ <;> decide +kernel
  once := by decide
  live := by decide +kernel
  depth := by decide
  symbols := by decide
  leaves := rfl

theorem loading_holds : ArenaHolds loading (.node 0 none .absent .absent) where
  root := rfl
  entries := by refine ⟨?_, ?_, ?_, trivial, trivial⟩ <;> decide +kernel
  once := by decide
  live := by decide +kernel
  depth := by decide
  symbols := by decide
  leaves := rfl

theorem oneRow_holds : ArenaHolds oneRow (.node 0 none (.node 1 (some 0x41#8) .absent .absent) .absent) where
  root := rfl
  entries := by refine ⟨?_, ?_, ?_, ⟨?_, ?_, ?_, trivial, trivial⟩, trivial⟩ <;> decide +kernel
  once := by decide
  live := by decide +kernel
  depth := by decide
  symbols := by decide
  leaves := rfl

theorem twoRows_holds : ArenaHolds twoRows tree2 where
  root := rfl
  entries := by
    refine ⟨?_, ?_, ?_, ⟨?_, ?_, ?_, trivial, trivial⟩, ?_, ?_, ?_, trivial, trivial⟩ <;> decide +kernel
  once := by decide
  live := by decide +kernel
  depth := by decide
  symbols := by decide
  leaves := rfl

/-- The invariant of a state without an error or a result, after the initialisation job. -/
theorem inv_of {s : State} (tree : TreeInv s) (freq : s.freq.wf = true) (noRows : s.ctValid = false → s.rowCount = 0#9)
    (noRow : s.rowOpen = false → s.loadCur = ⟨0#8, 0#8, 0⟩) (err : s.err = false) (errReg : s.errReg = ⟨0#8, 0#8, 0#8⟩)
    (res : s.resPath = 0#256) (init : s.initPending = false) : Inv s where
  freq := freq
  tree := tree
  noRows := noRows
  noRow := noRow
  noError := fun _ => errReg
  error := by simp [err]
  result := by simp [res]
  init := by simp [init]

theorem fresh_inv : Inv fresh :=
  inv_of ⟨rfl, rfl, rfl, rfl, rfl, rfl⟩
    (by decide) (by decide) (by decide) rfl rfl rfl rfl

theorem failed_inv : Inv failed where
  freq := rfl
  tree := ⟨rfl, rfl, rfl, rfl, rfl, rfl⟩
  noRows := fun _ => rfl
  noRow := fun _ => rfl
  noError := by decide
  error := fun _ => ⟨0x11#8, .sequence, rfl⟩
  result := by simp [failed, fresh, State.reset]
  init := by decide

theorem built_inv : Inv built :=
  inv_of ⟨rfl, tree3, built_holds, by decide, by decide, trivial⟩
    (by decide) (by decide) (by decide) rfl rfl rfl rfl

/-- The rows written out for V-B3 are those of its tree. -/
theorem serialized_rows : serialized.liveRows = tree3.rows [] := by decide +kernel

/-- The arena of `serialized` is that of `built`. -/
theorem serialized_holds : ArenaHolds serialized tree3 := ⟨rfl, built_holds.entries, built_holds.once, built_holds.live,
  built_holds.depth, built_holds.symbols, rfl⟩

theorem serialized_inv : Inv serialized :=
  inv_of ⟨rfl, tree3, serialized_holds, by decide, fun _ => ⟨by decide, serialized_rows⟩, trivial⟩
    (by decide) (by decide) (by decide) rfl rfl rfl rfl

theorem atRoot_inv : Inv atRoot :=
  inv_of ⟨rfl, tree3, ⟨rfl, built_holds.entries, built_holds.once, built_holds.live, built_holds.depth, built_holds.symbols, rfl⟩,
    by decide, fun _ => ⟨by decide, serialized_rows⟩, rfl⟩
    (by decide) (by decide) (by decide) rfl rfl rfl rfl

theorem descending_inv : Inv descending :=
  inv_of ⟨rfl, tree3, ⟨rfl, built_holds.entries, built_holds.once, built_holds.live, built_holds.depth, built_holds.symbols, rfl⟩,
    by decide, fun _ => ⟨by decide, serialized_rows⟩, [true], by decide, rfl, rfl, by decide +kernel⟩
    (by decide) (by decide) (by decide) rfl rfl rfl rfl

theorem singleTable_inv : Inv singleTable :=
  inv_of ⟨rfl, tree1, ⟨rfl, single_holds.entries, single_holds.once, single_holds.live, single_holds.depth, single_holds.symbols, rfl⟩,
    by decide, fun _ => ⟨by decide, by decide +kernel⟩, trivial⟩
    (by decide) (by decide) (by decide) rfl rfl rfl rfl

theorem singleSession_inv : Inv singleSession :=
  inv_of ⟨rfl, tree1, ⟨rfl, single_holds.entries, single_holds.once, single_holds.live, single_holds.depth, single_holds.symbols, rfl⟩,
    by decide, fun _ => ⟨by decide, by decide +kernel⟩, rfl⟩
    (by decide) (by decide) (by decide) rfl rfl rfl rfl

theorem openRow_inv : Inv openRow :=
  inv_of ⟨rfl, rfl, rfl, .node 0 none .absent .absent, ⟨rfl, loading_holds.entries, loading_holds.once, loading_holds.live,
    loading_holds.depth, loading_holds.symbols, rfl⟩, by decide, fun _ => ⟨[], rfl, rfl, by decide⟩⟩
    (by decide) (by decide) (by decide) rfl rfl rfl rfl

theorem oneRow_inv : Inv oneRow :=
  inv_of ⟨rfl, rfl, rfl, _, oneRow_holds, by decide, fun h => absurd h (by decide)⟩
    (by decide) (by decide) (by decide) rfl rfl rfl rfl

theorem twoRows_inv : Inv twoRows :=
  inv_of ⟨rfl, rfl, rfl, tree2, twoRows_holds, by decide, fun h => absurd h (by decide)⟩
    (by decide) (by decide) (by decide) rfl rfl rfl rfl

/-! ## Witnesses: every statement's hypotheses are met together, clause by clause, at the edges of their ranges -/

theorem witness_DecodeFollowsTheOpcodeMap :
    ([0x04#32, 0x0F#32, 0x12#32, 0x1F#32, 0x25#32, 0x2F#32, 0x31#32, 0x3F#32, 0x43#32, 0xFF#32].all fun w =>
      decide (w.extractLsb' 0 8 ∉ [0x00#8, 0x01#8, 0x02#8, 0x03#8, 0x10#8, 0x11#8, 0x20#8, 0x21#8, 0x22#8, 0x23#8, 0x24#8, 0x30#8,
        0x40#8, 0x41#8, 0x42#8])) = true ∧
    (0x00000100#32).extractLsb' 0 8 = 0x00#8 ∧ (0x00000042#32).extractLsb' 0 8 = 0x42#8 ∧
    (0x0000FF22#32).extractLsb' 0 8 = 0x22#8 ∧ (0x00010030#32).extractLsb' 0 8 = 0x30#8 ∧ (0x00000241#32).extractLsb' 0 8 = 0x41#8 := by
  decide

theorem witness_OpcodeTableAndDecoderAgree :
    decode 0x0000FF30#32 = .command (.encode 0xFF#8) ∧ decode 0x00000025#32 = .illegal .undefinedOpcode ∧
    (opcodeTable.any fun r => r.covers 0x0000FF30#32) = true := by decide

theorem witness_PathsPackFirstDescentFirst :
    (List.replicate 256 true).length ≤ 256 ∧ 32 * (7 : Fin 8).val + (31 : Fin 32).val < (List.replicate 256 true).length ∧
    (1 : Fin 8) ≠ 0 ∧ serialized.busy = false ∧ (2 : Fin 256).val < serialized.rowCount.toNat := by
  rw [List.length_replicate]
  decide

theorem witness_RegisterMapNamesAndOffsetsAgree :
    Target.nodeFreqHi 510 ≠ .reserved ∧ Target.freq 0xFF#8 ≠ .reserved ∧ Target.ctPath 255 7 ≠ .reserved ∧
    Target.resPath 7 ≠ .reserved := by decide

theorem witness_RegisterReadsShowTheirFields : serialized.busy = false ∧ loading.busy = false ∧ failed.busy = false := by decide

theorem witness_WindowReadsShowLiveEntries :
    serialized.busy = false ∧ (2 : Fin 256).val < serialized.rowCount.toNat ∧ (4 : NodeIdx).val < serialized.nodeCount.val := by decide

theorem witness_StaleEntriesAreNeverRead :
    serialized.busy = false ∧ serialized.rowCount.toNat ≤ (3 : Fin 256).val ∧ serialized.nodeCount.val ≤ (5 : NodeIdx).val ∧
    (Inv built ∧ built.ctValid = false) ∧
    (∀ i : NodeIdx, i.val < built.nodeCount.val → (built.nodes.set 5 (leaf 0x44#8 7#40))[i] = built.nodes[i]) ∧
    (∀ r : Fin 256, r.val < built.rowCount.toNat → serialized.ct[r] = built.ct[r]) := by
  refine ⟨by decide, by decide, by decide, ⟨built_inv, rfl⟩, ?_, ?_⟩
  · intro i hi
    have : i.val < 5 := hi
    simp only [Fin.getElem_fin]
    exact Vector.getElem_set_ne (by omega) (by omega) (by omega)
  · intro r hr
    exact absurd hr (Nat.not_lt_zero _)

/-- The edges of every reserved range, with the registers that read while busy. -/
theorem witness_HostReadsMoveNothing :
    ({ fresh with inputs := [.read 0x0016#14] } : State).inputs = .read 0x0016#14 :: [] ∧ fresh.busy = false ∧
    State.reset.busy = true ∧ 4 * (0x0000#14).toNat = 0x0000 ∧ 4 * (0x0003#14).toNat = 0x000C ∧ 4 * (0x0001#14).toNat = 0x0004 ∧
    4 * (0x0016#14).toNat = 0x0058 ∧ 4 * (0x00FF#14).toNat = 0x03FC ∧ 4 * (0x0200#14).toNat = 0x0800 ∧ 4 * (0x0FFF#14).toNat = 0x3FFC ∧
    0x28 ≤ 4 * (0x100A#14).toNat % 0x40 ∧ 0x28 ≤ 4 * (0x1FFF#14).toNat % 0x40 ∧ 4 * (0x2003#14).toNat % 0x10 = 0xC ∧
    4 * (0x27FC#14).toNat = 0x9FF0 ∧ 4 * (0x3FFF#14).toNat = 0xFFFC := by decide

theorem witness_HostWritesFollowTheMap :
    (pending 0x10#32 fresh).busy = true ∧ fresh.busy = false ∧ fresh.freq.wf = true ∧ 4 * (0x0001#14).toNat = 0x0004 ∧
    4 * (0x0002#14).toNat = 0x0008 ∧ 4 * (0x0100#14).toNat = 0x0400 + 4 * (0x00#8).toNat ∧
    4 * (0x01FF#14).toNat = 0x0400 + 4 * (0xFF#8).toNat ∧ (0xFF#8) ≠ 0x00#8 ∧
    (4 * (0x00FF#14).toNat ≠ 0x0004 ∧ 4 * (0x00FF#14).toNat ≠ 0x0008 ∧ ¬ (0x0400 ≤ 4 * (0x00FF#14).toNat ∧ 4 * (0x00FF#14).toNat < 0x0800)) ∧
    (4 * (0x0200#14).toNat ≠ 0x0004 ∧ 4 * (0x0200#14).toNat ≠ 0x0008 ∧
      ¬ (0x0400 ≤ 4 * (0x0200#14).toNat ∧ 4 * (0x0200#14).toNat < 0x0800)) := by decide

theorem witness_OverrunIsStickyAndStopsNothing :
    State.reset.busy = true ∧ 4 * (0x01FF#14).toNat < 0x0800 ∧
    (∃ t, ({ fresh with overrun := true } : State).overrun = true ∧ step { fresh with overrun := true } = .next t) ∧
    (∃ t, Instr.nop ≠ .errClear ∧ Instr.nop ≠ .softReset ∧ exec .nop fresh = .next t) :=
  ⟨by decide, by decide, ⟨_, rfl, rfl⟩, ⟨_, by decide, by decide, rfl⟩⟩

/-- The three ways in which it is the core's turn. -/
theorem witness_CoreMoves :
    CoreMoves fresh fresh ∧ CoreMoves { fresh with inputs := [.coreTurn] } fresh ∧
    CoreMoves { State.reset with inputs := [.wait 0] } { State.reset with inputs := [.wait 0] } :=
  ⟨.inl ⟨rfl, rfl⟩, .inr (.inl ⟨[], rfl, rfl⟩), .inr (.inr ⟨[], rfl, rfl, rfl⟩)⟩

/-- The word is pending, the initialisation job has run, and it is the core's turn. -/
def ReadyFor (w : Word) (s : State) : Prop :=
  CoreMoves (pending w s) (pending w s) ∧ (pending w s).initPending = false ∧ (pending w s).pend.valid = true ∧
    (pending w s).pend.word = w ∧ (pending w s).err = s.err

theorem ready {s : State} (w : Word) (h : s.inputs = []) (hi : s.initPending = false) : ReadyFor w s :=
  ⟨.inl ⟨h, rfl⟩, hi, rfl, rfl, rfl⟩

theorem witness_StepRunsThePendingCommand : ReadyFor 0x00000141#32 atRoot ∧ decode 0x00000141#32 = .command (.decBit true) :=
  ⟨ready _ rfl rfl, by decide⟩

/-- One state for each arm of the dispatch. -/
theorem witness_DispatchFollowsItsOrder :
    (CoreMoves State.reset State.reset ∧ State.reset.initPending = true) ∧
    (CoreMoves fresh fresh ∧ fresh.initPending = false ∧ fresh.pend.valid = false) ∧
    (ReadyFor 0x01#32 failed ∧ failed.err = true ∧ decode 0x01#32 = .command .softReset) ∧
    (ReadyFor 0x02#32 failed ∧ failed.err = true ∧ decode 0x02#32 = .command .errClear) ∧
    (ReadyFor 0x04#32 failed ∧ failed.err = true ∧ decode 0x04#32 ≠ .command .softReset ∧ decode 0x04#32 ≠ .command .errClear) ∧
    (ReadyFor 0x04#32 fresh ∧ fresh.err = false ∧ decode 0x04#32 = .illegal .undefinedOpcode) ∧
    (ReadyFor 0x10011#32 fresh ∧ fresh.err = false ∧ decode 0x10011#32 = .illegal .reservedBits) ∧
    (ReadyFor 0x11#32 fresh ∧ fresh.err = false ∧ decode 0x11#32 = .command .serialize ∧ ¬ SpecAllowed .serialize fresh) ∧
    (ReadyFor 0x11#32 built ∧ built.err = false ∧ decode 0x11#32 = .command .serialize ∧ SpecAllowed .serialize built) :=
  ⟨⟨.inl ⟨rfl, rfl⟩, rfl⟩, ⟨.inl ⟨rfl, rfl⟩, rfl, rfl⟩, ⟨ready _ rfl rfl, by decide⟩, ⟨ready _ rfl rfl, by decide⟩,
    ⟨ready _ rfl rfl, by decide⟩, ⟨ready _ rfl rfl, by decide⟩, ⟨ready _ rfl rfl, by decide⟩,
    ⟨ready _ rfl rfl, rfl, by decide, by unfold SpecAllowed; decide⟩, ⟨ready _ rfl rfl, rfl, by decide, .inl rfl⟩⟩

theorem witness_IllegalWordsRaiseIllegalCmd :
    (ReadyFor 0x04#32 fresh ∧ fresh.err = false ∧ decode 0x04#32 = .illegal .undefinedOpcode) ∧
    (ReadyFor 0x100#32 fresh ∧ fresh.err = false ∧ decode 0x100#32 = .illegal .reservedBits) ∧
    (ReadyFor 0x100#32 failed ∧ failed.err = true ∧ decode 0x100#32 = .illegal .reservedBits) :=
  ⟨⟨ready _ rfl rfl, by decide⟩, ⟨ready _ rfl rfl, by decide⟩, ⟨ready _ rfl rfl, by decide⟩⟩

theorem witness_ErrorsDoNotNest :
    (failed.err = true ∧ Instr.build ≠ .errClear ∧ Instr.build ≠ .softReset) ∧
    (ReadyFor 0x10#32 failed ∧ failed.err = true ∧ decode 0x10#32 ≠ .command .errClear ∧ decode 0x10#32 ≠ .command .softReset) :=
  ⟨by decide, ready _ rfl rfl, by decide⟩

theorem witness_CommandsOutOfSequenceRaiseSequence :
    (fresh.err = false ∧ ¬ SpecAllowed (.decBit true) fresh) ∧
    (∃ t, SpecAllowed .build fresh ∧ exec .build fresh = .next t ∧ t.err = true) ∧
    (openRow.err = false ∧ openRow.treeState = .loading ∧ openRow.rowOpen = true) ∧
    (loading.err = false ∧ loading.treeState = .loading ∧ loading.rowOpen = false) :=
  ⟨⟨rfl, by unfold SpecAllowed; decide⟩, ⟨_, trivial, rfl, by decide +kernel⟩, by decide, by decide⟩

theorem witness_CommandsRaiseOnlyTheirListedErrors :
    ∃ t, built.err = false ∧ exec .loadEnd built = .next t ∧ t.err = true := ⟨_, rfl, rfl, by decide +kernel⟩

/-- Every command completes without an error somewhere. -/
theorem witness_CommandsWriteOnlyTheirListedState :
    ∀ p ∈ [(Instr.nop, built), (.softReset, built), (.errClear, built), (.freqClear, built), (.build, counted), (.serialize, built),
      (.encode 0x42#8, serialized), (.loadBegin, built), (.loadSym, loading), (.loadChar 0x30#8, openRow), (.loadRowEnd, halfRow),
      (.loadEnd, twoRows), (.decBegin, built), (.decBit true, atRoot), (.decEnd, atRoot)],
      p.2.err = false ∧ after p.1 p.2 (fun t => !t.err) = true := by decide +kernel

/-- Each code of R225's rows is raised somewhere. -/
theorem witness_ErrorsHaveTheirListedEffects :
    (∀ p ∈ [(Instr.build, fresh, 1#8), (.loadEnd, loading, 2#8), (.decEnd, descending, 3#8), (.decBit true, singleSession, 4#8),
      (.decEnd, built, 5#8), (.encode 0x47#8, serialized, 6#8)],
      p.2.1.err = false ∧ after p.1 p.2.1 (fun t => t.err && t.errReg.code == p.2.2) = true) ∧
    (ReadyFor 0x04#32 built ∧ built.err = false ∧ decode 0x04#32 = .illegal .undefinedOpcode) ∧
    (counted.err = false ∧ after .build counted (fun t => !t.err) = true) ∧
    (serialized.err = false ∧ after .loadBegin serialized (fun t => !t.err) = true) :=
  ⟨by decide +kernel, ⟨ready _ rfl rfl, by decide⟩, by decide +kernel, by decide +kernel⟩

theorem witness_CommandAcceptanceAndExecutionAreTwoSteps :
    fresh.busy = false ∧ CoreMoves fresh fresh ∧
    (∃ s, Inv s ∧ CoreMoves s s ∧ s.busy = true) :=
  ⟨rfl, .inl ⟨rfl, rfl⟩, pending 0x10#32 fresh,
    inv_of ⟨rfl, rfl, rfl, rfl, rfl, rfl⟩ (by decide) (by decide) (by decide) rfl rfl rfl rfl, .inl ⟨rfl, rfl⟩, rfl⟩

theorem witness_HardwareResetSetsEveryRegister :
    ({ serialized with inputs := [.reset] } : State).inputs = .reset :: [] ∧ State.reset.reads = serialized.reads ∧
    State.reset.draws = serialized.draws := ⟨rfl, rfl, rfl⟩

theorem witness_InitialisationJobClearsFreq :
    CoreMoves State.reset State.reset ∧ State.reset.initPending = true ∧ State.reset.pend.valid = false ∧
    4 * (0x01FF#14).toNat < 0x0800 := ⟨.inl ⟨rfl, rfl⟩, rfl, rfl, by decide⟩

theorem witness_NopMovesNothing : (0xFFFFFF00#32).extractLsb' 0 8 = 0#8 ∧ (0xFFFFFF00#32) ≠ 0#32 := by decide

theorem witness_SoftResetResetsEverything : (pending 0x01#32 failed).pend.valid = true ∧ (0x3FFF#14) ≠ 0#14 := by decide

theorem witness_FreqClearClearsFreqAlone : counted.err = false ∧ descending.err = false := by decide

/-- For BuildMakesAValidTree, BuildMakesOneLeafPerUsedSymbol and BuildMergesTheTwoLeastEntries: k = 3, and k = 1. -/
theorem witness_Build :
    counted.err = false ∧ usedSymbols counted = [0x41#8, 0x42#8, 0x43#8] ∧ (2 : NodeIdx).val < (usedSymbols counted).length ∧
    usedSymbols single = [0x5A#8] ∧
    after .build counted (fun t => decide ((usedSymbols counted).length ≤ (3 : NodeIdx).val) && decide ((4 : NodeIdx).val < t.nodeCount.val)) =
      true := by decide +kernel

theorem witness_BuildOfNothingRaisesConstruction : fresh.err = false ∧ ∀ sym, fresh.freqAt sym = 0#32 := ⟨rfl, fun _ => rfl⟩

theorem witness_SingleSymbolAlphabetIsDegenerate : single.err = false ∧ usedSymbols single = [0x5A#8] := by decide +kernel

/-- For SerializeWritesOneRowPerLeafInPreOrder and SerializerGuarantees. -/
theorem witness_Serialize :
    Inv built ∧ built.err = false ∧ built.treeState = .built ∧ 2 ≤ built.leafCount.toNat ∧
    descend built.nodes built.root [true, false] = some 1 ∧ built.nodes[(1 : NodeIdx)].isLeaf = true :=
  ⟨built_inv, rfl, rfl, by decide, by decide +kernel, by decide +kernel⟩

theorem witness_CodeTableIsPrefixFree :
    Inv serialized ∧ serialized.ctValid = true ∧ (2 : Fin 256).val < serialized.rowCount.toNat ∧ (0 : Fin 256) ≠ 2 :=
  ⟨serialized_inv, rfl, by decide, by decide⟩

theorem witness_EncodeReturnsTheSymbolsRow :
    (built.err = false ∧ built.ctValid = false) ∧
    (serialized.err = false ∧ serialized.ctValid = true ∧ (2 : Fin 256).val < serialized.rowCount.toNat ∧
      serialized.ct[(2 : Fin 256)].sym = 0x43#8 ∧
      ∀ r' : Fin 256, r'.val < serialized.rowCount.toNat → serialized.ct[r'].sym = 0x43#8 → r' = 2) ∧
    (serialized.err = false ∧ serialized.ctValid = true ∧
      ∀ r : Fin 256, r.val < serialized.rowCount.toNat → serialized.ct[r].sym ≠ 0x47#8) ∧
    (singleTable.err = false ∧ Inv singleTable ∧ singleTable.ctValid = true ∧ singleTable.leafCount = 1#9) :=
  ⟨by decide, by decide +kernel, by decide +kernel, rfl, singleTable_inv, rfl, rfl⟩

theorem witness_StaleInputsAreRefused :
    (∃ t, counted.err = false ∧ exec .build counted = .next t ∧ t.err = false) ∧
    (∃ t, atRoot.err = false ∧ exec .loadBegin atRoot = .next t ∧ t.err = false) :=
  ⟨⟨_, rfl, rfl, by decide +kernel⟩, ⟨_, rfl, rfl, rfl⟩⟩

theorem witness_LoadBeginOpensAnEmptyLoad : descending.err = false ∧ descending.overrun = false ∧ descending.initPending = false := by
  decide

/-- The block is loading, without an error, and a row is open or not. -/
def Loads (s : State) (row : Bool) : Prop := s.err = false ∧ s.treeState = .loading ∧ s.rowOpen = row

theorem witness_LoadSymOpensARow :
    (built.err = false ∧ built.treeState ≠ .loading) ∧ Loads openRow true ∧
    (Loads { loading with data := 256#32 } false ∧ 255 < (256#32).toNat) ∧
    ((Loads oneRow false ∧ oneRow.data.toNat ≤ 255) ∧
      ∃ i : NodeIdx, i.val < oneRow.nodeCount.val ∧ oneRow.nodes[i].sym = some (oneRow.data.extractLsb' 0 8)) ∧
    (Loads { oneRow with data := 255#32 } false ∧ (255#32).toNat ≤ 255 ∧
      ∀ i : NodeIdx, i.val < oneRow.nodeCount.val → oneRow.nodes[i].sym ≠ some ((255#32).extractLsb' 0 8)) :=
  ⟨by decide, ⟨rfl, rfl, rfl⟩, ⟨⟨rfl, rfl, rfl⟩, by decide⟩, ⟨⟨⟨rfl, rfl, rfl⟩, by decide⟩, 1, by decide, by decide +kernel⟩,
    ⟨rfl, rfl, rfl⟩, by decide, by decide +kernel⟩

theorem witness_LoadCharDescendsOrMakesAChild :
    (built.err = false ∧ built.treeState ≠ .loading) ∧ Loads loading false ∧
    (Loads openRow true ∧ (0x2F#8) ≠ 0x30#8 ∧ (0x2F#8) ≠ 0x31#8 ∧ (0x32#8) ≠ 0x30#8 ∧ (0x32#8) ≠ 0x31#8) ∧
    (0x30#8) = (if false then 0x31#8 else 0x30#8) ∧ (0x31#8) = (if true then 0x31#8 else 0x30#8) ∧
    (Loads (secondRow 0 255#8) true ∧ (secondRow 0 255#8).loadCur.len = 255#8) ∧
    (Loads (secondRow 1 1#8) true ∧ (secondRow 1 1#8).loadCur.len ≠ 255#8 ∧
      (secondRow 1 1#8).nodes[(secondRow 1 1#8).loadCur.node].sym.isSome = true) ∧
    ((Loads (secondRow 0 254#8) true ∧ (secondRow 0 254#8).loadCur.len ≠ 255#8) ∧
      (secondRow 0 254#8).nodes[(secondRow 0 254#8).loadCur.node].sym = none ∧
      (secondRow 0 254#8).nodes[(secondRow 0 254#8).loadCur.node].left = some 1 ∧
      (secondRow 0 254#8).nodes[(secondRow 0 254#8).loadCur.node].right = none ∧
      (2 : NodeIdx).val = (secondRow 0 254#8).nodeCount.val ∧
      (secondRow 0 254#8).loadCur.node.val < (secondRow 0 254#8).nodeCount.val) ∧
    (Loads { secondRow 0 254#8 with nodeCount := 511 } true ∧ ({ secondRow 0 254#8 with nodeCount := 511 } : State).nodeCount.val = 511) ∧
    (Loads openRow true ∧ Inv openRow) :=
  ⟨by decide, ⟨rfl, rfl, rfl⟩, ⟨⟨rfl, rfl, rfl⟩, by decide⟩, by decide, by decide, ⟨⟨rfl, rfl, rfl⟩, by decide⟩,
    ⟨⟨rfl, rfl, rfl⟩, by decide +kernel⟩, ⟨⟨⟨rfl, rfl, rfl⟩, by decide⟩, by decide +kernel⟩, ⟨⟨rfl, rfl, rfl⟩, rfl⟩,
    ⟨rfl, rfl, rfl⟩, openRow_inv⟩

theorem witness_LoadRowEndLabelsTheNode :
    (built.err = false ∧ built.treeState ≠ .loading) ∧ Loads loading false ∧
    (Loads (secondRow 1 1#8) true ∧ (secondRow 1 1#8).nodes[(secondRow 1 1#8).loadCur.node].sym.isSome = true) ∧
    (Loads (secondRow 0 0#8) true ∧ (secondRow 0 0#8).nodes[(secondRow 0 0#8).loadCur.node].sym = none ∧
      (secondRow 0 0#8).nodes[(secondRow 0 0#8).loadCur.node].left.isSome = true) ∧
    (Loads openRow true ∧ openRow.nodes[openRow.loadCur.node].sym = none ∧
      openRow.nodes[openRow.loadCur.node].left = none ∧ openRow.nodes[openRow.loadCur.node].right = none) :=
  ⟨by decide, ⟨rfl, rfl, rfl⟩, ⟨⟨rfl, rfl, rfl⟩, by decide +kernel⟩, ⟨⟨rfl, rfl, rfl⟩, by decide +kernel⟩, ⟨rfl, rfl, rfl⟩,
    by decide +kernel⟩

theorem witness_LoadEndAcceptsCompleteTreesOnly :
    (built.err = false ∧ built.treeState ≠ .loading) ∧ Loads openRow true ∧ (Loads loading false ∧ loading.leafCount = 0#9) ∧
    ((Loads oneRow false ∧ oneRow.leafCount ≠ 0#9) ∧
      ∃ i : NodeIdx, i.val < oneRow.nodeCount.val ∧ oneRow.nodes[i].sym = none ∧ (oneRow.nodes[i].left = none ∨ oneRow.nodes[i].right = none)) ∧
    ((Loads twoRows false ∧ twoRows.leafCount ≠ 0#9) ∧
      ∀ i : NodeIdx, i.val < twoRows.nodeCount.val → twoRows.nodes[i].sym.isSome = true ∨
        (twoRows.nodes[i].left.isSome = true ∧ twoRows.nodes[i].right.isSome = true)) ∧
    (Loads twoRows false ∧ Inv twoRows ∧ ∃ t, exec .loadEnd twoRows = .next t ∧ t.treeState = .loaded) :=
  ⟨by decide, ⟨rfl, rfl, rfl⟩, ⟨⟨rfl, rfl, rfl⟩, by decide⟩,
    ⟨⟨⟨rfl, rfl, rfl⟩, by decide⟩, 0, by decide, by decide +kernel, by decide +kernel⟩,
    ⟨⟨⟨rfl, rfl, rfl⟩, by decide⟩, by decide +kernel⟩, ⟨rfl, rfl, rfl⟩, twoRows_inv, _, rfl, by decide +kernel⟩

theorem witness_NoNodeHasBothSymbolAndChild :
    Inv oneRow ∧ (1 : NodeIdx).val < oneRow.nodeCount.val ∧ oneRow.nodes[(1 : NodeIdx)].sym ≠ none :=
  ⟨oneRow_inv, by decide, by decide +kernel⟩

/-- Each of the four commands raises FORMAT somewhere. -/
theorem witness_FormatErrorsEndTheLoad :
    ∀ p ∈ [(Instr.loadSym, openRow), (.loadChar 0x32#8, openRow), (.loadRowEnd, loading), (.loadEnd, oneRow)],
      p.1 ∈ [Instr.loadSym, .loadChar 0x32#8, .loadRowEnd, .loadEnd] ∧ p.2.err = false ∧
      after p.1 p.2 (fun t => t.err && t.errReg.code == 2#8) = true := by decide +kernel

/-- The row of a degenerate table and its program, with the WAITs reading 2, 0, 1 and 3 times before the core's step. -/
theorem witness_LoadingASerializedTableRestoresIt :
    (Inv serialized ∧ serialized.busy = false ∧ serialized.inputs = [] ∧ serialized.err = false ∧ serialized.ctValid = true ∧
      Script.Performs (Script.loadTable (tableOf serialized)) (Script.loadTable (tableOf serialized))) ∧
    (Inv singleTable ∧ singleTable.busy = false ∧ singleTable.inputs = [] ∧ singleTable.err = false ∧ singleTable.ctValid = true ∧
      Script.Performs [.write 1#14 0x20#32, .wait 2, .write 2#14 0x5A#32, .write 1#14 0x21#32, .wait 0, .write 1#14 0x23#32, .wait 1,
        .write 1#14 0x24#32, .wait 3] (Script.loadTable (tableOf singleTable))) :=
  ⟨⟨serialized_inv, rfl, rfl, rfl, rfl, by unfold Script.Performs; decide +kernel⟩,
    ⟨singleTable_inv, rfl, rfl, rfl, rfl, by unfold Script.Performs; decide +kernel⟩⟩

theorem witness_DecBeginOpensASession :
    (loading.err = false ∧ loading.treeState ≠ .built ∧ loading.treeState ≠ .loaded) ∧
    (descending.err = false ∧ descending.treeState = .built) := by decide

theorem witness_DecBitMovesTheCursor :
    (built.err = false ∧ built.decState = .idle) ∧
    (singleSession.err = false ∧ singleSession.decState ≠ .idle ∧ singleSession.nodes[singleSession.cursor.node].right = none) ∧
    (atRoot.err = false ∧ atRoot.decState ≠ .idle ∧ atRoot.nodes[atRoot.cursor.node].left = some 0 ∧
      atRoot.nodes[(0 : NodeIdx)].sym = some 0x41#8) ∧
    (atRoot.err = false ∧ atRoot.decState ≠ .idle ∧ atRoot.nodes[atRoot.cursor.node].right = some 3 ∧ atRoot.nodes[(3 : NodeIdx)].sym = none) ∧
    (descending.err = false ∧ Inv descending ∧ descending.decState ≠ .idle) ∧ (Inv singleSession ∧ singleSession.decState ≠ .idle) :=
  ⟨by decide, by decide +kernel, by decide +kernel, by decide +kernel, ⟨rfl, descending_inv, by decide⟩, ⟨singleSession_inv, by decide⟩⟩

theorem witness_DegenerateTreesCannotBeDecoded :
    single.err = false ∧ single.treeState = .built ∧ single.nodes[single.root].isLeaf = true := by decide +kernel

theorem witness_DecEndReportsTruncation :
    (built.err = false ∧ built.decState = .idle) ∧ (atRoot.err = false ∧ atRoot.decState = .atRoot) ∧
    (descending.err = false ∧ descending.decState = .descending ∧ Inv descending) :=
  ⟨by decide, by decide, rfl, rfl, descending_inv⟩

theorem witness_DecodingAnEncodedSequenceGivesItBack :
    Inv serialized ∧ serialized.err = false ∧ serialized.ctValid = true ∧ 2 ≤ serialized.leafCount.toNat ∧
    ∀ r ∈ [(⟨0x43#8, 2#8, 3#256⟩ : Row), ⟨0x41#8, 1#8, 0#256⟩], r ∈ serialized.liveRows :=
  ⟨serialized_inv, rfl, rfl, by decide, by decide +kernel⟩

theorem witness_TruncatedCodeWordsAreReported :
    Inv serialized ∧ serialized.err = false ∧ serialized.ctValid = true ∧ (⟨0x42#8, 2#8, 1#256⟩ : Row) ∈ serialized.liveRows ∧
    (⟨0x42#8, 2#8, 1#256⟩ : Row).bits = [true] ++ [false] ∧ [true] ≠ [] ∧ [false] ≠ [] :=
  ⟨serialized_inv, rfl, rfl, by decide +kernel, by decide, by decide, by decide⟩

/-- For EveryStepKeepsTheInvariant, NoStepStops and StateInvariantsHoldAfterEveryStep. -/
theorem witness_Invariant :
    (Inv failed ∧ step failed = .next failed) ∧ Inv descending ∧ Inv openRow ∧
    core.run 0 { State.reset with inputs := [] } = .next State.reset :=
  ⟨⟨failed_inv, rfl⟩, descending_inv, openRow_inv, rfl⟩

theorem witness_LoadedNodesKeepTheSentinelFrequency : LoadedSentinel twoRows ∧ step twoRows = .next twoRows :=
  ⟨fun _ => by decide +kernel, rfl⟩

/-- The sum of an internal node, where it is one. -/
def sumAt (s : State) (i : NodeIdx) : Bool :=
  match s.nodes[i].left, s.nodes[i].right with
  | some a, some b => s.nodes[i].nfreq == s.nodes[a].nfreq + s.nodes[b].nfreq
  | _, _ => true

theorem sum_of_sumAt {s : State} {i a b : NodeIdx} (h : sumAt s i = true) (ha : s.nodes[i].left = some a)
    (hb : s.nodes[i].right = some b) : s.nodes[i].nfreq = s.nodes[a].nfreq + s.nodes[b].nfreq := by
  unfold sumAt at h
  rw [ha, hb] at h
  exact eq_of_beq h

/-- The sums of V-B3, node by node. -/
theorem built_sums : ∀ i : NodeIdx, i.val < 5 → sumAt built i = true := by decide +kernel

theorem witness_BuiltNodesKeepTheSumOfTheirChildren : BuiltSums built ∧ step built = .next built :=
  ⟨fun _ i _ _ hi ha hb => sum_of_sumAt (built_sums i hi) ha hb, rfl⟩

theorem witness_StaleEntriesNeverMatter :
    Inv fresh ∧ SameLive fresh { fresh with nodes := nodesOf [leaf 0x41#8 1#40], ct := serialized.ct, pend := ⟨false, 0xFF#32⟩ } ∧
    step fresh = .next fresh :=
  ⟨fresh_inv, ⟨rfl, fun _ h => absurd h (Nat.not_lt_zero _), fun _ h => absurd h (Nat.not_lt_zero _), rfl, fun h => absurd h (by decide)⟩,
    rfl⟩

theorem witness_WaitEndsOnceTheCommandIsFinished :
    (({ fresh with inputs := [.wait 0] } : State).inputs = .wait 0 :: [] ∧ ({ fresh with inputs := [.wait 0] } : State).busy = false) ∧
    (∃ s, Inv s ∧ s.inputs = .wait 3 :: [.coreTurn] ∧ s.busy = true) :=
  ⟨⟨rfl, rfl⟩, { pending 0x10#32 fresh with inputs := .wait 3 :: [.coreTurn] },
    inv_of ⟨rfl, rfl, rfl, rfl, rfl, rfl⟩ (by decide) (by decide) (by decide) rfl rfl rfl rfl, rfl, rfl⟩

end Sys2Proof.Tests
end

section
/-! SUPPORT. What each command's rule can do, said once, and what it takes for a property to be kept by every step. -/

namespace Sys2Proof.Machine

/-! ## The rule of each command, without the dispatch around it (R226) -/

/-- The rule of a command: what its step does where the dispatch lets it through (R226). -/
def commandRule (i : Instr) (s : State) : Host.Outcome State Fault Refusal :=
  match i with
  | .nop => .next s
  | .softReset => .next s.softReset
  | .errClear => .next s.clearError
  | .freqClear => .next { s with freq := [] }
  | .build => .next (buildTree s)
  | .serialize => serializeTree s
  | .loadBegin => .next (loadBegin s)
  | .loadSym => .next (loadSym s)
  | .loadChar c => .next (loadChar c s)
  | .loadRowEnd => .next (loadRowEnd s)
  | .loadEnd => .next (loadEnd s)
  | .encode sym => .next (encodeSymbol sym s)
  | .decBegin => .next (decBegin s)
  | .decBit b => .next (decBit b s)
  | .decEnd => .next (decEnd s)

theorem exec_eq_runCommand {i : Instr} (hr : i ≠ .softReset) (he : i ≠ .errClear) (s : State) :
    exec i s = runCommand i (commandRule i) s := by
  cases i
  case softReset => exact absurd rfl hr
  case errClear => exact absurd rfl he
  all_goals rfl

/-- Everything a command can do when it answers a next state: it is discarded, it raises SEQUENCE, or it follows its rule (R226). -/
theorem exec_cases {i : Instr} {s t : State} (h : exec i s = .next t) :
    (s.err = true ∧ i ≠ .softReset ∧ i ≠ .errClear ∧ t = s.complete) ∨
    (s.err = false ∧ allowed i s = false ∧ t = (s.raise i.opcode .sequence).complete) ∨
    ((s.err = true → i = .softReset ∨ i = .errClear) ∧ allowed i s = true ∧ ∃ u, commandRule i s = .next u ∧ t = u.complete) := by
  by_cases hr : i = .softReset
  · subst hr
    exact .inr (.inr ⟨fun _ => .inl rfl, rfl, _, rfl, (Host.Outcome.next.inj h).symm⟩)
  by_cases hc : i = .errClear
  · subst hc
    exact .inr (.inr ⟨fun _ => .inr rfl, rfl, _, rfl, (Host.Outcome.next.inj h).symm⟩)
  rw [exec_eq_runCommand hr hc] at h
  rcases runCommand_cases h with ⟨he, ht⟩ | ⟨he, ha, u, hu, ht⟩ | ⟨he, ha, ht⟩
  · exact .inl ⟨he, hr, hc, ht⟩
  · exact .inr (.inr ⟨fun h1 => absurd (he.symm.trans h1) Bool.false_ne_true, ha, u, hu, ht⟩)
  · exact .inr (.inl ⟨he, ha, ht⟩)

/-! ## Each rule: the errors it raises, or what it writes -/

/-- LOAD_SYM's rule (R162). -/
theorem loadSym_cases (s : State) :
    (∃ sub, loadSym s = s.raise Instr.loadSym.opcode (.format sub)) ∨
    ∃ sym, s.rowOpen = false ∧ s.dataSymbol = some sym ∧ (∀ i : NodeIdx, i.val < s.nodeCount.val → s.nodes[i].sym ≠ some sym) ∧
      loadSym s = { s with rowOpen := true, loadCur := ⟨sym, 0#8, s.root⟩ } := by
  cases ho : s.rowOpen with
  | true => exact .inl ⟨.incompleteRow, by simp [loadSym, ho]⟩
  | false =>
    cases hd : s.dataSymbol with
    | none => exact .inl ⟨.codepointRange, by simp [loadSym, ho, hd]⟩
    | some sym =>
      cases hl : s.liveNodes.any (fun n => n.sym == some sym) with
      | true => exact .inl ⟨.duplicateSymbol, by simp only [loadSym, ho, hd, hl, if_true, Bool.false_eq_true, if_false]⟩
      | false =>
        refine .inr ⟨sym, rfl, rfl, fun i hi he => ?_, by simp only [loadSym, ho, hd, hl, Bool.false_eq_true, if_false]⟩
        have hall := List.any_eq_false.1 hl _ (State.mem_liveNodes.2 ⟨i, hi, rfl⟩)
        exact hall (beq_iff_eq.2 he)

/-- LOAD_CHAR's rule (R163). -/
theorem loadChar_cases (c : Byte) (s : State) :
    (∃ sub, loadChar c s = s.raise (Instr.loadChar c).opcode (.format sub)) ∨
    ∃ b j s', s.rowOpen = true ∧ s.loadCur.len ≠ 255#8 ∧ s.nodes[s.loadCur.node].sym = none ∧
      s.descendOrMake s.loadCur.node b = some (j, s') ∧
      loadChar c s = { s' with loadCur := { s.loadCur with node := j, len := s.loadCur.len + 1#8 } } := by
  cases ho : s.rowOpen with
  | false => exact .inl ⟨.incompleteRow, by simp [loadChar, ho]⟩
  | true =>
    cases hc : charBit c with
    | none => exact .inl ⟨.badChar, by simp [loadChar, ho, hc]⟩
    | some b =>
      by_cases hl : s.loadCur.len = 255#8
      · exact .inl ⟨.pathTooLong, by simp [loadChar, ho, hc, hl]⟩
      cases hs : s.nodes[s.loadCur.node].sym with
      | some sym => exact .inl ⟨.pathThroughLeaf, by simp [-Fin.getElem_fin, loadChar, ho, hc, hl, hs]⟩
      | none =>
        cases hd : s.descendOrMake s.loadCur.node b with
        | none => exact .inl ⟨.capacity, by simp [-Fin.getElem_fin, loadChar, ho, hc, hl, hs, hd]⟩
        | some p =>
          exact .inr ⟨b, p.1, p.2, rfl, hl, rfl, hd, by simp [-Fin.getElem_fin, loadChar, ho, hc, hl, hs, hd]⟩

/-- LOAD_ROW_END's rule (R166, R167). -/
theorem loadRowEnd_cases (s : State) :
    (∃ sub, loadRowEnd s = s.raise Instr.loadRowEnd.opcode (.format sub)) ∨
    s.rowOpen = true ∧ s.nodes[s.loadCur.node].sym = none ∧ s.nodes[s.loadCur.node].left = none ∧
      s.nodes[s.loadCur.node].right = none ∧
      loadRowEnd s =
        { s.setNode s.loadCur.node { s.nodes[s.loadCur.node] with sym := some s.loadCur.sym } with
          leafCount := s.leafCount + 1#9, rowOpen := false, loadCur := ⟨0#8, 0#8, 0⟩ } := by
  cases ho : s.rowOpen with
  | false => exact .inl ⟨.incompleteRow, by simp [loadRowEnd, ho]⟩
  | true =>
    cases hs : s.nodes[s.loadCur.node].sym with
    | some sym => exact .inl ⟨.duplicatePath, by simp [-Fin.getElem_fin, loadRowEnd, ho, hs]⟩
    | none =>
      cases hl : s.nodes[s.loadCur.node].left with
      | some a => exact .inl ⟨.assignToInternal, by simp [-Fin.getElem_fin, loadRowEnd, ho, hs, hl]⟩
      | none =>
        cases hr : s.nodes[s.loadCur.node].right with
        | some a => exact .inl ⟨.assignToInternal, by simp [-Fin.getElem_fin, loadRowEnd, ho, hs, hl, hr]⟩
        | none => exact .inr ⟨rfl, rfl, rfl, rfl, by simp [-Fin.getElem_fin, loadRowEnd, ho, hs, hl, hr]⟩

/-- LOAD_END's rule (R168). -/
theorem loadEnd_cases (s : State) :
    (∃ sub, loadEnd s = s.raise Instr.loadEnd.opcode (.format sub)) ∨
    s.rowOpen = false ∧ s.leafCount ≠ 0#9 ∧ (∀ i : NodeIdx, i.val < s.nodeCount.val → s.nodes[i].incomplete = false) ∧
      loadEnd s = { s with treeState := .loaded, loadCur := ⟨0#8, 0#8, 0⟩ } := by
  cases ho : s.rowOpen with
  | true => exact .inl ⟨.incompleteRow, by simp [loadEnd, ho]⟩
  | false =>
    by_cases hc : s.leafCount = 0#9
    · exact .inl ⟨.emptyTable, by simp [loadEnd, ho, hc]⟩
    cases hl : s.liveNodes.any Node.incomplete with
    | true => exact .inl ⟨.incompleteTree, by simp only [loadEnd, ho, hc, hl, if_true, Bool.false_eq_true, if_false]⟩
    | false =>
      refine .inr ⟨rfl, hc, fun i hi => ?_, by simp only [loadEnd, ho, hc, hl, Bool.false_eq_true, if_false]⟩
      exact Bool.eq_false_iff.2 (List.any_eq_false.1 hl _ (State.mem_liveNodes.2 ⟨i, hi, rfl⟩))

/-- ENCODE's rule (R142). -/
theorem encodeSymbol_cases (sym : Byte) (s : State) :
    encodeSymbol sym s = s.raise (Instr.encode sym).opcode .symbolAbsent ∨
    ∃ r ∈ s.liveRows, encodeSymbol sym s = { s with resLen := r.len, resPath := r.path } := by
  cases h : s.liveRows.find? (fun r => r.sym == sym) with
  | none => exact .inl (encodeSymbol_absent h)
  | some r => exact .inr ⟨r, List.mem_of_find?_eq_some h, encodeSymbol_found h⟩

/-- DEC_BIT's rule (R192). -/
theorem decBit_cases (b : Bool) (s : State) :
    (s.nodes[s.cursor.node].child b = none ∧
      decBit b s = { s with decState := .idle }.raise (Instr.decBit b).opcode .degenerate) ∨
    ∃ j, s.nodes[s.cursor.node].child b = some j ∧
      ((∃ sym, s.nodes[j].sym = some sym ∧ decBit b s =
          { s with decOut := ⟨true, sym⟩, decCount := s.decCount + 1#32, cursor := ⟨s.root, 0#8⟩, decState := .atRoot }) ∨
        (s.nodes[j].sym = none ∧ decBit b s =
          { s with decOut := ⟨false, 0#8⟩, cursor := ⟨j, s.cursor.pending + 1#8⟩, decState := .descending })) := by
  cases hc : s.nodes[s.cursor.node].child b with
  | none => exact .inl ⟨rfl, by simp only [decBit, hc]⟩
  | some j =>
    refine .inr ⟨j, rfl, ?_⟩
    cases hs : s.nodes[j].sym with
    | some sym => exact .inl ⟨sym, rfl, by simp only [decBit, hc, hs]⟩
    | none => exact .inr ⟨rfl, by simp only [decBit, hc, hs]⟩

/-- DEC_END's rule (R195). -/
theorem decEnd_cases (s : State) :
    decEnd s = { s with decState := .idle }.raise Instr.decEnd.opcode .truncated ∨ decEnd s = { s with decState := .idle } := by
  by_cases h : s.decState = .descending
  · exact .inl (if_pos h)
  · exact .inr (if_neg h)

/-- BUILD's work space when the leaf loop starts (R120). -/
def Builder.start (s : State) : Builder := ⟨s.nodes, [], 0, 0⟩

/-- BUILD's work space after the leaf loop (R121). -/
def Builder.leavesOf (s : State) : Builder := Builder.leaves s.freq (Builder.start s)

/-- BUILD's work space after the merge loop (R124). -/
def Builder.builtOf (s : State) : Builder := Builder.merges Config.syms (Builder.leavesOf s)

/-- The state that BUILD leaves where there is a leaf (R125). -/
def Builder.result (s : State) : State :=
  { s.discardTree with
    nodes := (Builder.builtOf s).nodes
    root := ((Builder.builtOf s).queue.head?.map QEntry.idx).getD 0
    nodeCount := Fin.ofNat 512 (Builder.builtOf s).n
    leafCount := BitVec.ofNat 9 (Builder.leavesOf s).n
    treeState := .built }

/-- BUILD's rule (R120, R125, R126). -/
theorem buildTree_cases (s : State) :
    ((Builder.leavesOf s).n = 0 ∧ buildTree s = s.discardTree.raise Instr.build.opcode .construction) ∨
    ((Builder.leavesOf s).n ≠ 0 ∧ buildTree s = Builder.result s) := by
  by_cases h : (Builder.leavesOf s).n = 0
  · exact .inl ⟨h, if_pos h⟩
  · exact .inr ⟨h, if_neg h⟩

/-! ## A property that every step keeps -/

/-- What it takes for a property to be kept by every step: the reset gives it, and the accesses, the core's own operations and every
command's rule keep it. -/
structure Kept (P : State → Prop) : Prop where
  reset : ∀ s : State, P s.hardwareReset
  outside : ∀ (s : State) (inputs : List Input) (reads : List Word) (draws : Nat), P s →
    P { s with inputs := inputs, reads := reads, draws := draws }
  write : ∀ (s : State) (a : WordAddr) (v : Word), P s → P (s.hostWrite a v)
  initJob : ∀ s : State, P s → P s.initJob
  raise : ∀ (s : State) (op : Byte) (e : ErrorKind), P s → P (s.raise op e)
  complete : ∀ s : State, P s → P s.complete
  rule : ∀ (i : Instr) (s t : State), P s → allowed i s = true → commandRule i s = .next t → P t

namespace Kept

variable {P : State → Prop}

theorem exec (hP : Kept P) {i : Instr} {s t : State} (hs : P s) (h : exec i s = .next t) : P t := by
  rcases exec_cases h with ⟨-, -, -, rfl⟩ | ⟨-, -, rfl⟩ | ⟨-, ha, u, hu, rfl⟩
  · exact hP.complete s hs
  · exact hP.complete _ (hP.raise s _ _ hs)
  · exact hP.complete u (hP.rule i s u hs ha hu)

theorem runIllegal (hP : Kept P) {w : Word} {why : Illegal} {s t : State} (hs : P s) (h : runIllegal w why s = .next t) : P t := by
  rcases runIllegal_cases h with ⟨-, rfl⟩ | ⟨-, rfl⟩
  · exact hP.complete s hs
  · exact hP.complete _ (hP.raise s _ _ hs)

theorem coreStep (hP : Kept P) {s t : State} (hs : P s) (h : coreStep s = .next t) : P t := by
  rcases coreStep_cases h with ⟨-, rfl⟩ | ⟨-, -, i, -, hi⟩ | ⟨-, -, why, -, hw⟩ | ⟨-, -, rfl⟩
  · exact hP.initJob s hs
  · exact hP.exec hs hi
  · exact hP.runIllegal hs hw
  · exact hs

theorem waitTurn (hP : Kept P) {polls : Nat} {rest : List Input} {s t : State} (hs : P s) (h : waitTurn polls rest s = .next t) :
    P t := by
  rcases waitTurn_cases h with ⟨-, rfl⟩ | ⟨-, k, -, rfl⟩ | ⟨-, -, hc⟩
  · exact hP.outside s _ _ _ hs
  · exact hP.outside s _ _ _ hs
  · exact hP.coreStep hs hc

/-- Every step keeps the property. -/
theorem step (hP : Kept P) {s t : State} (hs : P s) (h : step s = .next t) : P t := by
  have hrest : ∀ rest : List Input, P { s with inputs := rest } := fun rest => hP.outside s rest s.reads s.draws hs
  rcases step_cases h with ⟨-, hc⟩ | ⟨rest, -, hc⟩ | ⟨a, rest, -, rfl⟩ | ⟨a, v, rest, -, rfl⟩ | ⟨rest, -, rfl⟩ | ⟨polls, rest, -, hw⟩
  · exact hP.coreStep hs hc
  · exact hP.coreStep (hrest rest) hc
  · exact hP.outside _ _ _ _ (hrest rest)
  · exact hP.write _ a v (hrest rest)
  · exact hP.reset _
  · exact hP.waitTurn hs hw

/-- Every run keeps the property. -/
theorem run (hP : Kept P) {n : Nat} {s t : State} (hs : P s) (h : core.run n s = .next t) : P t := by
  induction n generalizing s with
  | zero => exact Host.Outcome.next.inj h ▸ hs
  | succ n ih =>
    cases hstep : core.step s with
    | next u => exact ih (hP.step hs hstep) (by simpa only [Host.Core.run, hstep] using h)
    | fault r => simp [Host.Core.run, hstep] at h
    | refused r => simp [Host.Core.run, hstep] at h

end Kept

end Sys2Proof.Machine
end

section
/-! SUPPORT. What a command writes where it raises no error, row by row of 10_state.md R46. -/

namespace Sys2Proof.Safety

open Sys2Proof.Machine

/-- Writing a node's symbol leaves the other fields of every node (R46, R166). -/
theorem setNode_sym_frame (s : State) (i k : NodeIdx) (sym : Option Byte) :
    (s.setNode i { s.nodes[i] with sym := sym }).nodes[k] =
      { s.nodes[k] with sym := (s.setNode i { s.nodes[i] with sym := sym }).nodes[k].sym } := by
  by_cases hk : i = k
  · subst hk
    rw [State.setNode_get_same]
  · rw [State.setNode_get_other s hk]

/-- A rule that ends without an error has written only what R46 lists for its command; the end of the handshake adds PEND. -/
theorem commandRule_writesOnlyListed {i : Instr} {s u : State} (h : commandRule i s = .next u) (he : u.err = false) :
    WritesOnlyListed i s u.complete := by
  cases i with
  | serialize =>
    obtain ⟨rows, -, -, rfl⟩ := serializeTree_next h
    rfl
  | build =>
    obtain rfl := Host.Outcome.next.inj h
    rcases buildTree_cases s with ⟨-, hb⟩ | ⟨-, hb⟩
    · simp [hb] at he
    · rw [hb]; rfl
  | loadSym =>
    obtain rfl := Host.Outcome.next.inj h
    rcases loadSym_cases s with ⟨sub, hl⟩ | ⟨sym, -, -, -, hl⟩
    · simp [hl] at he
    · rw [hl]; rfl
  | loadChar c =>
    obtain rfl := Host.Outcome.next.inj h
    rcases loadChar_cases c s with ⟨sub, hl⟩ | ⟨b, j, s', -, -, -, hd, hl⟩
    · simp [hl] at he
    · rw [hl, State.descendOrMake_frame hd]; rfl
  | loadRowEnd =>
    obtain rfl := Host.Outcome.next.inj h
    rcases loadRowEnd_cases s with ⟨sub, hl⟩ | ⟨-, -, -, -, hl⟩
    · simp [hl] at he
    · rw [hl]; exact ⟨rfl, fun k => setNode_sym_frame s _ k _⟩
  | loadEnd =>
    obtain rfl := Host.Outcome.next.inj h
    rcases loadEnd_cases s with ⟨sub, hl⟩ | ⟨-, -, -, hl⟩
    · simp [hl] at he
    · rw [hl]; rfl
  | encode sym =>
    obtain rfl := Host.Outcome.next.inj h
    rcases encodeSymbol_cases sym s with hl | ⟨r, -, hl⟩
    · simp [hl] at he
    · rw [hl]; rfl
  | decBit b =>
    obtain rfl := Host.Outcome.next.inj h
    rcases decBit_cases b s with ⟨-, hd⟩ | ⟨j, -, ⟨sym, -, hd⟩ | ⟨-, hd⟩⟩
    · simp [hd] at he
    · rw [hd]; rfl
    · rw [hd]; rfl
  | decEnd =>
    obtain rfl := Host.Outcome.next.inj h
    rcases decEnd_cases s with hd | hd
    · simp [hd] at he
    · rw [hd]; rfl
  | softReset => obtain rfl := Host.Outcome.next.inj h; exact ⟨rfl, rfl, rfl⟩
  | nop => obtain rfl := Host.Outcome.next.inj h; rfl
  | errClear => obtain rfl := Host.Outcome.next.inj h; rfl
  | freqClear => obtain rfl := Host.Outcome.next.inj h; rfl
  | loadBegin => obtain rfl := Host.Outcome.next.inj h; rfl
  | decBegin => obtain rfl := Host.Outcome.next.inj h; rfl

/-- Settles O19: a command that ends without an error was not refused, so its rule ran, and the rule keeps to its row of R46. -/
theorem commandsWriteOnlyTheirListedState : Obligations.CommandsWriteOnlyTheirListedState := by
  intro i s t hs h ht
  rcases exec_cases h with ⟨he, -⟩ | ⟨-, -, rfl⟩ | ⟨-, -, u, hu, rfl⟩
  · exact absurd (hs.symm.trans he) Bool.false_ne_true
  · simp at ht
  · exact commandRule_writesOnlyListed hu ht

end Sys2Proof.Safety
end

section
/-! SUPPORT. What the register words of the port show (10_state.md R22 to R36, 20_memory.md R63). -/

namespace Sys2Proof.Safety

open Sys2Proof.Machine

/-! ## Fields of a word -/

theorem toNat_zero_append {v w : Nat} (x : BitVec w) : (0#v ++ x).toNat = x.toNat := by
  simp [BitVec.toNat_append]

/-- The field that stands on top of the lower bits of a word. -/
theorem extractLsb'_append_field {v w len : Nat} (hi : BitVec v) (x : BitVec len) (lo : BitVec w) :
    (hi ++ x ++ lo).extractLsb' w len = x := by
  rw [BitVec.extractLsb'_append_eq_of_le (Nat.le_refl w), Nat.sub_self, BitVec.extractLsb'_append_eq_right]

theorem idxBits_toNat (i : NodeIdx) : (idxBits i).toNat = i.val := by
  simp only [idxBits, BitVec.toNat_ofNat]
  omega

/-! ## The registers of several fields -/

theorem statusWord_fields (s : State) :
    s.statusWord.getLsbD 0 = s.busy ∧ s.statusWord.getLsbD 1 = s.err ∧ s.statusWord.getLsbD 2 = s.overrun ∧
      s.statusWord.getLsbD 3 = s.ctValid ∧ s.statusWord.extractLsb' 4 2 = s.treeState.bits ∧ s.statusWord.getLsbD 6 = s.rowOpen ∧
      s.statusWord.getLsbD 7 = false ∧ s.statusWord.extractLsb' 8 2 = s.decState.bits ∧ s.statusWord.extractLsb' 10 22 = 0#22 := by
  unfold State.statusWord bit
  generalize s.busy = a, s.err = b, s.overrun = c, s.ctValid = d, s.treeState.bits = e, s.rowOpen = f, s.decState.bits = g
  decide +revert

theorem errWord_fields (s : State) :
    s.errWord.extractLsb' 0 8 = s.errReg.code ∧ s.errWord.extractLsb' 8 8 = s.errReg.sub ∧ s.errWord.extractLsb' 16 8 = s.errReg.op ∧
      s.errWord.extractLsb' 24 8 = 0#8 :=
  ⟨BitVec.extractLsb'_append_eq_right, extractLsb'_append_field (0#8 ++ s.errReg.op) s.errReg.sub s.errReg.code,
    (BitVec.extractLsb'_append_eq_of_le (by decide)).trans (extractLsb'_append_field (0#8) s.errReg.op s.errReg.sub),
    (BitVec.extractLsb'_append_eq_of_le (by decide)).trans <|
      (BitVec.extractLsb'_append_eq_of_le (by decide)).trans BitVec.extractLsb'_append_eq_left⟩

theorem decOutWord_fields (s : State) :
    s.decOutWord.extractLsb' 0 8 = s.decOut.sym ∧ s.decOutWord.getLsbD 8 = s.decOut.valid ∧ s.decOutWord.extractLsb' 9 23 = 0#23 := by
  refine ⟨BitVec.extractLsb'_append_eq_right, ?_,
    (BitVec.extractLsb'_append_eq_of_le (by decide)).trans BitVec.extractLsb'_append_eq_left⟩
  refine (BitVec.getLsbD_append (x := 0#23 ++ bit s.decOut.valid)).trans ?_
  cases s.decOut.valid <;> rfl

/-- CURSOR and LOAD_CUR: a byte, a byte, seven reserved bits and a node index (R35, R36). -/
theorem indexWord_fields (hi lo : Byte) (i : NodeIdx) {w : Word} (h : w = hi ++ lo ++ 0#7 ++ idxBits i) :
    (w.extractLsb' 0 9).toNat = i.val ∧ w.extractLsb' 9 7 = 0#7 ∧ w.extractLsb' 16 8 = lo ∧ w.extractLsb' 24 8 = hi := by
  subst h
  refine ⟨?_, extractLsb'_append_field (hi ++ lo) 0#7 (idxBits i),
    (BitVec.extractLsb'_append_eq_of_le (by decide)).trans (extractLsb'_append_field hi lo 0#7),
    (BitVec.extractLsb'_append_eq_of_le (by decide)).trans <|
      (BitVec.extractLsb'_append_eq_of_le (by decide)).trans BitVec.extractLsb'_append_eq_left⟩
  exact (congrArg BitVec.toNat (BitVec.extractLsb'_append_eq_right (a := hi ++ lo ++ 0#7))).trans (idxBits_toNat i)

/-! ## The registers of one field -/

theorem rootWord_toNat (s : State) : s.rootWord.toNat = s.root.val := (toNat_zero_append _).trans (idxBits_toNat _)

theorem leafCountWord_toNat (s : State) : s.leafCountWord.toNat = s.leafCount.toNat := toNat_zero_append _

theorem rowCountWord_toNat (s : State) : s.rowCountWord.toNat = s.rowCount.toNat := toNat_zero_append _

theorem resLenWord_toNat (s : State) : s.resLenWord.toNat = s.resLen.toNat := toNat_zero_append _

theorem nodeCountWord_toNat (s : State) : s.nodeCountWord.toNat = s.nodeCount.val := by
  refine (toNat_zero_append _).trans ?_
  simp only [BitVec.toNat_ofNat]
  omega

theorem target_resPath (j : Fin 8) : target (BitVec.ofNat 14 ((0x0028 + 4 * j.val) / 4)) = .resPath j := by
  decide +revert

/-- Settles O7: an idle read shows what stands at the offset, and each register's word has its fields at their bits. -/
theorem registerReadsShowTheirFields : Obligations.RegisterReadsShowTheirFields := by
  intro s hb rd
  have hrd : ∀ {off : Nat} {t : Target}, target (BitVec.ofNat 14 (off / 4)) = t → rd off = s.idleRead t :=
    fun ht => (State.readWord_idle hb _).trans (congrArg s.idleRead ht)
  obtain ⟨hbusy, herr, hover, hct, htree, hrow, h7, hdec, h10⟩ := statusWord_fields s
  rw [hrd (t := .id) rfl, hrd (t := .cmd) rfl, hrd (t := .data) rfl, hrd (t := .status) rfl, hrd (t := .err) rfl, hrd (t := .root) rfl,
    hrd (t := .leafCount) rfl, hrd (t := .nodeCount) rfl, hrd (t := .rowCount) rfl, hrd (t := .resLen) rfl, hrd (t := .decOut) rfl,
    hrd (t := .decCount) rfl, hrd (t := .cursor) rfl, hrd (t := .loadCur) rfl]
  exact ⟨rfl, rfl, rfl, ⟨hbusy.trans hb, herr, hover, hct, htree, hrow, h7, hdec, h10⟩, errWord_fields s, rootWord_toNat s,
    leafCountWord_toNat s, nodeCountWord_toNat s, rowCountWord_toNat s, resLenWord_toNat s, fun j => hrd (target_resPath j),
    decOutWord_fields s, rfl, indexWord_fields _ _ _ rfl, indexWord_fields _ _ _ rfl⟩

end Sys2Proof.Safety
end

section
/-! SUPPORT. What a step can do to the arena, and the frequencies its nodes carry (10_state.md R43). -/

namespace Sys2Proof.Safety

open Sys2Proof.Machine

/-! ## What a rule does to the arena -/

/-- The arena and what it stands for are the same. -/
structure SameArena (s t : State) : Prop where
  treeState : t.treeState = s.treeState
  nodes : t.nodes = s.nodes
  nodeCount : t.nodeCount = s.nodeCount

/-- Every live node of t is new and without a frequency, or a live node of s with its frequency: what a load does (R161 to R168). -/
def FreqsLoaded (s t : State) : Prop :=
  ∀ i : NodeIdx, i.val < t.nodeCount.val →
    t.nodes[i].nfreq = Config.noFreq ∨ (i.val < s.nodeCount.val ∧ t.nodes[i].nfreq = s.nodes[i].nfreq)

/-- The arena of t is the one that BUILD makes in s (R125). -/
structure ArenaBuilt (s t : State) : Prop where
  treeState : t.treeState = .built
  nodes : t.nodes = (Builder.builtOf s).nodes
  nodeCount : t.nodeCount = Fin.ofNat 512 (Builder.builtOf s).n

/-- Everything a command's rule can do to the arena. -/
inductive ArenaStep (s t : State) : Prop where
  | same (h : SameArena s t)
  | discarded (h : t.treeState = .empty)
  | built (h : ArenaBuilt s t)
  | opened (h : t.treeState = .loading) (freqs : ∀ k : NodeIdx, k.val < t.nodeCount.val → t.nodes[k].nfreq = Config.noFreq)
  | loaded (before : s.treeState = .loading) (after : t.treeState = .loading ∨ t.treeState = .loaded) (freqs : FreqsLoaded s t)

theorem raise_arena (s : State) (op : Byte) (e : ErrorKind) : SameArena s (s.raise op e) ∨ (s.raise op e).treeState = .empty := by
  have same : SameArena s (s.recordError op e) :=
    ⟨State.recordError_treeState s op e, State.recordError_nodes s op e, State.recordError_nodeCount s op e⟩
  cases e with
  | construction => exact .inr rfl
  | format sub => exact .inr rfl
  | truncated => exact .inl same
  | degenerate => exact .inl same
  | sequence => exact .inl same
  | symbolAbsent => exact .inl same
  | illegalCmd why => exact .inl same

theorem hostWrite_arena (s : State) (a : WordAddr) (v : Word) : SameArena s (s.hostWrite a v) := by
  rcases State.hostWrite_cases s a v with ⟨-, -, h⟩ | ⟨-, -, h⟩ | ⟨-, -, h⟩ | ⟨-, sym, -, h⟩ | ⟨-, -, -, h⟩ <;> rw [h] <;>
    exact ⟨rfl, rfl, rfl⟩

theorem setNode_nfreq (s : State) (i k : NodeIdx) {n : Node} (h : n.nfreq = s.nodes[i].nfreq) :
    (s.setNode i n).nodes[k].nfreq = s.nodes[k].nfreq := by
  by_cases hk : i = k
  · subst hk
    rw [State.setNode_get_same, h]
  · rw [State.setNode_get_other s hk]

theorem setChild_nfreq (s : State) (i j k : NodeIdx) (b : Bool) : (s.setChild i b j).nodes[k].nfreq = s.nodes[k].nfreq := by
  unfold State.setChild
  split <;> exact setNode_nfreq s i k rfl

theorem alloc_freqsLoaded {s u : State} {j : NodeIdx} (h : s.alloc = some (j, u)) : FreqsLoaded s u := by
  obtain ⟨hj, hn, hu⟩ := State.alloc_spec h
  intro i hi
  rw [hu]
  show (s.setNode j Node.empty).nodes[i].nfreq = _ ∨ _ ∧ (s.setNode j Node.empty).nodes[i].nfreq = _
  by_cases hij : j = i
  · subst hij
    exact .inl (by rw [State.setNode_get_same]; rfl)
  · have hval : j.val ≠ i.val := fun e => hij (Fin.ext e)
    exact .inr ⟨by omega, by rw [State.setNode_get_other s hij]⟩

theorem descendOrMake_freqsLoaded {s u : State} {i j : NodeIdx} {b : Bool} (h : s.descendOrMake i b = some (j, u)) :
    FreqsLoaded s u := by
  rcases State.descendOrMake_cases h with ⟨-, rfl⟩ | ⟨-, v, hv, rfl⟩
  · exact fun k hk => .inr ⟨hk, rfl⟩
  · intro k hk
    rw [setChild_nfreq]
    exact alloc_freqsLoaded hv k (by rwa [State.setChild_frame] at hk)

theorem ArenaStep.of_raise {s u : State} (h : SameArena s u) (op : Byte) (e : ErrorKind) : ArenaStep s (u.raise op e) := by
  rcases raise_arena u op e with g | g
  · exact .same ⟨g.treeState.trans h.treeState, g.nodes.trans h.nodes, g.nodeCount.trans h.nodeCount⟩
  · exact .discarded g

theorem commandRule_arena {i : Instr} {s t : State} (ha : allowed i s = true) (h : commandRule i s = .next t) : ArenaStep s t := by
  cases i with
  | nop => obtain rfl := Host.Outcome.next.inj h; exact .same ⟨rfl, rfl, rfl⟩
  | softReset => obtain rfl := Host.Outcome.next.inj h; exact .discarded rfl
  | errClear => obtain rfl := Host.Outcome.next.inj h; exact .same ⟨rfl, rfl, rfl⟩
  | freqClear => obtain rfl := Host.Outcome.next.inj h; exact .same ⟨rfl, rfl, rfl⟩
  | build =>
    obtain rfl := Host.Outcome.next.inj h
    rcases buildTree_cases s with ⟨-, hb⟩ | ⟨-, hb⟩
    · exact hb ▸ .discarded rfl
    · exact hb ▸ .built ⟨rfl, rfl, rfl⟩
  | serialize =>
    obtain ⟨rows, -, -, rfl⟩ := serializeTree_next h
    exact .same ⟨rfl, rfl, rfl⟩
  | loadBegin =>
    obtain rfl := Host.Outcome.next.inj h
    refine .opened rfl fun k hk => ?_
    have hk0 : k.val < 1 := hk
    obtain rfl : (0 : NodeIdx) = k := Fin.ext (by simp; omega)
    exact congrArg Node.nfreq (State.setNode_get_same s.discardTree 0 Node.empty)
  | loadSym =>
    obtain rfl := Host.Outcome.next.inj h
    rcases loadSym_cases s with ⟨sub, hl⟩ | ⟨sym, -, -, -, hl⟩
    · exact hl ▸ .of_raise ⟨rfl, rfl, rfl⟩ _ _
    · exact hl ▸ .same ⟨rfl, rfl, rfl⟩
  | loadChar c =>
    obtain rfl := Host.Outcome.next.inj h
    rcases loadChar_cases c s with ⟨sub, hl⟩ | ⟨b, j, s', -, -, -, hd, hl⟩
    · exact hl ▸ .of_raise ⟨rfl, rfl, rfl⟩ _ _
    · have hs : s.treeState = .loading := of_decide_eq_true ha
      have ht : s'.treeState = .loading := by rw [State.descendOrMake_frame hd]; exact hs
      exact hl ▸ .loaded hs (.inl ht) fun k hk => descendOrMake_freqsLoaded hd k hk
  | loadRowEnd =>
    obtain rfl := Host.Outcome.next.inj h
    rcases loadRowEnd_cases s with ⟨sub, hl⟩ | ⟨-, -, -, -, hl⟩
    · exact hl ▸ .of_raise ⟨rfl, rfl, rfl⟩ _ _
    · have hs : s.treeState = .loading := of_decide_eq_true ha
      exact hl ▸ .loaded hs (.inl hs) fun k hk => .inr ⟨hk, setNode_nfreq s _ k rfl⟩
  | loadEnd =>
    obtain rfl := Host.Outcome.next.inj h
    rcases loadEnd_cases s with ⟨sub, hl⟩ | ⟨-, -, -, hl⟩
    · exact hl ▸ .of_raise ⟨rfl, rfl, rfl⟩ _ _
    · have hs : s.treeState = .loading := of_decide_eq_true ha
      exact hl ▸ .loaded hs (.inr rfl) fun k hk => .inr ⟨hk, rfl⟩
  | encode sym =>
    obtain rfl := Host.Outcome.next.inj h
    rcases encodeSymbol_cases sym s with hl | ⟨r, -, hl⟩
    · exact hl ▸ .of_raise ⟨rfl, rfl, rfl⟩ _ _
    · exact hl ▸ .same ⟨rfl, rfl, rfl⟩
  | decBegin => obtain rfl := Host.Outcome.next.inj h; exact .same ⟨rfl, rfl, rfl⟩
  | decBit b =>
    obtain rfl := Host.Outcome.next.inj h
    rcases decBit_cases b s with ⟨-, hd⟩ | ⟨j, -, ⟨sym, -, hd⟩ | ⟨-, hd⟩⟩
    · have hidle : SameArena s { s with decState := .idle } := ⟨rfl, rfl, rfl⟩
      exact hd ▸ .of_raise hidle _ _
    · exact hd ▸ .same ⟨rfl, rfl, rfl⟩
    · exact hd ▸ .same ⟨rfl, rfl, rfl⟩
  | decEnd =>
    obtain rfl := Host.Outcome.next.inj h
    rcases decEnd_cases s with hd | hd
    · have hidle : SameArena s { s with decState := .idle } := ⟨rfl, rfl, rfl⟩
      exact hd ▸ .of_raise hidle _ _
    · exact hd ▸ .same ⟨rfl, rfl, rfl⟩

/-- A property of the arena alone is kept by every step, when it holds without a tree and every rule keeps it. -/
theorem kept_of_arena {P : State → Prop} (same : ∀ s t, SameArena s t → P s → P t) (empty : ∀ s, s.treeState = .empty → P s)
    (rule : ∀ (i : Instr) (s t : State), P s → allowed i s = true → commandRule i s = .next t → P t) : Kept P where
  reset _ := empty _ rfl
  outside s _ _ _ := same s _ ⟨rfl, rfl, rfl⟩
  write s a v := same s _ (hostWrite_arena s a v)
  initJob s := same s _ ⟨rfl, rfl, rfl⟩
  raise s op e hs := (raise_arena s op e).elim (fun h => same s _ h hs) (empty _)
  complete s := same s _ ⟨rfl, rfl, rfl⟩
  rule := rule

/-! ## The sentinel frequency of loaded nodes -/

theorem loadedSentinel_same {s t : State} (h : SameArena s t) (hs : LoadedSentinel s) : LoadedSentinel t := by
  unfold LoadedSentinel at *
  rwa [h.treeState, h.nodes, h.nodeCount]

theorem loadedSentinel_empty {s : State} (h : s.treeState = .empty) : LoadedSentinel s := by
  rintro (ht | ht) <;> rw [h] at ht <;> cases ht

theorem loadedSentinel_kept : Kept LoadedSentinel := by
  refine kept_of_arena (fun s t => loadedSentinel_same) (fun s => loadedSentinel_empty) fun i s t hs ha h => ?_
  cases commandRule_arena ha h with
  | same hsame => exact loadedSentinel_same hsame hs
  | discarded hempty => exact loadedSentinel_empty hempty
  | built hbuilt => rintro (ht | ht) <;> rw [hbuilt.treeState] at ht <;> cases ht
  | opened _ hall => exact fun _ => hall
  | loaded hload _ hfreqs =>
    intro _ k hk
    rcases hfreqs k hk with hnew | ⟨hlive, hkept⟩
    · exact hnew
    · exact hkept.trans (hs (.inl hload) k hlive)

/-- Settles O56: the loader makes nodes without a frequency and writes no frequency afterwards, and BUILD leaves TREE_STATE BUILT. -/
theorem loadedNodesKeepTheSentinelFrequency : Obligations.LoadedNodesKeepTheSentinelFrequency :=
  ⟨loadedSentinel_empty rfl, fun _ _ => loadedSentinel_kept.step⟩

end Sys2Proof.Safety
end

section
/-! SUPPORT. What BUILD's two loops keep: room in the arena, and the sums of frequencies (41_tree_builder.md R120 to R124). -/

namespace Sys2Proof.Machine

namespace Builder

/-! ## Induction over the two loops -/

/-- What holds before the leaf loop and is kept by each turn, the count of turns growing, holds after it (R121). -/
theorem leaves_induct {P : Nat → Builder → Prop} {freq : Memory} {b : Builder} (start : P 0 b)
    (turn : ∀ m b, m < 256 → P m b → P (m + 1) (Builder.leafTurn freq b m)) : P 256 (Builder.leaves freq b) := by
  have upTo : ∀ m ≤ 256, P m ((List.range m).foldl (Builder.leafTurn freq) b) := by
    intro m
    induction m with
    | zero => exact fun _ => start
    | succ m ih =>
      intro hm
      rw [List.range_succ, List.foldl_append]
      exact turn m _ hm (ih (Nat.le_of_succ_le hm))
  exact upTo 256 (Nat.le_refl _)

/-- What each turn of the merge loop keeps is kept by the loop (R124). -/
theorem merges_induct {P : Builder → Prop} (turn : ∀ b : Builder, 1 < b.queue.length → P b → P b.mergeTurn) (fuel : Nat) {b : Builder}
    (hb : P b) : P (Builder.merges fuel b) := by
  induction fuel generalizing b with
  | zero => exact hb
  | succ fuel ih =>
    rw [Builder.merges]
    split
    · exact ih (turn b (by assumption) hb)
    · exact hb

/-! ## Room in the arena -/

/-- The next free index and the merges to come stay within the 511 entries: each merge takes one index and shortens Q by one. -/
def Room (b : Builder) : Prop := b.n + b.queue.length ≤ 512

theorem Room.n_lt_of_merge {b : Builder} (h : b.Room) (hq : 1 < b.queue.length) : b.n < 511 := by
  unfold Room at h
  omega

theorem Room.mergeTurn {b : Builder} (h : b.Room) (hq : 1 < b.queue.length) : b.mergeTurn.Room := by
  have hl := Builder.mergeTurn_length hq
  unfold Room at *
  omega

/-- During the leaf loop every node made is an entry of Q, at most one per symbol seen (R121). -/
theorem leaves_n_eq (s : State) : (leavesOf s).n = (leavesOf s).queue.length ∧ (leavesOf s).n ≤ 256 := by
  refine leaves_induct (P := fun m b => b.n = b.queue.length ∧ b.n ≤ m) ⟨rfl, Nat.le_refl 0⟩ fun m b _ ⟨hn, hm⟩ => ?_
  unfold Builder.leafTurn
  split
  · exact ⟨hn, Nat.le_succ_of_le hm⟩
  · simpa using And.intro hn hm

theorem leavesOf_room (s : State) : (leavesOf s).Room := by
  have h := leaves_n_eq s
  unfold Room
  omega

/-- After the merge loop one entry is left, and a tree of k leaves has taken 2k - 1 indices (R124, R125). -/
theorem builtOf_length {s : State} (h : (leavesOf s).n ≠ 0) :
    (builtOf s).queue.length = 1 ∧ (builtOf s).n + 1 = 2 * (leavesOf s).n := by
  obtain ⟨hn, hle⟩ := leaves_n_eq s
  have hne : (leavesOf s).queue ≠ [] := fun he => h (by rw [hn, he]; rfl)
  have hm := Builder.merges_length Config.syms (leavesOf s) (by rw [← hn]; exact Nat.le_succ_of_le hle) hne
  unfold builtOf
  omega

/-! ## A node pushed -/

theorem ofNat_n_val {b : Builder} (hn : b.n < 511) : (Fin.ofNat 511 b.n).val = b.n := Nat.mod_eq_of_lt hn

theorem push_get {b : Builder} (hn : b.n < 511) (node : Node) (i : NodeIdx) :
    (b.push node).nodes[i] = if i.val = b.n then node else b.nodes[i] := by
  simp only [Builder.push_nodes, Fin.getElem_fin, Vector.getElem_set, ofNat_n_val hn, eq_comm]

theorem push_get_new {b : Builder} (hn : b.n < 511) (node : Node) : (b.push node).nodes[Fin.ofNat 511 b.n] = node := by
  rw [push_get hn, if_pos (ofNat_n_val hn)]

theorem push_get_old {b : Builder} (hn : b.n < 511) (node : Node) {i : NodeIdx} (hi : i.val < b.n) :
    (b.push node).nodes[i] = b.nodes[i] := by
  rw [push_get hn, if_neg (Nat.ne_of_lt hi)]

/-! ## The sums -/

/-- Q carries the frequencies of its nodes, and each node with two children is the sum of them, both made before. -/
structure Sums (b : Builder) : Prop where
  queue : ∀ e ∈ b.queue, e.idx.val < b.n ∧ b.nodes[e.idx].nfreq = e.f
  nodes : ∀ i a c : NodeIdx, i.val < b.n → b.nodes[i].left = some a → b.nodes[i].right = some c →
    a.val < b.n ∧ c.val < b.n ∧ b.nodes[i].nfreq = b.nodes[a].nfreq + b.nodes[c].nfreq

/-- A node pushed keeps the sums, when its own children, if it has two, were made before and add up to it. -/
theorem Sums.push {b : Builder} (h : b.Sums) (hn : b.n < 511) {node : Node}
    (hnode : ∀ a c, node.left = some a → node.right = some c →
      a.val < b.n ∧ c.val < b.n ∧ node.nfreq = b.nodes[a].nfreq + b.nodes[c].nfreq) :
    (b.push node).Sums where
  queue e he := by
    rcases List.mem_cons.1 he with rfl | he
    · exact ⟨Nat.lt_succ_of_le (Nat.le_of_eq (ofNat_n_val hn)), congrArg Node.nfreq (push_get_new hn node)⟩
    · obtain ⟨hlt, hf⟩ := h.queue e he
      exact ⟨Nat.lt_succ_of_lt hlt, by rw [push_get_old hn node hlt, hf]⟩
  nodes i a c hi ha hc := by
    have old : a.val < b.n → c.val < b.n → (b.push node).nodes[i].nfreq = b.nodes[a].nfreq + b.nodes[c].nfreq →
        a.val < b.n + 1 ∧ c.val < b.n + 1 ∧
          (b.push node).nodes[i].nfreq = (b.push node).nodes[a].nfreq + (b.push node).nodes[c].nfreq :=
      fun hla hlc hs => ⟨Nat.lt_succ_of_lt hla, Nat.lt_succ_of_lt hlc, by rw [hs, push_get_old hn node hla, push_get_old hn node hlc]⟩
    by_cases hin : i.val = b.n
    · rw [push_get hn, if_pos hin] at ha hc
      obtain ⟨hla, hlc, hs⟩ := hnode a c ha hc
      exact old hla hlc (by rw [push_get hn, if_pos hin, hs])
    · have hib : i.val < b.n := Nat.lt_of_le_of_ne (Nat.le_of_lt_succ hi) hin
      rw [push_get_old hn node hib] at ha hc
      obtain ⟨hla, hlc, hs⟩ := h.nodes i a c hib ha hc
      exact old hla hlc (by rw [push_get_old hn node hib, hs])

theorem Sums.mergeTurn {b : Builder} (h : b.Sums) (hroom : b.Room) (hq : 1 < b.queue.length) : b.mergeTurn.Sums := by
  obtain ⟨x, y, q1, q2, hx, hy, he⟩ := Builder.mergeTurn_spec hq
  obtain ⟨hxm, -, hxp⟩ := extractMin_spec hx
  obtain ⟨hym, -, hyp⟩ := extractMin_spec hy
  have hq1 : ∀ e ∈ q1, e ∈ b.queue := fun e hm => hxp.mem_iff.2 (List.mem_cons_of_mem x hm)
  have hq2 : ∀ e ∈ q2, e ∈ b.queue := fun e hm => hq1 e (hyp.mem_iff.2 (List.mem_cons_of_mem y hm))
  have hrest : Sums { b with queue := q2 } := ⟨fun e hm => h.queue e (hq2 e hm), h.nodes⟩
  rw [he]
  refine hrest.push (hroom.n_lt_of_merge hq) fun a c ha hc => ?_
  obtain rfl := Option.some.inj ha
  obtain rfl := Option.some.inj hc
  obtain ⟨hxl, hxf⟩ := h.queue x hxm
  obtain ⟨hyl, hyf⟩ := h.queue y (hq1 y hym)
  exact ⟨hxl, hyl, by rw [hxf, hyf]⟩

theorem leavesOf_sums (s : State) : (leavesOf s).Sums := by
  refine (leaves_induct (P := fun m b => b.n ≤ m ∧ b.Sums) ⟨Nat.le_refl 0, ?_⟩ fun m b hm ⟨hn, hb⟩ => ?_).2
  · exact ⟨fun e he => absurd he List.not_mem_nil, fun i _ _ hi => absurd hi (Nat.not_lt_zero _)⟩
  · unfold Builder.leafTurn
    split
    · exact ⟨Nat.le_succ_of_le hn, hb⟩
    · exact ⟨Nat.succ_le_succ hn, hb.push (by omega) fun a c ha => by cases ha⟩

theorem builtOf_sums (s : State) : (builtOf s).Sums :=
  (merges_induct (P := fun b => b.Room ∧ b.Sums) (fun _ hq ⟨hr, hs⟩ => ⟨hr.mergeTurn hq, hs.mergeTurn hr hq⟩) Config.syms
    ⟨leavesOf_room s, leavesOf_sums s⟩).2

end Builder

end Sys2Proof.Machine

namespace Sys2Proof.Safety

open Sys2Proof.Machine

/-! ## The sums in the state -/

theorem builtSums_same {s t : State} (h : SameArena s t) (hs : BuiltSums s) : BuiltSums t := by
  unfold BuiltSums at *
  rwa [h.treeState, h.nodes, h.nodeCount]

theorem builtSums_of_ne {s : State} (h : s.treeState ≠ .built) : BuiltSums s := fun hb => absurd hb h

theorem builtSums_of_arenaBuilt {s t : State} (h : ArenaBuilt s t) : BuiltSums t := by
  intro _ i a c hi ha hc
  rw [h.nodes] at ha hc ⊢
  rw [h.nodeCount] at hi
  exact ((Builder.builtOf_sums s).nodes i a c (Nat.lt_of_lt_of_le hi (Nat.mod_le _ _)) ha hc).2.2

theorem builtSums_kept : Kept BuiltSums := by
  refine kept_of_arena (fun s t => builtSums_same) (fun s h => builtSums_of_ne (by rw [h]; decide)) fun i s t hs ha h => ?_
  cases commandRule_arena ha h with
  | same hsame => exact builtSums_same hsame hs
  | discarded hempty => exact builtSums_of_ne (by rw [hempty]; decide)
  | built hbuilt => exact builtSums_of_arenaBuilt hbuilt
  | opened hload => exact builtSums_of_ne (by rw [hload]; decide)
  | loaded _ hafter => exact builtSums_of_ne (by rcases hafter with h | h <;> rw [h] <;> decide)

/-- Settles O57: BUILD makes the sums, and no rule that leaves TREE_STATE BUILT writes the arena otherwise. -/
theorem builtNodesKeepTheSumOfTheirChildren : Obligations.BuiltNodesKeepTheSumOfTheirChildren :=
  ⟨builtSums_of_ne (by decide), fun _ _ => builtSums_kept.step⟩

end Sys2Proof.Safety
end

section
/-! SUPPORT. The trees of Safety: the nodes that paths lead to, the symbols, the rows, and a subtree put in the place of another. -/

namespace Sys2Proof.Safety

open Sys2Proof.Machine

namespace Tree

/-! ## Paths -/

@[simp] theorem sub_nil (t : Tree) : t.sub [] = t := by
  cases t <;> rfl

@[simp] theorem sub_absent (p : List Bool) : Tree.absent.sub p = .absent := by
  cases p <;> rfl

@[simp] theorem sub_node_cons (i : NodeIdx) (sym : Option Byte) (l r : Tree) (b : Bool) (p : List Bool) :
    (Tree.node i sym l r).sub (b :: p) = (if b then r else l).sub p := by
  cases b <;> rfl

theorem sub_append (t : Tree) (p q : List Bool) : t.sub (p ++ q) = (t.sub p).sub q := by
  induction p generalizing t with
  | nil => rw [List.nil_append, sub_nil]
  | cons b p ih =>
    cases t with
    | absent => simp
    | node i sym l r => rw [List.cons_append, sub_node_cons, sub_node_cons, ih]

theorem exists_node_of_link {t : Tree} {i : NodeIdx} (h : t.link = some i) : ∃ sym l r, t = .node i sym l r := by
  cases t with
  | absent => cases h
  | node j sym l r => obtain rfl := Option.some.inj h; exact ⟨sym, l, r, rfl⟩

theorem mem_indices_node {i j : NodeIdx} {sym : Option Byte} {l r : Tree} :
    j ∈ (Tree.node i sym l r).indices ↔ j = i ∨ j ∈ l.indices ∨ j ∈ r.indices := by
  simp [indices]

theorem nodup_indices_node {i : NodeIdx} {sym : Option Byte} {l r : Tree} :
    (Tree.node i sym l r).indices.Nodup ↔
      i ∉ l.indices ∧ i ∉ r.indices ∧ l.indices.Nodup ∧ r.indices.Nodup ∧ List.Disjoint l.indices r.indices := by
  rw [indices, List.nodup_cons, List.mem_append, not_or, List.nodup_append', and_assoc]

/-- What passes from a node to its children holds of every subtree. -/
theorem sub_induct {P : Tree → Prop} (none : P .absent) (down : ∀ i sym l r, P (.node i sym l r) → P l ∧ P r) {t : Tree} (ht : P t)
    (p : List Bool) : P (t.sub p) := by
  induction p generalizing t with
  | nil => rwa [sub_nil]
  | cons b p ih =>
    cases t with
    | absent => rw [sub_absent]; exact none
    | node i sym l r =>
      obtain ⟨hl, hr⟩ := down i sym l r ht
      rw [sub_node_cons]
      cases b
      · exact ih hl
      · exact ih hr

theorem sub_indices_subset (t : Tree) (p : List Bool) : (t.sub p).indices ⊆ t.indices :=
  sub_induct (P := fun u => u.indices ⊆ t.indices) (List.nil_subset _)
    (fun _ _ _ _ h => ⟨fun _ hj => h (mem_indices_node.2 (.inr (.inl hj))), fun _ hj => h (mem_indices_node.2 (.inr (.inr hj)))⟩)
    (List.Subset.refl _) p

theorem mem_indices_of_sub_link {t : Tree} {p : List Bool} {i : NodeIdx} (h : (t.sub p).link = some i) : i ∈ t.indices :=
  sub_indices_subset t p (mem_indices_of_link h)

/-- Every node of the tree is reached by a path. -/
theorem exists_path {t : Tree} {i : NodeIdx} (h : i ∈ t.indices) : ∃ p, (t.sub p).link = some i := by
  induction t with
  | absent => cases h
  | node j sym l r ihl ihr =>
    rcases mem_indices_node.1 h with rfl | hl | hr
    · exact ⟨[], rfl⟩
    · obtain ⟨p, hp⟩ := ihl hl
      exact ⟨false :: p, by rw [sub_node_cons]; exact hp⟩
    · obtain ⟨p, hp⟩ := ihr hr
      exact ⟨true :: p, by rw [sub_node_cons]; exact hp⟩

/-- No two paths lead to one node. -/
theorem path_unique {t : Tree} (hn : t.indices.Nodup) {p q : List Bool} {i : NodeIdx} (hp : (t.sub p).link = some i)
    (hq : (t.sub q).link = some i) : p = q := by
  induction t generalizing p q with
  | absent => simp at hp
  | node j sym l r ihl ihr =>
    obtain ⟨hjl, hjr, hl, hr, hd⟩ := nodup_indices_node.1 hn
    have below : ∀ {b : Bool} {w : List Bool}, ((Tree.node j sym l r).sub (b :: w)).link = some i →
        i ∈ (if b then r else l).indices := fun h => mem_indices_of_sub_link (by rwa [sub_node_cons] at h)
    have notRoot : ∀ {b : Bool}, j ∉ (if b then r else l).indices := by
      intro b
      cases b
      · exact hjl
      · exact hjr
    cases p with
    | nil =>
      obtain rfl := Option.some.inj hp
      cases q with
      | nil => rfl
      | cons c q => exact absurd (below hq) notRoot
    | cons b p =>
      cases q with
      | nil =>
        obtain rfl := Option.some.inj hq
        exact absurd (below hp) notRoot
      | cons c q =>
        have hip := below hp
        have hiq := below hq
        rw [sub_node_cons] at hp hq
        cases b <;> cases c
        · rw [ihl hl hp hq]
        · exact absurd hiq (hd hip)
        · exact absurd hip (hd hiq)
        · rw [ihr hr hp hq]

/-! ## The arena below a path -/

theorem sub_inArena {nodes : Vector Node 511} {t : Tree} (h : t.inArena nodes) (p : List Bool) : (t.sub p).inArena nodes :=
  sub_induct (P := inArena nodes) trivial (fun _ _ _ _ ⟨_, _, _, hl, hr⟩ => ⟨hl, hr⟩) h p

theorem sub_nodup {t : Tree} (h : t.indices.Nodup) (p : List Bool) : (t.sub p).indices.Nodup :=
  sub_induct (P := fun u => u.indices.Nodup) List.nodup_nil
    (fun _ _ _ _ h => let ⟨_, _, hl, hr, _⟩ := nodup_indices_node.1 h; ⟨hl, hr⟩) h p

theorem sub_labelled {t : Tree} (h : t.labelled = true) (p : List Bool) : (t.sub p).labelled = true := by
  refine sub_induct (P := fun u => u.labelled = true) rfl (fun i sym l r h => ?_) h p
  cases sym with
  | some c =>
    simp only [labelled, Bool.and_eq_true, Option.isNone_iff_eq_none, link_eq_none_iff] at h
    simp [h, labelled]
  | none => exact Bool.and_eq_true_iff.1 h

theorem sub_full {t : Tree} (h : t.full = true) {p : List Bool} {i : NodeIdx} (hp : (t.sub p).link = some i) : (t.sub p).full = true := by
  have hsub : t.sub p = .absent ∨ (t.sub p).full = true := by
    refine sub_induct (P := fun u => u = .absent ∨ u.full = true) (.inl rfl) (fun i sym l r h => ?_) (.inr h) p
    have h := h.resolve_left (by simp)
    cases sym with
    | some c =>
      simp only [full, Bool.and_eq_true, Option.isNone_iff_eq_none, link_eq_none_iff] at h
      exact ⟨.inl h.1, .inl h.2⟩
    | none => exact (Bool.and_eq_true_iff.1 h).imp .inr .inr
  exact hsub.resolve_left fun he => by rw [he] at hp; cases hp

/-- A path that leads to a node is shorter than the height by that node's own height. -/
theorem sub_height {t : Tree} {p : List Bool} {i : NodeIdx} (hp : (t.sub p).link = some i) :
    p.length + (t.sub p).height ≤ t.height := by
  induction p generalizing t with
  | nil => simp
  | cons b p ih =>
    cases t with
    | absent => rw [sub_absent] at hp; cases hp
    | node j sym l r =>
      rw [sub_node_cons] at hp ⊢
      have hle : (if b then r else l).height ≤ max l.height r.height := by cases b <;> simp
      have := ih hp
      simp only [List.length_cons, height]
      omega

theorem height_pos_of_link {t : Tree} {i : NodeIdx} (h : t.link = some i) : 1 ≤ t.height := by
  obtain ⟨sym, l, r, rfl⟩ := exists_node_of_link h
  simp [height]

/-- A full node with no symbol has both children. -/
theorem links_of_full {i : NodeIdx} {l r : Tree} (h : (Tree.node i none l r).full = true) :
    ∃ a c, l.link = some a ∧ r.link = some c := by
  simp only [full, Bool.and_eq_true] at h
  cases l with
  | absent => simp [full] at h
  | node a _ _ _ =>
    cases r with
    | absent => simp [full] at h
    | node c _ _ _ => exact ⟨a, c, rfl, rfl⟩

/-- A node of a full tree in the arena is a leaf or internal (R42). -/
theorem classes_of_full {nodes : Vector Node 511} {t : Tree} {i : NodeIdx} (ha : t.inArena nodes) (hf : t.full = true)
    (hl : t.link = some i) :
    (nodes[i].isLeaf = true ∧ ∃ sym, nodes[i].sym = some sym) ∨ (nodes[i].isInternal = true ∧ nodes[i].sym = none) := by
  obtain ⟨sym, l, r, rfl⟩ := exists_node_of_link hl
  obtain ⟨hs, hleft, hright, -, -⟩ := ha
  cases sym with
  | some c =>
    simp only [full, Bool.and_eq_true, Option.isNone_iff_eq_none] at hf
    exact .inl ⟨by simp only [Node.isLeaf, hs, hleft, hright, hf.1, hf.2]; rfl, c, hs⟩
  | none =>
    obtain ⟨a, b, hla, hrb⟩ := links_of_full hf
    exact .inr ⟨by simp only [Node.isInternal, hs, hleft, hright, hla, hrb]; rfl, hs⟩

/-- The child of the node that a path leads to is what the longer path leads to. -/
theorem sub_concat_link {nodes : Vector Node 511} {t : Tree} {p : List Bool} {i : NodeIdx} (ha : t.inArena nodes)
    (hp : (t.sub p).link = some i) (b : Bool) : (t.sub (p ++ [b])).link = nodes[i].child b := by
  obtain ⟨sym, l, r, he⟩ := exists_node_of_link hp
  obtain ⟨-, hleft, hright, -, -⟩ := he ▸ sub_inArena ha p
  rw [sub_append, he, sub_node_cons, sub_nil]
  cases b
  · exact hleft.symm
  · exact hright.symm

/-! ## Symbols and rows -/

/-- The symbols of a tree are those of its arena entries, in its order. -/
theorem syms_eq_filterMap {nodes : Vector Node 511} {t : Tree} (h : t.inArena nodes) :
    t.syms = t.indices.filterMap fun i => nodes[i].sym := by
  induction t with
  | absent => rfl
  | node i sym l r ihl ihr =>
    obtain ⟨hs, -, -, hl, hr⟩ := h
    rw [syms, indices, List.filterMap_cons, List.filterMap_append, ihl hl, ihr hr, hs]
    cases sym <;> rfl

theorem mem_syms_iff {nodes : Vector Node 511} {t : Tree} (h : t.inArena nodes) {sym : Byte} :
    sym ∈ t.syms ↔ ∃ i ∈ t.indices, nodes[i].sym = some sym := by
  rw [syms_eq_filterMap h, List.mem_filterMap]

/-- No two nodes of the tree have one symbol, when its symbols are distinct. -/
theorem index_unique_of_sym {nodes : Vector Node 511} {t : Tree} (h : t.inArena nodes) (hn : t.syms.Nodup) {i j : NodeIdx}
    (hi : i ∈ t.indices) (hj : j ∈ t.indices) {sym : Byte} (his : nodes[i].sym = some sym) (hjs : nodes[j].sym = some sym) : i = j := by
  rw [syms_eq_filterMap h, List.Nodup, List.pairwise_filterMap] at hn
  by_contra hne
  have hsymm : Std.Symm fun a c : NodeIdx => ∀ x, nodes[a].sym = some x → ∀ y, nodes[c].sym = some y → x ≠ y :=
    ⟨fun _ _ hac x hx y hy => (hac y hy x hx).symm⟩
  exact hn.forall hi hj hne sym his sym hjs rfl

/-- A row of a tree is the path of one of its leaves, below the path that leads to the tree. -/
theorem exists_path_of_mem_rows {t : Tree} {p : List Bool} {r : Row} (h : r ∈ t.rows p) :
    ∃ sym q, r = Row.ofPath sym q ∧ q.length + 1 ≤ p.length + t.height := by
  induction t generalizing p with
  | absent => simp [rows] at h
  | node i sym l rt ihl ihr =>
    cases sym with
    | some c => exact ⟨c, p, by simpa [rows] using h, by simp [height]⟩
    | none =>
      rcases List.mem_append.1 h with hl | hr
      · obtain ⟨c, q, rfl, hq⟩ := ihl hl
        exact ⟨c, q, rfl, by simp only [List.length_append, List.length_singleton, height] at *; omega⟩
      · obtain ⟨c, q, rfl, hq⟩ := ihr hr
        exact ⟨c, q, rfl, by simp only [List.length_append, List.length_singleton, height] at *; omega⟩

theorem rows_length {t : Tree} (hf : t.full = true) (p : List Bool) : (t.rows p).length = t.syms.length := by
  rw [← rows_syms hf p, List.length_map]

/-- A full tree is no higher than it has leaves. -/
theorem height_le_of_full {t : Tree} (hf : t.full = true) : t.height ≤ t.syms.length := by
  induction t with
  | absent => cases hf
  | node i sym l r ihl ihr =>
    cases sym with
    | some c =>
      simp only [full, Bool.and_eq_true, Option.isNone_iff_eq_none, link_eq_none_iff] at hf
      simp [height, syms, hf]
    | none =>
      obtain ⟨a, c, hla, hrc⟩ := links_of_full hf
      simp only [full, Bool.and_eq_true] at hf
      have hl := ihl hf.1
      have hr := ihr hf.2
      have hlp := height_pos_of_link hla
      have hrp := height_pos_of_link hrc
      simp only [height, syms, Option.toList_none, List.nil_append, List.length_append]
      omega

end Tree

end Sys2Proof.Safety
end

section
/-! SUPPORT. What the one tree in the arena says of its nodes, and R45 from the invariant (10_state.md R45). -/

namespace Sys2Proof.Safety

open Sys2Proof.Machine

theorem isChild_iff {s : State} {i j : NodeIdx} : IsChild s i j ↔ ∃ b, s.nodes[i].child b = some j :=
  ⟨fun h => h.elim (fun hl => ⟨false, hl⟩) fun hr => ⟨true, hr⟩, fun ⟨b, hb⟩ => by cases b; exacts [.inl hb, .inr hb]⟩

namespace ArenaHolds

variable {s : State} {t : Tree}

theorem descend_eq (h : ArenaHolds s t) (p : List Bool) : descend s.nodes s.root p = (t.sub p).link :=
  Tree.descend_eq_sub h.entries h.root p

theorem root_path (h : ArenaHolds s t) : (t.sub []).link = some s.root := by
  rw [Tree.sub_nil, h.root]

theorem live_of_path (h : ArenaHolds s t) {p : List Bool} {i : NodeIdx} (hp : (t.sub p).link = some i) : i.val < s.nodeCount.val :=
  (h.live i).1 (Tree.mem_indices_of_sub_link hp)

theorem exists_path (h : ArenaHolds s t) {i : NodeIdx} (hi : i.val < s.nodeCount.val) : ∃ p, (t.sub p).link = some i :=
  Tree.exists_path ((h.live i).2 hi)

/-- A path that leads to a node has at most 255 bits. -/
theorem path_length (h : ArenaHolds s t) {p : List Bool} {i : NodeIdx} (hp : (t.sub p).link = some i) : p.length ≤ 255 := by
  have hd := h.depth
  have hh := Tree.sub_height hp
  have h1 := Tree.height_pos_of_link hp
  simp only [Config.maxPath] at hd
  omega

theorem nodeCount_eq (h : ArenaHolds s t) : s.nodeCount.val = t.indices.length := by
  have hset : t.indices.toFinset = Finset.univ.filter fun i : NodeIdx => i.val < s.nodeCount.val := by
    ext i
    simp [h.live]
  have hlt := s.nodeCount.isLt
  rw [← List.toFinset_card_of_nodup h.once, hset, Fin.card_filter_val_lt]
  omega

/-- The symbol is on no live node, so it is not in the tree. -/
theorem sym_notMem (h : ArenaHolds s t) {sym : Byte} (hs : ∀ i : NodeIdx, i.val < s.nodeCount.val → s.nodes[i].sym ≠ some sym) :
    sym ∉ t.syms := by
  rw [Tree.mem_syms_iff h.entries]
  rintro ⟨i, hi, his⟩
  exact hs i ((h.live i).1 hi) his

/-- In a tree every node but the root has one parent (R45 item 6). -/
theorem parent_unique (h : ArenaHolds s t) {j : NodeIdx} (hj : j.val < s.nodeCount.val) (hr : j ≠ s.root) :
    ∃! i : NodeIdx, i.val < s.nodeCount.val ∧ IsChild s i j := by
  obtain ⟨p, hp⟩ := h.exists_path hj
  rcases List.eq_nil_or_concat' p with rfl | ⟨q, b, rfl⟩
  · exact absurd (Option.some.inj (hp.symm.trans h.root_path)) hr
  · cases hq : (t.sub q).link with
    | none =>
      rw [Tree.sub_append, (Tree.link_eq_none_iff _).1 hq] at hp
      simp at hp
    | some i =>
      refine ⟨i, ⟨h.live_of_path hq, isChild_iff.2 ⟨b, ?_⟩⟩, fun k ⟨hk, hkj⟩ => ?_⟩
      · rw [← Tree.sub_concat_link h.entries hq b, hp]
      · obtain ⟨w, hw⟩ := h.exists_path hk
        obtain ⟨c, hc⟩ := isChild_iff.1 hkj
        have hsame := Tree.path_unique h.once ((Tree.sub_concat_link h.entries hw c).trans hc) hp
        obtain ⟨rfl, -⟩ := List.append_inj' hsame rfl
        exact Option.some.inj (hw.symm.trans hq)

/-- A full tree in the arena is a valid tree of R45. -/
theorem validTree (h : ArenaHolds s t) (hf : t.full = true) : ValidTreeR45 s where
  classes i hi := by
    obtain ⟨p, hp⟩ := h.exists_path hi
    exact (Tree.classes_of_full (Tree.sub_inArena h.entries p) (Tree.sub_full hf hp) hp).imp And.left And.left
  parents _ := h.parent_unique
  count := by rw [h.nodeCount_eq, h.leaves, Tree.full_indices_length hf]
  distinct i j _ hi hj := Tree.index_unique_of_sym h.entries h.symbols ((h.live i).2 hi) ((h.live j).2 hj)
  depth p i hp _ := h.path_length (by rw [← h.descend_eq, hp])

end ArenaHolds

/-! ## R45 -/

/-- The invariant of a valid tree, for the two states that have one. -/
theorem Inv.valid {s : State} (h : Inv s) (hs : s.treeState = .built ∨ s.treeState = .loaded) : ValidInv s := by
  have ht := h.tree
  unfold TreeInv at ht
  rcases hs with hs | hs <;> rwa [hs] at ht

theorem Inv.empty {s : State} (h : Inv s) (hs : s.treeState = .empty) : EmptyInv s := by
  have ht := h.tree
  unfold TreeInv at ht
  rwa [hs] at ht

theorem Inv.loading {s : State} (h : Inv s) (hs : s.treeState = .loading) : LoadingInv s := by
  have ht := h.tree
  unfold TreeInv at ht
  rwa [hs] at ht

theorem treeState_cases (x : TreeState) : x = .empty ∨ x = .loading ∨ x = .built ∨ x = .loaded := by
  cases x <;> simp

/-- No row is open where no table is being loaded. -/
theorem Inv.loading_of_rowOpen {s : State} (h : Inv s) (ho : s.rowOpen = true) : s.treeState = .loading := by
  rcases treeState_cases s.treeState with hs | hs | hs
  · obtain ⟨-, -, -, -, hrow, -⟩ := h.empty hs
    exact absurd (hrow.symm.trans ho) Bool.false_ne_true
  · exact hs
  · exact absurd ((h.valid hs).1.symm.trans ho) Bool.false_ne_true

/-- A code table is of a valid tree. -/
theorem Inv.valid_of_ctValid {s : State} (h : Inv s) (hc : s.ctValid = true) : s.treeState = .built ∨ s.treeState = .loaded := by
  rcases treeState_cases s.treeState with hs | hs | hs
  · obtain ⟨-, -, -, hct, -⟩ := h.empty hs
    exact absurd (hct.symm.trans hc) Bool.false_ne_true
  · obtain ⟨-, hct, -⟩ := h.loading hs
    exact absurd (hct.symm.trans hc) Bool.false_ne_true
  · exact hs

/-- A decode session is in a valid tree. -/
theorem Inv.valid_of_session {s : State} (h : Inv s) (hd : s.decState ≠ .idle) : s.treeState = .built ∨ s.treeState = .loaded := by
  rcases treeState_cases s.treeState with hs | hs | hs
  · obtain ⟨-, -, -, -, -, hdec⟩ := h.empty hs
    exact absurd hdec hd
  · obtain ⟨-, -, hdec, -⟩ := h.loading hs
    exact absurd hdec hd
  · exact hs

theorem CursorInv.of_atRoot {s : State} {t : Tree} (h : CursorInv s t) (hd : s.decState = .atRoot) : s.cursor = ⟨s.root, 0#8⟩ := by
  unfold CursorInv at h
  rwa [hd] at h

theorem CursorInv.of_descending {s : State} {t : Tree} (h : CursorInv s t) (hd : s.decState = .descending) :
    ∃ p, p ≠ [] ∧ (t.sub p).link = some s.cursor.node ∧ p.length = s.cursor.pending.toNat ∧
      s.nodes[s.cursor.node].isInternal = true := by
  unfold CursorInv at h
  rwa [hd] at h

/-- The invariant implies the eight items of R45. -/
theorem Inv.specR45 {s : State} (h : Inv s) : SpecR45 s where
  item1 := h.empty
  item2 hs := by
    obtain ⟨hroot, hct, hdec, t, ht, -⟩ := h.loading hs
    exact ⟨Nat.succ_le_of_lt (Nat.zero_lt_of_lt (ht.live_of_path ht.root_path)), hroot, hct, hdec⟩
  item3 := h.loading_of_rowOpen
  item4 := by
    refine ⟨h.noRows, fun hc => ⟨h.valid_of_ctValid hc, ?_⟩⟩
    obtain ⟨-, t, ht, hf, hrows, -⟩ := h.valid (h.valid_of_ctValid hc)
    exact BitVec.eq_of_toNat_eq (by rw [(hrows hc).1, Tree.rows_length hf, ht.leaves])
  item5 := h.valid_of_session
  item6 hs := by
    obtain ⟨-, t, ht, hf, -⟩ := h.valid hs
    exact ht.validTree hf
  item7 hd := by
    obtain ⟨-, t, -, -, -, hcur⟩ := h.valid (h.valid_of_session (by rw [hd]; decide))
    rw [hcur.of_atRoot hd]
    exact ⟨rfl, rfl⟩
  item8 hd := by
    obtain ⟨-, t, ht, -, -, hcur⟩ := h.valid (h.valid_of_session (by rw [hd]; decide))
    obtain ⟨p, hne, hp, hlen, hint⟩ := hcur.of_descending hd
    refine ⟨hint, fun hr => hne (Tree.path_unique ht.once (hr ▸ hp) ht.root_path), ?_, p, by rw [ht.descend_eq, hp], hlen⟩
    rw [← hlen]
    exact List.length_pos_iff.2 hne

end Sys2Proof.Safety
end

section
/-! SUPPORT. A subtree put in the place of another: what the loader does to the tree (43_deserializer.md R163, R166). -/

namespace Sys2Proof.Safety

open Sys2Proof.Machine

namespace Tree

/-- The tree with u in the place of the subtree that the path leads to. -/
def put : Tree → List Bool → Tree → Tree
  | _, [], u => u
  | .absent, _ :: _, _ => .absent
  | .node i sym l r, b :: p, u => if b then .node i sym l (r.put p u) else .node i sym (l.put p u) r

@[simp] theorem put_nil (t u : Tree) : t.put [] u = u := by
  cases t <;> rfl

@[simp] theorem put_node_false (i : NodeIdx) (sym : Option Byte) (l r : Tree) (p : List Bool) (u : Tree) :
    (Tree.node i sym l r).put (false :: p) u = .node i sym (l.put p u) r := rfl

@[simp] theorem put_node_true (i : NodeIdx) (sym : Option Byte) (l r : Tree) (p : List Bool) (u : Tree) :
    (Tree.node i sym l r).put (true :: p) u = .node i sym l (r.put p u) := rfl

section

variable {t u : Tree} {p : List Bool} {i : NodeIdx}

/-- A subtree of the same root leaves the tree's root. -/
theorem put_link (hp : (t.sub p).link = some i) (hu : u.link = some i) : (t.put p u).link = t.link := by
  cases p with
  | nil => rw [sub_nil] at hp; rw [put_nil, hp, hu]
  | cons b p =>
    cases t with
    | absent => rfl
    | node j sym l r => cases b <;> rfl

theorem put_sub (hp : (t.sub p).link = some i) : (t.put p u).sub p = u := by
  induction p generalizing t with
  | nil => simp
  | cons b p ih =>
    cases t with
    | absent => simp at hp
    | node j sym l r =>
      rw [sub_node_cons] at hp
      cases b
      · rw [put_node_false, sub_node_cons]; exact ih hp
      · rw [put_node_true, sub_node_cons]; exact ih hp

open scoped List in
/-- A list read off the tree node by node grows by what u has more than the subtree it replaces. -/
theorem put_perm {α : Type} {f : Tree → List α} {own : NodeIdx → Option Byte → List α}
    (hf : ∀ j sym l r, f (.node j sym l r) = own j sym ++ (f l ++ f r)) {new : List α} (hp : (t.sub p).link = some i)
    (hnew : (f u).Perm (new ++ f (t.sub p))) : (f (t.put p u)).Perm (new ++ f t) := by
  induction p generalizing t with
  | nil => rwa [put_nil, ← sub_nil t]
  | cons b p ih =>
    cases t with
    | absent => simp at hp
    | node j sym l r =>
      rw [sub_node_cons] at hp hnew
      cases b
      · rw [put_node_false, hf, hf]
        calc own j sym ++ (f (l.put p u) ++ f r)
          _ ~ own j sym ++ (new ++ f l ++ f r) := ((ih hp hnew).append_right _).append_left _
          _ = own j sym ++ (new ++ (f l ++ f r)) := by rw [List.append_assoc new]
          _ ~ new ++ (own j sym ++ (f l ++ f r)) := List.perm_append_comm_assoc _ _ _
      · rw [put_node_true, hf, hf]
        calc own j sym ++ (f l ++ f (r.put p u))
          _ ~ own j sym ++ (f l ++ (new ++ f r)) := ((ih hp hnew).append_left _).append_left _
          _ ~ own j sym ++ (new ++ (f l ++ f r)) := (List.perm_append_comm_assoc _ _ _).append_left _
          _ ~ new ++ (own j sym ++ (f l ++ f r)) := List.perm_append_comm_assoc _ _ _

theorem put_indices {new : List NodeIdx} (hp : (t.sub p).link = some i) (hnew : u.indices.Perm (new ++ (t.sub p).indices)) :
    (t.put p u).indices.Perm (new ++ t.indices) :=
  put_perm (own := fun j _ => [j]) (fun _ _ _ _ => rfl) hp hnew

theorem put_syms {new : List Byte} (hp : (t.sub p).link = some i) (hnew : u.syms.Perm (new ++ (t.sub p).syms)) :
    (t.put p u).syms.Perm (new ++ t.syms) :=
  put_perm (own := fun _ sym => sym.toList) (fun _ _ _ _ => rfl) hp hnew

theorem put_height (t u : Tree) (p : List Bool) : (t.put p u).height ≤ max t.height (p.length + u.height) := by
  induction p generalizing t with
  | nil => simp
  | cons b p ih =>
    cases t with
    | absent => simp [put]
    | node j sym l r =>
      have hl := ih l
      have hr := ih r
      cases b
      · rw [put_node_false]; simp only [height, List.length_cons]; omega
      · rw [put_node_true]; simp only [height, List.length_cons]; omega

theorem put_labelled (hp : (t.sub p).link = some i) (ht : t.labelled = true) (hul : u.labelled = true) :
    (t.put p u).labelled = true := by
  induction p generalizing t with
  | nil => rwa [put_nil]
  | cons b p ih =>
    cases t with
    | absent => rfl
    | node j sym l r =>
      rw [sub_node_cons] at hp
      cases sym with
      | some c =>
        simp only [labelled, Bool.and_eq_true, Option.isNone_iff_eq_none, link_eq_none_iff] at ht
        obtain ⟨rfl, rfl⟩ := ht
        cases b <;> simp at hp
      | none =>
        simp only [labelled, Bool.and_eq_true] at ht
        cases b
        · exact Bool.and_eq_true_iff.2 ⟨ih hp ht.1, ht.2⟩
        · exact Bool.and_eq_true_iff.2 ⟨ht.1, ih hp ht.2⟩

/-- An arena that holds u, and has kept the entries of the tree outside the subtree that u replaces, holds the tree with u in it. -/
theorem put_inArena {nodes nodes' : Vector Node 511} (hp : (t.sub p).link = some i) (hu : u.link = some i)
    (ht : t.inArena nodes) (hn : t.indices.Nodup) (hua : u.inArena nodes')
    (hkeep : ∀ k ∈ t.indices, k ∉ (t.sub p).indices → nodes'[k] = nodes[k]) : (t.put p u).inArena nodes' := by
  induction p generalizing t with
  | nil => rwa [put_nil]
  | cons b p ih =>
    cases t with
    | absent => trivial
    | node j sym l r =>
      obtain ⟨hs, hl, hr, hla, hra⟩ := ht
      obtain ⟨hjl, hjr, hln, hrn, hd⟩ := nodup_indices_node.1 hn
      rw [sub_node_cons] at hp hkeep
      have hj : nodes'[j] = nodes[j] := by
        refine hkeep j (mem_indices_node.2 (.inl rfl)) fun hm => ?_
        cases b
        · exact hjl (sub_indices_subset l p hm)
        · exact hjr (sub_indices_subset r p hm)
      cases b
      · have hlink := put_link (u := u) hp hu
        have hright : r.inArena nodes' := inArena_congr hra fun k hk =>
          hkeep k (mem_indices_node.2 (.inr (.inr hk))) fun hm => hd (sub_indices_subset l p hm) hk
        exact ⟨hj ▸ hs, hlink ▸ hj ▸ hl, hj ▸ hr,
          ih hp hla hln fun k hk => hkeep k (mem_indices_node.2 (.inr (.inl hk))), hright⟩
      · have hlink := put_link (u := u) hp hu
        have hleft : l.inArena nodes' := inArena_congr hla fun k hk =>
          hkeep k (mem_indices_node.2 (.inr (.inl hk))) fun hm => hd hk (sub_indices_subset r p hm)
        exact ⟨hj ▸ hs, hj ▸ hl, hlink ▸ hj ▸ hr, hleft,
          ih hp hra hrn fun k hk => hkeep k (mem_indices_node.2 (.inr (.inr hk)))⟩

end

/-- A labelled tree in the arena with no placeholder left is full (R168). -/
theorem full_of_complete {nodes : Vector Node 511} {t : Tree} (ha : t.inArena nodes) (hl : t.labelled = true) (hne : t ≠ .absent)
    (hc : ∀ i ∈ t.indices, nodes[i].incomplete = false) : t.full = true := by
  induction t with
  | absent => exact absurd rfl hne
  | node i sym l r ihl ihr =>
    obtain ⟨hs, hleft, hright, hla, hra⟩ := ha
    cases sym with
    | some c => exact hl
    | none =>
      have hi := hc i (mem_indices_node.2 (.inl rfl))
      simp only [Node.incomplete, hs, hleft, hright, Option.isNone_none, Bool.true_and, Bool.or_eq_false_iff,
        Option.isNone_eq_false_iff, Option.isSome_iff_ne_none, ne_eq, link_eq_none_iff] at hi
      simp only [labelled, Bool.and_eq_true] at hl
      simp only [full, Bool.and_eq_true]
      exact ⟨ihl hla hl.1 hi.1 fun k hk => hc k (mem_indices_node.2 (.inr (.inl hk))),
        ihr hra hl.2 hi.2 fun k hk => hc k (mem_indices_node.2 (.inr (.inr hk)))⟩

end Tree

end Sys2Proof.Safety
end

section
/-! SUPPORT. BUILD makes one full tree: Q's entries are the roots of a forest that the merges join (41_tree_builder.md R120 to R125). -/

namespace Sys2Proof.Safety

open Sys2Proof.Machine

/-- The list names the indices below n, each once. -/
structure Covers (l : List NodeIdx) (n : Nat) : Prop where
  once : l.Nodup
  live : ∀ i : NodeIdx, i ∈ l ↔ i.val < n

theorem Covers.of_perm {l l' : List NodeIdx} {n : Nat} (h : Covers l n) (hp : l'.Perm l) : Covers l' n :=
  ⟨hp.nodup_iff.2 h.once, fun i => hp.mem_iff.trans (h.live i)⟩

/-- The next index, put to those below it. -/
theorem Covers.cons {l : List NodeIdx} {n : Nat} (h : Covers l n) {j : NodeIdx} (hj : j.val = n) : Covers (j :: l) (n + 1) where
  once := List.nodup_cons.2 ⟨fun hm => by have := (h.live j).1 hm; omega, h.once⟩
  live i := by
    rw [List.mem_cons, h.live, Fin.ext_iff]
    omega

/-- Q's entries are the roots of full trees that lie in the arena, share no node and no symbol, and have k leaves together. -/
structure Forest (k : Nat) (b : Builder) (ts : List Tree) : Prop where
  roots : List.Forall₂ (fun e t => Tree.link t = some e.idx) b.queue ts
  entries : ∀ t ∈ ts, t.inArena b.nodes
  full : ∀ t ∈ ts, t.full = true
  covers : Covers (ts.flatMap Tree.indices) b.n
  symbols : (ts.flatMap Tree.syms).Nodup
  count : (ts.flatMap Tree.syms).length = k

namespace Forest

variable {k : Nat} {b : Builder} {ts : List Tree}

/-- Q in another order has its trees in another order. -/
theorem reorder (h : Forest k b ts) {q : List QEntry} (hq : b.queue.Perm q) : ∃ us, Forest k { b with queue := q } us := by
  obtain ⟨us, hroots, hperm⟩ := List.perm_comp_forall₂ hq.symm h.roots
  exact ⟨us, hroots, fun t ht => h.entries t (hperm.mem_iff.1 ht), fun t ht => h.full t (hperm.mem_iff.1 ht),
    h.covers.of_perm (hperm.flatMap_right _), (hperm.flatMap_right _).nodup_iff.2 h.symbols,
    (hperm.flatMap_right Tree.syms).length_eq.trans h.count⟩

/-- The trees made so far stay in the arena when a node is pushed. -/
theorem inArena_push (h : Forest k b ts) (hn : b.n < 511) {t : Tree} (ht : t ∈ ts) (node : Node) : t.inArena (b.push node).nodes := by
  refine Tree.inArena_set (Fin.ofNat 511 b.n) node (h.entries t ht) fun hm => ?_
  have hlt := (h.covers.live _).1 (List.mem_flatMap.2 ⟨t, ht, hm⟩)
  rw [Builder.ofNat_n_val hn] at hlt
  exact Nat.lt_irrefl _ hlt

/-- A leaf of a new symbol makes a tree of its own. -/
theorem pushLeaf (h : Forest k b ts) (hn : b.n < 511) {sym : Byte} (hsym : sym ∉ ts.flatMap Tree.syms) (f : NodeFreq) :
    Forest (k + 1) (b.push { left := none, right := none, sym := some sym, nfreq := f })
      (.node (Fin.ofNat 511 b.n) (some sym) .absent .absent :: ts) where
  roots := .cons rfl h.roots
  entries := by
    refine List.forall_mem_cons.2 ⟨?_, fun t ht => h.inArena_push hn ht _⟩
    simp only [Tree.inArena, Builder.push_get_new hn, Tree.link_absent, and_self]
  full := List.forall_mem_cons.2 ⟨rfl, h.full⟩
  covers := h.covers.cons (Builder.ofNat_n_val hn)
  symbols := List.nodup_cons.2 ⟨hsym, h.symbols⟩
  count := congrArg (· + 1) h.count

/-- The first two trees of Q become the children of a new root. -/
theorem pushMerged {x y : QEntry} {q : List QEntry} {tx ty : Tree} (h : Forest k { b with queue := x :: y :: q } (tx :: ty :: ts))
    (hn : b.n < 511) (f : NodeFreq) :
    Forest k ({ b with queue := q }.push { left := some x.idx, right := some y.idx, sym := none, nfreq := f })
      (.node (Fin.ofNat 511 b.n) none tx ty :: ts) := by
  obtain ⟨hx, hrest⟩ := List.forall₂_cons.1 h.roots
  obtain ⟨hy, hroots⟩ := List.forall₂_cons.1 hrest
  have inArena : ∀ t ∈ tx :: ty :: ts,
      t.inArena (({ b with queue := q } : Builder).push { left := some x.idx, right := some y.idx, sym := none, nfreq := f }).nodes :=
    fun t ht => h.inArena_push hn ht _
  have hflat : ∀ {α : Type} (g : Tree → List α), (tx :: ty :: ts).flatMap g = g tx ++ g ty ++ ts.flatMap g := fun g => by
    rw [List.flatMap_cons, List.flatMap_cons, List.append_assoc]
  have hsyms : (Tree.node (Fin.ofNat 511 b.n) none tx ty :: ts).flatMap Tree.syms = (tx :: ty :: ts).flatMap Tree.syms :=
    (hflat Tree.syms).symm
  refine ⟨.cons rfl hroots, List.forall_mem_cons.2 ⟨?_, fun t ht => inArena t (by simp [ht])⟩,
    List.forall_mem_cons.2 ⟨?_, fun t ht => h.full t (by simp [ht])⟩, ?_, hsyms ▸ h.symbols, hsyms ▸ h.count⟩
  · have hget := Builder.push_get_new (b := { b with queue := q }) hn { left := some x.idx, right := some y.idx, sym := none, nfreq := f }
    exact ⟨congrArg Node.sym hget, (congrArg Node.left hget).trans hx.symm, (congrArg Node.right hget).trans hy.symm,
      inArena tx (by simp), inArena ty (by simp)⟩
  · exact Bool.and_eq_true_iff.2 ⟨h.full tx (by simp), h.full ty (by simp)⟩
  · have hcov := h.covers
    rw [hflat] at hcov
    exact hcov.cons (Builder.ofNat_n_val hn)

theorem mergeTurn (h : Forest k b ts) (hroom : b.Room) (hq : 1 < b.queue.length) : ∃ us, Forest k b.mergeTurn us := by
  obtain ⟨x, y, q1, q2, hx, hy, he⟩ := Builder.mergeTurn_spec hq
  obtain ⟨-, -, hxp⟩ := extractMin_spec hx
  obtain ⟨-, -, hyp⟩ := extractMin_spec hy
  obtain ⟨us, hus⟩ := h.reorder (hxp.trans (hyp.cons x))
  obtain ⟨tx, us1, -, hus1, rfl⟩ := List.forall₂_cons_left_iff.1 hus.roots
  obtain ⟨ty, us2, -, -, rfl⟩ := List.forall₂_cons_left_iff.1 hus1
  exact ⟨_, he ▸ hus.pushMerged (hroom.n_lt_of_merge hq) _⟩

end Forest

theorem leavesOf_forest (s : State) : ∃ ts, Forest (Builder.leavesOf s).n (Builder.leavesOf s) ts := by
  refine (Builder.leaves_induct (P := fun m b => b.n ≤ m ∧ ∃ ts, Forest b.n b ts ∧ ∀ c ∈ ts.flatMap Tree.syms, c.toNat < m)
    ⟨Nat.le_refl 0, [], ?_, by simp⟩ fun m b hm ⟨hn, ts, hts, hlt⟩ => ?_).2.imp fun _ => And.left
  · exact ⟨.nil, by simp, by simp, ⟨List.nodup_nil, by simp [Builder.start]⟩, List.nodup_nil, rfl⟩
  · unfold Builder.leafTurn
    split
    · exact ⟨Nat.le_succ_of_le hn, ts, hts, fun c hc => Nat.lt_succ_of_lt (hlt c hc)⟩
    · have hval : (BitVec.ofNat 8 m).toNat = m := Nat.mod_eq_of_lt hm
      have hnew : BitVec.ofNat 8 m ∉ ts.flatMap Tree.syms := fun hc => by
        have := hlt _ hc
        omega
      refine ⟨Nat.succ_le_succ hn, _, hts.pushLeaf (by omega) hnew _, List.forall_mem_cons.2 ⟨?_, fun c hc => ?_⟩⟩
      · rw [hval]
        exact Nat.lt_succ_self m
      · exact Nat.lt_succ_of_lt (hlt c hc)

theorem builtOf_forest (s : State) : ∃ ts, Forest (Builder.leavesOf s).n (Builder.builtOf s) ts :=
  (Builder.merges_induct (P := fun b => b.Room ∧ ∃ ts, Forest (Builder.leavesOf s).n b ts)
    (fun _ hq ⟨hr, _, hts⟩ => ⟨hr.mergeTurn hq, hts.mergeTurn hr hq⟩) Config.syms
    ⟨Builder.leavesOf_room s, leavesOf_forest s⟩).2

/-- BUILD of at least one symbol leaves one full tree, whose root is the entry left in Q (R125). -/
theorem build_arenaHolds {s : State} (hne : (Builder.leavesOf s).n ≠ 0) :
    ∃ t, ArenaHolds (Builder.result s) t ∧ t.full = true := by
  obtain ⟨hone, hn⟩ := Builder.builtOf_length hne
  obtain ⟨-, hle⟩ := Builder.leaves_n_eq s
  obtain ⟨e, he⟩ := List.length_eq_one_iff.1 hone
  obtain ⟨ts, hts⟩ := builtOf_forest s
  obtain ⟨u, us, hu, hus, rfl⟩ := List.forall₂_cons_left_iff.1 (he ▸ hts.roots)
  obtain rfl := List.forall₂_nil_left_iff.1 hus
  have hfull := hts.full u (by simp)
  have hcov := hts.covers
  have hsyms := hts.symbols
  have hcount := hts.count
  rw [List.flatMap_singleton] at hcov hsyms hcount
  refine ⟨u, ⟨?_, hts.entries u (by simp), hcov.once, fun i => ?_, ?_, hsyms, ?_⟩, hfull⟩
  · simp [Builder.result, he, hu]
  · rw [hcov.live]
    have hmod : (Fin.ofNat 512 (Builder.builtOf s).n).val = (Builder.builtOf s).n := Nat.mod_eq_of_lt (by omega)
    simp only [Builder.result, hmod]
  · have hh := Tree.height_le_of_full hfull
    simp only [Config.maxPath]
    omega
  · simp only [Builder.result, BitVec.toNat_ofNat]
    omega

end Sys2Proof.Safety
end

section
/-! SUPPORT. The invariant is kept by every access, every operation of the core and every command (10_state.md R45). -/

namespace Sys2Proof.Safety

open Sys2Proof.Machine

/-! ## What the invariant does not depend on -/

/-- A tree is held alike where the arena, ROOT and the counts are the same. -/
theorem ArenaHolds.congr {s s' : State} {t : Tree} (h : ArenaHolds s t) (root : s'.root = s.root) (nodes : s'.nodes = s.nodes)
    (nodeCount : s'.nodeCount = s.nodeCount) (leafCount : s'.leafCount = s.leafCount) : ArenaHolds s' t where
  root := root ▸ h.root
  entries := nodes ▸ h.entries
  once := h.once
  live := nodeCount ▸ h.live
  depth := h.depth
  symbols := h.symbols
  leaves := leafCount ▸ h.leaves

/-- t has the tree, the table, the open row and the session of s. -/
def SameTree (s t : State) : Prop :=
  t = { s with
    data := t.data, err := t.err, overrun := t.overrun, errReg := t.errReg, resLen := t.resLen, resPath := t.resPath, decOut := t.decOut,
    decCount := t.decCount, pend := t.pend, initPending := t.initPending, freq := t.freq, inputs := t.inputs, reads := t.reads,
    draws := t.draws }

theorem TreeInv.of_sameTree {s t : State} (h : TreeInv s) (ht : SameTree s t) : TreeInv t := by
  have hA : ∀ u, ArenaHolds s u → ArenaHolds t u := fun u hu =>
    hu.congr (congrArg State.root ht :) (congrArg State.nodes ht :) (congrArg State.nodeCount ht :) (congrArg State.leafCount ht :)
  have hvalid : ValidInv s → ValidInv t := fun ⟨hrow, u, hu, hf, hrows, hcur⟩ => by
    rw [ht] at hA ⊢
    exact ⟨hrow, u, hA u hu, hf, hrows, hcur⟩
  have hloading : LoadingInv s → LoadingInv t := fun ⟨hroot, hct, hdec, u, hu, hl, hrow⟩ => by
    rw [ht] at hA ⊢
    exact ⟨hroot, hct, hdec, u, hA u hu, hl, hrow⟩
  have hempty : EmptyInv s → EmptyInv t := fun he => by
    rw [ht]
    exact he
  have hts : t.treeState = s.treeState := (congrArg State.treeState ht :)
  unfold TreeInv at h ⊢
  rw [hts]
  cases hs : s.treeState <;> rw [hs] at h
  · exact hempty h
  · exact hvalid h
  · exact hloading h
  · exact hvalid h

theorem TreeInv.of_valid {s : State} (hs : s.treeState = .built ∨ s.treeState = .loaded) (h : ValidInv s) : TreeInv s := by
  unfold TreeInv
  rcases hs with hs | hs <;> rwa [hs]

theorem TreeInv.of_loading {s : State} (hs : s.treeState = .loading) (h : LoadingInv s) : TreeInv s := by
  unfold TreeInv
  rwa [hs]

theorem TreeInv.of_empty {s : State} (hs : s.treeState = .empty) (h : EmptyInv s) : TreeInv s := by
  unfold TreeInv
  rwa [hs]

/-- The invariant, where a command has written the tree, the table, the open row and the session alone. -/
theorem Inv.of_tree {s t : State} (h : Inv s)
    (ht : t = { s with
      ctValid := t.ctValid, treeState := t.treeState, rowOpen := t.rowOpen, decState := t.decState, root := t.root,
      leafCount := t.leafCount, nodeCount := t.nodeCount, rowCount := t.rowCount, decOut := t.decOut, decCount := t.decCount,
      cursor := t.cursor, loadCur := t.loadCur, nodes := t.nodes, ct := t.ct })
    (tree : TreeInv t) (noRows : t.ctValid = false → t.rowCount = 0#9) (noRow : t.rowOpen = false → t.loadCur = ⟨0#8, 0#8, 0⟩) :
    Inv t := by
  rw [ht] at tree noRows noRow ⊢
  exact { h with tree := tree, noRows := noRows, noRow := noRow }

/-! ## The core's own operations and the accesses -/

theorem Inv.hardwareReset (s : State) : Inv s.hardwareReset where
  freq := rfl
  tree := .of_empty rfl ⟨rfl, rfl, rfl, rfl, rfl, rfl⟩
  noRows _ := rfl
  noRow _ := rfl
  noError _ := rfl
  error h := absurd h Bool.false_ne_true
  result _ _ := BitVec.getLsbD_zero
  init _ := rfl

theorem Inv.outside {s : State} (h : Inv s) (inputs : List Input) (reads : List Word) (draws : Nat) :
    Inv { s with inputs := inputs, reads := reads, draws := draws } :=
  { h with tree := h.tree.of_sameTree rfl }

theorem Inv.initJob {s : State} (h : Inv s) : Inv s.initJob :=
  { h with freq := rfl, tree := h.tree.of_sameTree rfl, init := fun hi => absurd hi Bool.false_ne_true }

theorem Inv.complete {s : State} (h : Inv s) : Inv s.complete :=
  { h with tree := h.tree.of_sameTree rfl, init := fun _ => rfl }

theorem Inv.hostWrite {s : State} (h : Inv s) (a : WordAddr) (v : Word) : Inv (s.hostWrite a v) := by
  rcases State.hostWrite_cases s a v with ⟨-, -, hw⟩ | ⟨hb, -, hw⟩ | ⟨-, -, hw⟩ | ⟨-, sym, -, hw⟩ | ⟨-, -, -, hw⟩ <;> rw [hw]
  · exact { h with tree := h.tree.of_sameTree rfl }
  · have hinit : s.initPending = false := (Bool.or_eq_false_iff.1 hb).2
    exact { h with tree := h.tree.of_sameTree rfl, init := fun hi => absurd (hinit.symm.trans hi) Bool.false_ne_true }
  · exact { h with tree := h.tree.of_sameTree rfl }
  · exact { h with freq := State.setFreq_wf h.freq sym v, tree := h.tree.of_sameTree rfl }
  · exact h

theorem Inv.discardTree {s : State} (h : Inv s) : Inv s.discardTree :=
  { h with tree := .of_empty rfl ⟨rfl, rfl, rfl, rfl, rfl, rfl⟩, noRows := fun _ => rfl, noRow := fun _ => rfl }

theorem Inv.recordError {s : State} (h : Inv s) (op : Byte) (e : ErrorKind) : Inv (s.recordError op e) := by
  cases he : s.err with
  | true => rwa [State.recordError, if_pos he]
  | false =>
    rw [State.recordError_of_clear s he]
    exact { h with
      tree := h.tree.of_sameTree rfl, noError := fun hc => absurd hc.symm Bool.false_ne_true, error := fun _ => ⟨op, e, rfl⟩ }

theorem Inv.raise {s : State} (h : Inv s) (op : Byte) (e : ErrorKind) : Inv (s.raise op e) := by
  have hr := h.recordError op e
  cases e with
  | construction => exact hr.discardTree
  | format sub => exact hr.discardTree
  | truncated => exact hr
  | degenerate => exact hr
  | sequence => exact hr
  | symbolAbsent => exact hr
  | illegalCmd why => exact hr

theorem Inv.clearError {s : State} (h : Inv s) : Inv s.clearError :=
  { h with tree := h.tree.of_sameTree rfl, noError := fun _ => rfl, error := fun hc => absurd hc Bool.false_ne_true }

/-! ## The builder and the encoder -/

theorem valid_iff (x : TreeState) : x.valid = true ↔ x = .built ∨ x = .loaded := by
  cases x <;> decide

theorem Inv.buildTree {s : State} (h : Inv s) : Inv (buildTree s) := by
  rcases buildTree_cases s with ⟨-, hb⟩ | ⟨hne, hb⟩ <;> rw [hb]
  · exact h.discardTree.raise _ _
  · obtain ⟨t, ht, hf⟩ := build_arenaHolds hne
    exact h.of_tree rfl (.of_valid (.inl rfl) ⟨rfl, t, ht, hf, fun hc => absurd hc Bool.false_ne_true, trivial⟩)
      (fun _ => rfl) fun _ => rfl

theorem Inv.serializeTree {s t : State} (h : Inv s) (ha : s.treeState.valid = true) (hs : serializeTree s = .next t) : Inv t := by
  have hts := (valid_iff _).1 ha
  obtain ⟨rows, hv, hlen, rfl⟩ := serializeTree_next hs
  obtain ⟨hrow, u, hu, hf, -, hcur⟩ := h.valid hts
  obtain rfl := Option.some.inj ((Tree.visit_eq_rows hu.entries hu.root hf hu.depth []).symm.trans hv)
  have hcount : (BitVec.ofNat 9 (u.rows []).length).toNat = (u.rows []).length := Nat.mod_eq_of_lt (by omega)
  have hlive : (writeRows (u.rows []) s.ct).toList.take (BitVec.ofNat 9 (u.rows []).length).toNat = u.rows [] := by
    rw [hcount, take_writeRows _ _ hlen]
  refine h.of_tree rfl (.of_valid hts ⟨hrow, u, hu.congr rfl rfl rfl rfl, hf, fun _ => ⟨hcount, hlive⟩, hcur⟩) ?_ h.noRow
  exact fun hc => absurd hc.symm Bool.false_ne_true

/-- A live row of a valid table has no bit at LEN or above (R44). -/
theorem Inv.row_bits {s : State} (h : Inv s) (hc : s.ctValid = true) {r : Row} (hr : r ∈ s.liveRows) (i : Nat) (hi : r.len.toNat ≤ i) :
    r.path.getLsbD i = false := by
  obtain ⟨-, t, ht, -, hrows, -⟩ := h.valid (h.valid_of_ctValid hc)
  rw [(hrows hc).2] at hr
  obtain ⟨sym, q, rfl, hq⟩ := Tree.exists_path_of_mem_rows hr
  have hd := ht.depth
  simp only [Config.maxPath, List.length_nil] at hd hq
  have hlen : (BitVec.ofNat 8 q.length).toNat = q.length := Nat.mod_eq_of_lt (by omega)
  simp only [Row.ofPath, hlen] at hi
  by_cases h256 : i < 256
  · simp [Row.ofPath, pack_getLsbD q i h256, hi]
  · exact BitVec.getLsbD_of_ge _ _ (Nat.le_of_not_lt h256)

theorem Inv.encodeSymbol {s : State} (h : Inv s) (hc : s.ctValid = true) (sym : Byte) : Inv (encodeSymbol sym s) := by
  rcases encodeSymbol_cases sym s with he | ⟨r, hr, he⟩ <;> rw [he]
  · exact h.raise _ _
  · exact { h with tree := h.tree.of_sameTree rfl, result := h.row_bits hc hr }

/-! ## The decoder -/

/-- A state that differs from one of the invariant in its session alone, the session's cursor being in the valid tree. -/
theorem Inv.of_session {s t : State} (h : Inv s) (hs : s.treeState = .built ∨ s.treeState = .loaded)
    (ht : t = { s with decState := t.decState, cursor := t.cursor, decCount := t.decCount, decOut := t.decOut })
    (hcur : ∀ u, ArenaHolds s u → u.full = true → CursorInv s u → CursorInv t u) : Inv t := by
  obtain ⟨hrow, u, hu, hf, hrows, hc⟩ := h.valid hs
  have hct := hcur u hu hf hc
  have hA : ArenaHolds t u :=
    hu.congr (congrArg State.root ht :) (congrArg State.nodes ht :) (congrArg State.nodeCount ht :) (congrArg State.leafCount ht :)
  rw [ht] at hct hA ⊢
  exact h.of_tree rfl (.of_valid hs ⟨hrow, u, hA, hf, hrows, hct⟩) h.noRows h.noRow

theorem Inv.decBegin {s : State} (h : Inv s) (ha : s.treeState.valid = true) : Inv (decBegin s) :=
  h.of_session ((valid_iff _).1 ha) rfl fun _ _ _ _ => rfl

theorem Inv.endSession {s : State} (h : Inv s) (hd : s.decState ≠ .idle) : Inv { s with decState := .idle } :=
  h.of_session (h.valid_of_session hd) rfl fun _ _ _ _ => trivial

theorem Inv.decEnd {s : State} (h : Inv s) (hd : s.decState ≠ .idle) : Inv (decEnd s) := by
  rcases decEnd_cases s with he | he <;> rw [he]
  · exact (h.endSession hd).raise _ _
  · exact h.endSession hd

/-- In a session a path of PENDING bits leads to the cursor. -/
theorem CursorInv.exists_path {s : State} {t : Tree} (h : CursorInv s t) (ht : ArenaHolds s t) (hd : s.decState ≠ .idle) :
    ∃ p, (t.sub p).link = some s.cursor.node ∧ p.length = s.cursor.pending.toNat := by
  cases hs : s.decState with
  | idle => exact absurd hs hd
  | atRoot =>
    rw [h.of_atRoot hs]
    exact ⟨[], ht.root_path, rfl⟩
  | descending =>
    obtain ⟨p, -, hp, hlen, -⟩ := h.of_descending hs
    exact ⟨p, hp, hlen⟩

theorem Inv.decBit {s : State} (h : Inv s) (hd : s.decState ≠ .idle) (b : Bool) : Inv (decBit b s) := by
  have hs := h.valid_of_session hd
  rcases decBit_cases b s with ⟨-, he⟩ | ⟨j, hj, ⟨sym, -, he⟩ | ⟨hsym, he⟩⟩ <;> rw [he]
  · exact (h.endSession hd).raise _ _
  · exact h.of_session hs rfl fun _ _ _ _ => rfl
  · refine h.of_session hs rfl fun t ht hf hcur => ?_
    obtain ⟨p, hp, hlen⟩ := hcur.exists_path ht hd
    have hpj : (t.sub (p ++ [b])).link = some j := (Tree.sub_concat_link ht.entries hp b).trans hj
    have hshort := ht.path_length hpj
    rw [List.length_append, List.length_singleton] at hshort
    refine ⟨p ++ [b], by simp, hpj, ?_, ?_⟩
    · rw [List.length_append, List.length_singleton, hlen, BitVec.toNat_add]
      simp only [BitVec.toNat_ofNat]
      omega
    · rcases Tree.classes_of_full (Tree.sub_inArena ht.entries _) (Tree.sub_full hf hpj) hpj with ⟨-, c, hc⟩ | ⟨hint, -⟩
      · exact absurd (hsym.symm.trans hc) (by simp)
      · exact hint

end Sys2Proof.Safety
end

section
/-! SUPPORT. The loader keeps one tree in the arena (43_deserializer.md R161 to R168), and what follows for every step and every run. -/

namespace Sys2Proof.Safety

open Sys2Proof.Machine

/-! ## The tree with a new child, and with a new symbol -/

theorem ArenaHolds.covers {s : State} {t : Tree} (h : ArenaHolds s t) : Covers t.indices s.nodeCount.val := ⟨h.once, h.live⟩

/-- Distinct symbols are at most 256. -/
theorem length_le_of_nodup {l : List Byte} (h : l.Nodup) : l.length ≤ 256 := by
  have hmap : (l.map BitVec.toNat).Nodup := h.map fun _ _ => BitVec.eq_of_toNat_eq
  have hsub : l.map BitVec.toNat ⊆ List.range 256 := by
    intro n hn
    obtain ⟨c, -, rfl⟩ := List.mem_map.1 hn
    exact List.mem_range.2 c.isLt
  simpa using (hmap.subperm hsub).length_le

/-- A subtree put in the place of another leaves one tree in the arena, where the entries outside it are kept. -/
theorem ArenaHolds.put {s s' : State} {t u : Tree} {p : List Bool} {i : NodeIdx} (h : ArenaHolds s t) (hp : (t.sub p).link = some i)
    (hu : u.link = some i) (hua : u.inArena s'.nodes) (hkeep : ∀ k ∈ t.indices, k ∉ (t.sub p).indices → s'.nodes[k] = s.nodes[k])
    (root : s'.root = s.root) (covers : Covers (t.put p u).indices s'.nodeCount.val) (height : p.length + u.height ≤ 256)
    (symbols : (t.put p u).syms.Nodup) (leaves : s'.leafCount.toNat = (t.put p u).syms.length) : ArenaHolds s' (t.put p u) where
  root := by rw [Tree.put_link hp hu, h.root, root]
  entries := Tree.put_inArena hp hu h.entries h.once hua hkeep
  once := covers.once
  live := covers.live
  depth := (Tree.put_height t u p).trans (max_le h.depth height)
  symbols := symbols
  leaves := leaves

/-- The tree with c as the child of its root on the side of b. -/
def Tree.setSide : Tree → Bool → Tree → Tree
  | .absent, _, _ => .absent
  | .node i sym l r, b, c => if b then .node i sym l c else .node i sym c r

/-- A placeholder with no symbol and no child (R161, R163). -/
def Tree.placeholder (j : NodeIdx) : Tree := .node j none .absent .absent

/-- What a placeholder adds to a node without a symbol, as a child that was absent. -/
structure Tree.SideAdded (i j : NodeIdx) (l r : Tree) (b : Bool) (u : Tree) : Prop where
  link : u.link = some i
  indices : u.indices.Perm ([j] ++ (Tree.node i none l r).indices)
  syms : u.syms = (Tree.node i none l r).syms
  height : u.height ≤ max (Tree.node i none l r).height 2
  labelled : (Tree.node i none l r).labelled = true → u.labelled = true
  child : (u.sub [b]).link = some j

theorem Tree.setSide_placeholder {i : NodeIdx} {l r : Tree} {b : Bool} (hb : (if b then r else l) = .absent) (j : NodeIdx) :
    SideAdded i j l r b ((Tree.node i none l r).setSide b (.placeholder j)) := by
  cases b
  · obtain rfl : l = .absent := hb
    refine ⟨rfl, .swap _ _ _, by simp [setSide, placeholder, syms], ?_, by simp [setSide, placeholder, labelled],
      by simp [setSide, placeholder]⟩
    simp only [setSide, placeholder, height, Bool.false_eq_true, if_false]
    omega
  · obtain rfl : r = .absent := hb
    refine ⟨rfl, ?_, by simp [setSide, placeholder, syms], ?_, by simp [setSide, placeholder, labelled],
      by simp [setSide, placeholder]⟩
    · simp only [setSide, placeholder, indices, if_true, List.append_nil]
      exact List.perm_append_comm (l₁ := i :: l.indices)
    · simp only [setSide, placeholder, height, if_true]
      omega

/-- An arena with the placeholder's entry and the link to it, and otherwise unchanged, holds the tree with the placeholder. -/
theorem Tree.setSide_inArena {nodes nodes' : Vector Node 511} {i j : NodeIdx} {l r : Tree} (b : Bool)
    (h : (Tree.node i none l r).inArena nodes) (hn : (Tree.node i none l r).indices.Nodup) (hj : j ∉ (Tree.node i none l r).indices)
    (hnewj : nodes'[j] = Node.empty)
    (hnewi : nodes'[i] = (if b then { nodes[i] with right := some j } else { nodes[i] with left := some j }))
    (hold : ∀ k : NodeIdx, k ≠ i → k ≠ j → nodes'[k] = nodes[k]) :
    ((Tree.node i none l r).setSide b (.placeholder j)).inArena nodes' := by
  obtain ⟨hs, hleft, hright, hla, hra⟩ := h
  obtain ⟨hil, hir, -, -, -⟩ := nodup_indices_node.1 hn
  have hplace : (placeholder j).inArena nodes' := by
    simp only [placeholder, inArena, hnewj, Node.empty, link_absent, and_self]
  have hl : l.inArena nodes' := inArena_congr hla fun k hk =>
    hold k (fun he => hil (he ▸ hk)) fun he => hj (he ▸ mem_indices_node.2 (.inr (.inl hk)))
  have hr : r.inArena nodes' := inArena_congr hra fun k hk =>
    hold k (fun he => hir (he ▸ hk)) fun he => hj (he ▸ mem_indices_node.2 (.inr (.inr hk)))
  cases b
  · exact ⟨hnewi ▸ hs, hnewi ▸ rfl, hnewi ▸ hright, hplace, hr⟩
  · exact ⟨hnewi ▸ hs, hnewi ▸ hleft, hnewi ▸ rfl, hl, hplace⟩

/-- What descending to a child that was absent writes: a new last entry, and the link to it. -/
theorem descendOrMake_made {s s' : State} {i j : NodeIdx} {b : Bool} (h : s.descendOrMake i b = some (j, s'))
    (hc : s.nodes[i].child b = none) (hi : i.val < s.nodeCount.val) :
    j.val = s.nodeCount.val ∧ s'.nodeCount.val = s.nodeCount.val + 1 ∧ s'.nodes[j] = Node.empty ∧
      s'.nodes[i] = (if b then { s.nodes[i] with right := some j } else { s.nodes[i] with left := some j }) ∧
      ∀ k : NodeIdx, k ≠ i → k ≠ j → s'.nodes[k] = s.nodes[k] := by
  rcases State.descendOrMake_cases h with ⟨hsome, -⟩ | ⟨-, u, hu, rfl⟩
  · exact absurd (hc.symm.trans hsome) (by simp)
  · obtain ⟨hj, hn, hframe⟩ := State.alloc_spec hu
    have hij : i ≠ j := fun he => by rw [← he] at hj; omega
    have hnodes : u.nodes = (s.setNode j Node.empty).nodes := (congrArg State.nodes hframe :)
    refine ⟨hj, by rw [State.setChild_frame]; exact hn, ?_, ?_, fun k hki hkj => ?_⟩
    · rw [State.setChild_get_other u hij, hnodes, State.setNode_get_same]
    · rw [State.setChild_get_same, hnodes, State.setNode_get_other s hij.symm]
    · rw [State.setChild_get_other u hki.symm, hnodes, State.setNode_get_other s hkj.symm]

/-- Descending from a node with no symbol keeps one tree in the arena, with the same symbols, and the longer path leads to the child. -/
theorem ArenaHolds.descendOrMake {s s' : State} {t : Tree} {p : List Bool} {i j : NodeIdx} {b : Bool} (h : ArenaHolds s t)
    (hl : t.labelled = true) (hp : (t.sub p).link = some i) (hlen : p.length < 255) (hsym : s.nodes[i].sym = none)
    (hd : s.descendOrMake i b = some (j, s')) :
    ∃ t', ArenaHolds s' t' ∧ t'.labelled = true ∧ (t'.sub (p ++ [b])).link = some j ∧ t'.syms.Perm t.syms := by
  cases hc : s.nodes[i].child b with
  | some k =>
    rcases State.descendOrMake_cases hd with ⟨hk, rfl⟩ | ⟨hnone, -⟩
    · exact ⟨t, h, hl, (Tree.sub_concat_link h.entries hp b).trans hk, .refl _⟩
    · exact absurd (hnone.symm.trans hc) (by simp)
  | none =>
    obtain ⟨hj, hn, hnewj, hnewi, hold⟩ := descendOrMake_made hd hc (h.live_of_path hp)
    obtain ⟨sym, l, r, hsub⟩ := Tree.exists_node_of_link hp
    have hsubA := Tree.sub_inArena h.entries p
    have hsubN := Tree.sub_nodup h.once p
    have hjnew : j ∉ t.indices := fun hm => by have := (h.live j).1 hm; omega
    have hjsub : j ∉ (t.sub p).indices := fun hm => hjnew (Tree.sub_indices_subset t p hm)
    rw [hsub] at hsubA hsubN hjsub
    obtain rfl : sym = none := hsubA.1.symm.trans hsym
    have hb : (if b then r else l) = .absent := by
      rw [← Tree.link_eq_none_iff, ← hc, ← Tree.sub_concat_link h.entries hp b, Tree.sub_append, hsub, Tree.sub_node_cons, Tree.sub_nil]
    have hu := Tree.setSide_placeholder (i := i) hb j
    have hua := Tree.setSide_inArena b hsubA hsubN hjsub hnewj hnewi hold
    have hindices := Tree.put_indices hp (by rw [hsub]; exact hu.indices)
    have hsyms := Tree.put_syms (new := []) hp (by rw [hsub, hu.syms]; exact .refl _)
    refine ⟨t.put p _, h.put hp hu.link hua (fun k hk hkp => ?_) ?_ ?_ ?_ ?_ ?_, ?_, ?_, hsyms⟩
    · rw [hsub] at hkp
      exact hold k (fun he => hkp (he ▸ Tree.mem_indices_node.2 (.inl rfl))) fun he => hjnew (he ▸ hk)
    · rw [State.descendOrMake_frame hd]
    · rw [hn]
      exact (h.covers.cons hj).of_perm hindices
    · have hheight := hu.height
      have hsubh := Tree.sub_height hp
      have hd := h.depth
      rw [hsub] at hsubh
      simp only [Config.maxPath] at hd
      omega
    · exact hsyms.nodup_iff.2 h.symbols
    · rw [hsyms.length_eq, State.descendOrMake_frame hd]
      exact h.leaves
    · exact Tree.put_labelled hp hl (hu.labelled (hsub ▸ Tree.sub_labelled hl p))
    · rw [Tree.sub_append, Tree.put_sub hp]
      exact hu.child

/-- A symbol for a placeholder keeps one tree in the arena, with that leaf more. -/
theorem ArenaHolds.label {s : State} {t : Tree} {p : List Bool} {i : NodeIdx} {sym : Byte} (h : ArenaHolds s t)
    (hl : t.labelled = true) (hp : (t.sub p).link = some i) (hsym : s.nodes[i].sym = none) (hleft : s.nodes[i].left = none)
    (hright : s.nodes[i].right = none) (hnew : sym ∉ t.syms) :
    ∃ t', ArenaHolds { s.setNode i { s.nodes[i] with sym := some sym } with leafCount := s.leafCount + 1#9 } t' ∧
      t'.labelled = true := by
  obtain ⟨sym', l, r, hsub⟩ := Tree.exists_node_of_link hp
  obtain ⟨hs, hll, hrl, -, -⟩ := hsub ▸ Tree.sub_inArena h.entries p
  obtain rfl : sym' = none := hs.symm.trans hsym
  obtain rfl := (Tree.link_eq_none_iff _).1 (hll.symm.trans hleft)
  obtain rfl := (Tree.link_eq_none_iff _).1 (hrl.symm.trans hright)
  have hindices := Tree.put_indices (u := .node i (some sym) .absent .absent) (new := []) hp (by rw [hsub]; exact .refl _)
  have hsyms := Tree.put_syms (u := .node i (some sym) .absent .absent) (new := [sym]) hp (by rw [hsub]; exact .refl _)
  have hnodup : (sym :: t.syms).Nodup := List.nodup_cons.2 ⟨hnew, h.symbols⟩
  refine ⟨t.put p (.node i (some sym) .absent .absent), h.put hp rfl ?_ (fun k _ hkp => ?_) rfl
    (h.covers.of_perm hindices) ?_ (hsyms.nodup_iff.2 hnodup) ?_, Tree.put_labelled hp hl rfl⟩
  · simp only [Tree.inArena, State.setNode_get_same, Tree.link_absent, hleft, hright, and_self]
  · rw [hsub] at hkp
    exact State.setNode_get_other s (fun he => hkp (Tree.mem_indices_node.2 (.inl he.symm))) _
  · have := h.path_length hp
    simp only [Tree.height]
    omega
  · have hle := length_le_of_nodup hnodup
    have hleaves := h.leaves
    rw [List.length_cons] at hle
    rw [hsyms.length_eq, List.length_append, List.length_singleton, BitVec.toNat_add]
    simp only [BitVec.toNat_ofNat]
    omega

/-! ## The loader's commands -/

theorem CursorInv.of_idle {s : State} (t : Tree) (h : s.decState = .idle) : CursorInv s t := by
  unfold CursorInv
  rw [h]
  trivial

theorem loadBegin_arenaHolds (s : State) : ArenaHolds (loadBegin s) (.placeholder 0) where
  root := rfl
  entries := by
    have h0 : (loadBegin s).nodes[(0 : NodeIdx)] = Node.empty := State.setNode_get_same s.discardTree 0 Node.empty
    simp only [Tree.placeholder, Tree.inArena, h0, Node.empty, Tree.link_absent, and_self]
  once := List.nodup_singleton _
  live i := by
    show i ∈ [0] ↔ i.val < 1
    rw [List.mem_singleton, Fin.ext_iff]
    exact Nat.lt_one_iff.symm
  depth := by decide
  symbols := List.nodup_nil
  leaves := rfl

theorem Inv.loadBegin {s : State} (h : Inv s) : Inv (loadBegin s) :=
  h.of_tree rfl
    (.of_loading rfl ⟨rfl, rfl, rfl, _, loadBegin_arenaHolds s, rfl, fun hr => absurd hr Bool.false_ne_true⟩)
    (fun _ => rfl) fun _ => rfl

theorem Inv.loadSym {s : State} (h : Inv s) (hs : s.treeState = .loading) : Inv (loadSym s) := by
  rcases loadSym_cases s with ⟨sub, hl⟩ | ⟨sym, -, -, hnew, hl⟩ <;> rw [hl]
  · exact h.raise _ _
  · obtain ⟨hroot, hct, hdec, t, ht, hlab, -⟩ := h.loading hs
    exact h.of_tree rfl
      (.of_loading hs ⟨hroot, hct, hdec, t, ht.congr rfl rfl rfl rfl, hlab, fun _ => ⟨[], ht.root_path, rfl, ht.sym_notMem hnew⟩⟩)
      h.noRows fun hr => absurd hr.symm Bool.false_ne_true

theorem Inv.loadChar {s : State} (h : Inv s) (hs : s.treeState = .loading) (c : Byte) : Inv (loadChar c s) := by
  rcases loadChar_cases c s with ⟨sub, hl⟩ | ⟨b, j, s', hopen, hfull, hsym, hd, hl⟩ <;> rw [hl]
  · exact h.raise _ _
  · obtain ⟨hroot, hct, hdec, t, ht, hlab, hrow⟩ := h.loading hs
    obtain ⟨p, hp, hlen, hnew⟩ := hrow hopen
    have hlen255 : s.loadCur.len.toNat ≠ 255 := fun he => hfull (BitVec.eq_of_toNat_eq he)
    have hlt := s.loadCur.len.isLt
    obtain ⟨t', ht', hlab', hp', hsyms⟩ := ht.descendOrMake hlab hp (by omega) hsym hd
    have hnext : (p ++ [b]).length = (s.loadCur.len + 1#8).toNat := by
      rw [List.length_append, List.length_singleton, hlen, BitVec.toNat_add]
      simp only [BitVec.toNat_ofNat]
      omega
    have hframe := State.descendOrMake_frame hd
    have hA := ht'.congr (s' := { s' with loadCur := { s.loadCur with node := j, len := s.loadCur.len + 1#8 } }) rfl rfl rfl rfl
    rw [hframe] at hA ⊢
    exact h.of_tree rfl
      (.of_loading hs ⟨hroot, hct, hdec, t', hA, hlab', fun _ => ⟨p ++ [b], hp', hnext, fun hm => hnew (hsyms.mem_iff.1 hm)⟩⟩)
      h.noRows fun hr => absurd (hr.symm.trans hopen) Bool.false_ne_true

theorem Inv.loadRowEnd {s : State} (h : Inv s) (hs : s.treeState = .loading) : Inv (loadRowEnd s) := by
  rcases loadRowEnd_cases s with ⟨sub, hl⟩ | ⟨hopen, hsym, hleft, hright, hl⟩ <;> rw [hl]
  · exact h.raise _ _
  · obtain ⟨hroot, hct, hdec, t, ht, hlab, hrow⟩ := h.loading hs
    obtain ⟨p, hp, -, hnew⟩ := hrow hopen
    obtain ⟨t', ht', hlab'⟩ := ht.label hlab hp hsym hleft hright hnew
    exact h.of_tree rfl
      (.of_loading hs ⟨hroot, hct, hdec, t', ht'.congr rfl rfl rfl rfl, hlab', fun hr => absurd hr Bool.false_ne_true⟩)
      h.noRows fun _ => rfl

theorem Inv.loadEnd {s : State} (h : Inv s) (hs : s.treeState = .loading) : Inv (loadEnd s) := by
  rcases loadEnd_cases s with ⟨sub, hl⟩ | ⟨hclosed, -, hcomplete, hl⟩ <;> rw [hl]
  · exact h.raise _ _
  · obtain ⟨hroot, hct, hdec, t, ht, hlab, -⟩ := h.loading hs
    have hne : t ≠ .absent := fun he => by have := ht.root; rw [he] at this; cases this
    have hf := Tree.full_of_complete ht.entries hlab hne fun i hi => hcomplete i ((ht.live i).1 hi)
    exact h.of_tree rfl
      (.of_valid (.inr rfl) ⟨hclosed, t, ht.congr rfl rfl rfl rfl, hf, fun hc => absurd (hct.symm.trans hc) Bool.false_ne_true,
        .of_idle t hdec⟩)
      h.noRows fun _ => rfl

/-! ## Every command, every step, every run -/

/-- A command's rule keeps the invariant, where the dispatch lets it through. -/
theorem Inv.commandRule {i : Instr} {s t : State} (h : Inv s) (ha : allowed i s = true) (hr : commandRule i s = .next t) : Inv t := by
  cases i with
  | nop => obtain rfl := Host.Outcome.next.inj hr; exact h
  | softReset => obtain rfl := Host.Outcome.next.inj hr; exact (Inv.hardwareReset s).initJob
  | errClear => obtain rfl := Host.Outcome.next.inj hr; exact h.clearError
  | freqClear => obtain rfl := Host.Outcome.next.inj hr; exact { h with freq := rfl, tree := h.tree.of_sameTree rfl }
  | build => obtain rfl := Host.Outcome.next.inj hr; exact h.buildTree
  | serialize => exact h.serializeTree ha hr
  | loadBegin => obtain rfl := Host.Outcome.next.inj hr; exact h.loadBegin
  | loadSym => obtain rfl := Host.Outcome.next.inj hr; exact h.loadSym (of_decide_eq_true ha)
  | loadChar c => obtain rfl := Host.Outcome.next.inj hr; exact h.loadChar (of_decide_eq_true ha) c
  | loadRowEnd => obtain rfl := Host.Outcome.next.inj hr; exact h.loadRowEnd (of_decide_eq_true ha)
  | loadEnd => obtain rfl := Host.Outcome.next.inj hr; exact h.loadEnd (of_decide_eq_true ha)
  | encode sym => obtain rfl := Host.Outcome.next.inj hr; exact h.encodeSymbol ha sym
  | decBegin => obtain rfl := Host.Outcome.next.inj hr; exact h.decBegin ha
  | decBit b => obtain rfl := Host.Outcome.next.inj hr; exact h.decBit (by simpa [allowed] using ha) b
  | decEnd => obtain rfl := Host.Outcome.next.inj hr; exact h.decEnd (by simpa [allowed] using ha)

theorem inv_kept : Kept Inv where
  reset := Inv.hardwareReset
  outside _ inputs reads draws h := h.outside inputs reads draws
  write _ a v h := h.hostWrite a v
  initJob _ h := h.initJob
  raise _ op e h := h.raise op e
  complete _ h := h.complete
  rule _ _ _ h := h.commandRule

/-- The reset state, with any host accesses to come, is of the invariant. -/
theorem reset_inv (inputs : List Input) : Inv { State.reset with inputs := inputs } :=
  Inv.hardwareReset { State.reset with inputs := inputs }

/-- Settles O53: what the host does, what the core does around a command and every command's own rule keep the invariant. -/
theorem everyStepKeepsTheInvariant : Obligations.EveryStepKeepsTheInvariant :=
  fun _ _ => inv_kept.step

/-- Settles O55: the invariant implies R45's items, every step keeps it, and every run from reset starts in it. -/
theorem stateInvariantsHoldAfterEveryStep : Obligations.StateInvariantsHoldAfterEveryStep :=
  ⟨fun _ h => h.specR45, fun _ _ h hs => (inv_kept.step h hs).specR45,
    fun inputs _ _ hr => (inv_kept.run (reset_inv inputs) hr).specR45⟩

end Sys2Proof.Safety
end

section
/-! SUPPORT. The core's step from a state of the invariant always answers a next state (20_memory.md R66, R74). -/

namespace Sys2Proof.Safety

open Sys2Proof.Machine

/-! ## The core's turn -/

/-- In the core's turn the step is the core's step. -/
theorem CoreMoves.step_eq {s u : State} (h : CoreMoves s u) : step s = coreStep u := by
  rcases h with ⟨hin, rfl⟩ | ⟨rest, hin, rfl⟩ | ⟨rest, hin, hb, rfl⟩
  · simp only [step, takeTurn, hin]
  · simp only [step, takeTurn, hin]
  · simp only [step, takeTurn, hin, waitTurn, hb, if_true]

/-- The core's turn takes the turn from the inputs and nothing else. -/
theorem CoreMoves.eq_inputs {s u : State} (h : CoreMoves s u) : u = { s with inputs := u.inputs } := by
  rcases h with ⟨-, rfl⟩ | ⟨rest, -, rfl⟩ | ⟨rest, -, -, rfl⟩ <;> rfl

theorem coreStep_initJob {s : State} (h : s.initPending = true) : coreStep s = .next s.initJob := if_pos h

theorem coreStep_runWord {s : State} (hi : s.initPending = false) (hp : s.pend.valid = true) : coreStep s = runWord s.pend.word s := by
  simp [coreStep, hi, hp]

theorem coreStep_idle {s : State} (h : s.busy = false) : coreStep s = .next s := by
  obtain ⟨hp, hi⟩ := Bool.or_eq_false_iff.1 h
  simp [coreStep, hi, hp]

theorem runWord_command {w : Word} {i : Instr} (h : decode w = .command i) (s : State) : runWord w s = exec i s := by
  simp only [runWord, h]

/-- A legal word pending is executed in the core's turn (R226). -/
theorem CoreMoves.step_eq_exec {s u : State} {i : Instr} (h : CoreMoves s u) (hi : s.initPending = false) (hp : s.pend.valid = true)
    (hd : decode s.pend.word = .command i) : step s = exec i u := by
  have hu := h.eq_inputs
  have hui : u.initPending = false := by rw [hu]; exact hi
  have hup : u.pend = s.pend := by rw [hu]
  rw [h.step_eq, coreStep_runWord hui (hup ▸ hp), runWord_command (hup ▸ hd)]

/-! ## Every step answers a next state -/

/-- SERIALIZE's walk over the tree of the invariant stays within LEN and CT (R140, R45 item 6). -/
theorem Inv.serializeTree_total {s : State} (h : Inv s) (ha : s.treeState.valid = true) : ∃ t, Machine.serializeTree s = .next t := by
  obtain ⟨-, t, ht, hf, -⟩ := h.valid ((valid_iff _).1 ha)
  have hlen : (t.rows []).length ≤ 256 := (Tree.rows_length hf []).trans_le (length_le_of_nodup ht.symbols)
  exact ⟨_, serializeTree_of_visit (Tree.visit_eq_rows ht.entries ht.root hf ht.depth []) hlen⟩

/-- Only SERIALIZE's rule could stop, and in a state of the invariant it does not. -/
theorem Inv.commandRule_total {i : Instr} {s : State} (h : Inv s) (ha : allowed i s = true) : ∃ t, Machine.commandRule i s = .next t := by
  cases i
  case serialize => exact h.serializeTree_total ha
  all_goals exact ⟨_, rfl⟩

theorem runCommand_total {i : Instr} {body : State → Host.Outcome State Fault Refusal} {s : State}
    (h : allowed i s = true → ∃ t, body s = .next t) : ∃ t, runCommand i body s = .next t := by
  cases he : s.err with
  | true => exact ⟨_, runCommand_discard body he⟩
  | false =>
    cases ha : allowed i s with
    | false => exact ⟨_, runCommand_sequence body he ha⟩
    | true =>
      obtain ⟨u, hu⟩ := h ha
      exact ⟨_, runCommand_run he ha hu⟩

theorem Inv.exec_total {s : State} (h : Inv s) (i : Instr) : ∃ t, exec i s = .next t := by
  by_cases hr : i = .softReset
  · subst hr; exact ⟨_, rfl⟩
  by_cases hc : i = .errClear
  · subst hc; exact ⟨_, rfl⟩
  rw [exec_eq_runCommand hr hc]
  exact runCommand_total h.commandRule_total

theorem runIllegal_total (w : Word) (why : Illegal) (s : State) : ∃ t, runIllegal w why s = .next t := by
  unfold runIllegal
  cases s.err with
  | true => exact ⟨_, rfl⟩
  | false => exact ⟨_, rfl⟩

theorem Inv.coreStep_total {s : State} (h : Inv s) : ∃ t, coreStep s = .next t := by
  cases hi : s.initPending with
  | true => exact ⟨_, coreStep_initJob hi⟩
  | false =>
    cases hp : s.pend.valid with
    | false => exact ⟨_, coreStep_idle (by simp [State.busy, hi, hp])⟩
    | true =>
      rw [coreStep_runWord hi hp]
      unfold runWord
      cases decode s.pend.word with
      | command i => exact h.exec_total i
      | illegal why => exact runIllegal_total _ why s

theorem Inv.waitTurn_total {s : State} (h : Inv s) (polls : Nat) (rest : List Input) : ∃ t, waitTurn polls rest s = .next t := by
  unfold waitTurn
  cases s.busy with
  | true =>
    cases polls with
    | zero => exact h.coreStep_total
    | succ k => exact ⟨_, rfl⟩
  | false => exact ⟨_, rfl⟩

/-- Settles O54: the host's accesses always have a next state, and so has the core's step, because the only rule that can stop,
SERIALIZE's, walks a tree within its bounds. -/
theorem noStepStops : Obligations.NoStepStops := by
  intro s h
  show ∃ t, takeTurn s = .next t
  unfold takeTurn
  cases s.inputs with
  | nil => exact h.coreStep_total
  | cons i rest =>
    cases i with
    | read a => exact ⟨_, rfl⟩
    | write a v => exact ⟨_, rfl⟩
    | coreTurn => exact (h.outside rest s.reads s.draws).coreStep_total
    | wait polls => exact h.waitTurn_total polls rest
    | reset => exact ⟨_, rfl⟩

end Sys2Proof.Safety
end


section
/-! SUPPORT. The register map: each name at its offset, and what a read or a write at an offset meets (20_memory.md R60 to R67). -/

namespace Sys2Proof.Safety

open Sys2Proof.Machine

/-! ## Names and offsets -/

theorem offset_bound (t : Target) : t.offset < 0x9FF0 := by
  cases t <;> simp only [Target.offset] <;> omega

theorem offset_mod (t : Target) : t.offset % 4 = 0 := by
  cases t <;> simp only [Target.offset] <;> omega

theorem regTarget_resPath (j : Fin 8) : regTarget (0x0028 + 4 * j.val) = .resPath j := by
  decide +revert

theorem ctTarget_path (r : Fin 256) (j : Fin 8) : ctTarget r (0x08 + 4 * j.val) = .ctPath r j := by
  have hj : Fin.ofNat 8 ((0x08 + 4 * j.val - 0x08) / 4) = j := Fin.ext (by simp only [Fin.ofNat]; omega)
  rw [ctTarget, if_neg (by omega), if_neg (by omega), if_pos (by omega), hj]

/-- Below the FREQ window stand the registers. -/
theorem offsetTarget_reg {off : Nat} (h : off < 0x0400) : offsetTarget off = regTarget off := if_pos h

theorem offsetTarget_freq (sym : Byte) : offsetTarget (0x0400 + 4 * sym.toNat) = .freq sym := by
  have hs : BitVec.ofNat 8 ((0x0400 + 4 * sym.toNat - 0x0400) / 4) = sym := BitVec.eq_of_toNat_eq (by simp)
  rw [offsetTarget, if_neg (by omega), if_pos (by omega), hs]

theorem offsetTarget_ct (r : Fin 256) {k : Nat} (hk : k < 0x40) : offsetTarget (0x4000 + 0x40 * r.val + k) = ctTarget r k := by
  have hr : Fin.ofNat 256 ((0x4000 + 0x40 * r.val + k - 0x4000) / 0x40) = r := Fin.ext (by simp only [Fin.ofNat]; omega)
  have hk : (0x4000 + 0x40 * r.val + k - 0x4000) % 0x40 = k := by omega
  rw [offsetTarget, if_neg (by omega), if_neg (by omega), if_neg (by omega), if_pos (by omega), hr, hk]

theorem offsetTarget_node (i : NodeIdx) {k : Nat} (hk : k < 0x10) : offsetTarget (0x8000 + 0x10 * i.val + k) = nodeTarget i k := by
  have hi : Fin.ofNat 511 ((0x8000 + 0x10 * i.val + k - 0x8000) / 0x10) = i := Fin.ext (by simp only [Fin.ofNat]; omega)
  have hk : (0x8000 + 0x10 * i.val + k - 0x8000) % 0x10 = k := by omega
  rw [offsetTarget, if_neg (by omega), if_neg (by omega), if_neg (by omega), if_neg (by omega), if_pos (by omega), hi, hk]

theorem offsetTarget_offset {t : Target} : offsetTarget t.offset = t := by
  cases t with
  | resPath j => exact (offsetTarget_reg (by simp only [Target.offset]; omega)).trans (regTarget_resPath j)
  | freq sym => exact offsetTarget_freq sym
  | ctSym r => exact offsetTarget_ct r (k := 0x00) (by decide)
  | ctLen r => exact offsetTarget_ct r (k := 0x04) (by decide)
  | ctPath r j =>
    rw [Target.offset, Nat.add_assoc, offsetTarget_ct r (by omega)]
    exact ctTarget_path r j
  | nodeLink i => exact offsetTarget_node i (k := 0x0) (by decide)
  | nodeFreqLo i => exact offsetTarget_node i (k := 0x4) (by decide)
  | nodeFreqHi i => exact offsetTarget_node i (k := 0x8) (by decide)
  | id => rfl
  | cmd => rfl
  | data => rfl
  | status => rfl
  | err => rfl
  | root => rfl
  | leafCount => rfl
  | nodeCount => rfl
  | rowCount => rfl
  | resLen => rfl
  | decOut => rfl
  | decCount => rfl
  | cursor => rfl
  | loadCur => rfl
  | reserved => rfl

/-- The word index of a byte offset of the port. -/
theorem target_ofNat {off : Nat} (h : off < 0x10000) (h4 : off % 4 = 0) : target (BitVec.ofNat 14 (off / 4)) = offsetTarget off := by
  have hoff : 4 * (BitVec.ofNat 14 (off / 4)).toNat = off := by
    simp only [BitVec.toNat_ofNat]
    omega
  rw [target, hoff]

theorem target_addr (t : Target) : target t.addr = t :=
  (target_ofNat ((offset_bound t).trans (by decide)) (offset_mod t)).trans offsetTarget_offset

/-- Settles O6: the map takes the offset of each name back to that name. -/
theorem registerMapNamesAndOffsetsAgree : Obligations.RegisterMapNamesAndOffsetsAgree :=
  fun t _ => ⟨target_addr t, offset_mod t, (offset_bound t).trans (by decide)⟩

end Sys2Proof.Safety
end

section
/-! SUPPORT. What a read at an offset of the port shows, live entries and stale ones (20_memory.md R61 to R65). -/

namespace Sys2Proof.Safety

open Sys2Proof.Machine

/-- While idle a read at the offset of a name shows what stands under that name. -/
theorem readWord_offset {s : State} (hb : s.busy = false) (t : Target) {off : Nat} (h : off = t.offset) :
    s.readWord (BitVec.ofNat 14 (off / 4)) = s.idleRead t := by
  subst h
  exact (State.readWord_idle hb _).trans (congrArg s.idleRead (target_addr t))

/-! ## Packed paths -/

theorem pathWord_getLsbD (x : PathBits) (j : Fin 8) (b : Fin 32) : (pathWord x j).getLsbD b.val = x.getLsbD (32 * j.val + b.val) := by
  rw [pathWord, BitVec.getLsbD_extractLsb', decide_eq_true b.isLt, Bool.true_and]

/-! ## The two windows -/

section

variable {s : State} {r : Fin 256} {i : NodeIdx}

theorem ctWords_live (h : r.val < s.rowCount.toNat) :
    s.idleRead (.ctSym r) = 0#24 ++ s.ct[r].sym ∧ s.idleRead (.ctLen r) = 0#24 ++ s.ct[r].len ∧
      ∀ j, s.idleRead (.ctPath r j) = pathWord s.ct[r].path j :=
  ⟨if_pos h, if_pos h, fun _ => if_pos h⟩

theorem ctWords_stale (h : s.rowCount.toNat ≤ r.val) :
    s.idleRead (.ctSym r) = 0#32 ∧ s.idleRead (.ctLen r) = 0#32 ∧ ∀ j, s.idleRead (.ctPath r j) = 0#32 :=
  ⟨if_neg (Nat.not_lt.2 h), if_neg (Nat.not_lt.2 h), fun _ => if_neg (Nat.not_lt.2 h)⟩

theorem nodeWords_live (h : i.val < s.nodeCount.val) :
    s.idleRead (.nodeLink i) = s.nodes[i].linkWord ∧ s.idleRead (.nodeFreqLo i) = s.nodes[i].freqLoWord ∧
      s.idleRead (.nodeFreqHi i) = s.nodes[i].freqHiWord :=
  ⟨if_pos h, if_pos h, if_pos h⟩

theorem nodeWords_stale (h : s.nodeCount.val ≤ i.val) :
    s.idleRead (.nodeLink i) = 0#32 ∧ s.idleRead (.nodeFreqLo i) = 0#32 ∧ s.idleRead (.nodeFreqHi i) = 0#32 :=
  ⟨if_neg (Nat.not_lt.2 h), if_neg (Nat.not_lt.2 h), if_neg (Nat.not_lt.2 h)⟩

end

/-- Settles O5: bit i of a packed path is its descent i, and a path's words are cut from it 32 bits each. -/
theorem pathsPackFirstDescentFirst : Obligations.PathsPackFirstDescentFirst := by
  refine ⟨fun p j b _ => ?_, by decide, by decide, fun s hb j => ⟨readWord_offset hb (.resPath j) rfl, fun r hr => ?_⟩⟩
  · rw [pathWord_getLsbD, pack_getLsbD p _ (by omega), List.getD_getElem?]
  · obtain ⟨-, -, hpath⟩ := ctWords_live hr
    exact (readWord_offset hb (.ctPath r j) rfl).trans (hpath j)

/-! ## The words of a NODE entry -/

theorem linkBits_toNat (l : Option NodeIdx) : (linkBits l).toNat = (match l with | none => 0 | some j => j.val) := by
  cases l with
  | none => rfl
  | some i => exact idxBits_toNat i

/-- The bits of the field on top of three lower ones. -/
theorem getLsbD_append_top (hi : BitVec 6) (x : BitVec 8) (y z : BitVec 9) (k : Nat) :
    (hi ++ x ++ y ++ z).getLsbD (26 + k) = hi.getLsbD k := by
  rw [BitVec.getLsbD_append, if_neg (by omega), BitVec.getLsbD_append, if_neg (by omega), BitVec.getLsbD_append, if_neg (by omega)]
  congr 1
  omega

theorem hasBits_fields (sym right left : Bool) :
    let hi := 0#3 ++ bit sym ++ bit right ++ bit left
    hi.getLsbD 0 = left ∧ hi.getLsbD 1 = right ∧ hi.getLsbD 2 = sym ∧ hi.extractLsb' 3 3 = 0#3 := by
  decide +revert

theorem linkWord_links (n : Node) :
    n.linkWord.extractLsb' 0 9 = linkBits n.left ∧ n.linkWord.extractLsb' 9 9 = linkBits n.right ∧
      n.linkWord.extractLsb' 18 8 = n.sym.getD 0#8 ∧ n.linkWord.extractLsb' 29 3 = 0#3 := by
  obtain ⟨-, -, -, hrest⟩ := hasBits_fields n.sym.isSome n.right.isSome n.left.isSome
  unfold Node.linkWord
  refine ⟨BitVec.extractLsb'_append_eq_right, extractLsb'_append_field _ _ _,
    (BitVec.extractLsb'_append_eq_of_le (by decide)).trans (extractLsb'_append_field _ _ _), ?_⟩
  exact (BitVec.extractLsb'_append_eq_of_le (by decide)).trans <| (BitVec.extractLsb'_append_eq_of_le (by decide)).trans <|
    (BitVec.extractLsb'_append_eq_of_le (by decide)).trans hrest

theorem linkWord_flags (n : Node) :
    n.linkWord.getLsbD 26 = n.left.isSome ∧ n.linkWord.getLsbD 27 = n.right.isSome ∧ n.linkWord.getLsbD 28 = n.sym.isSome := by
  obtain ⟨hleft, hright, hsym, -⟩ := hasBits_fields n.sym.isSome n.right.isSome n.left.isSome
  exact ⟨(getLsbD_append_top _ _ _ _ 0).trans hleft, (getLsbD_append_top _ _ _ _ 1).trans hright, (getLsbD_append_top _ _ _ _ 2).trans hsym⟩

theorem nodeFreqHi_toNat (n : Node) : n.freqHiWord.toNat = (n.nfreq.extractLsb' 32 8).toNat := toNat_zero_append _

/-- The fourth word of a NODE entry has no name. -/
theorem target_nodeReserved (i : NodeIdx) : target (BitVec.ofNat 14 ((0x8000 + 0x10 * i.val + 0xC) / 4)) = .reserved :=
  (target_ofNat (by omega) (by omega)).trans (offsetTarget_node i (by decide))

/-- Settles O8: the words of a live row and of a live node, read at their offsets, have the entry's fields at their bits. -/
theorem windowReadsShowLiveEntries : Obligations.WindowReadsShowLiveEntries := by
  intro s hb rd
  have hrd : ∀ (t : Target) {off : Nat}, off = t.offset → rd off = s.idleRead t := fun t _ => readWord_offset hb t
  refine ⟨fun r hr => ?_, fun i hi => ?_⟩
  · obtain ⟨hsym, hlen, hpath⟩ := ctWords_live hr
    refine ⟨?_, ?_, fun j => (hrd (.ctPath r j) rfl).trans (hpath j)⟩
    · rw [hrd (.ctSym r) (off := 0x4000 + 0x40 * r.val) rfl, hsym, toNat_zero_append]
    · rw [hrd (.ctLen r) (off := 0x4000 + 0x40 * r.val + 0x04) rfl, hlen, toNat_zero_append]
  · obtain ⟨hlinkWord, hloWord, hhiWord⟩ := nodeWords_live hi
    have hlink : rd (0x8000 + 0x10 * i.val) = s.nodes[i].linkWord := (hrd (.nodeLink i) rfl).trans hlinkWord
    have hhi : rd (0x8000 + 0x10 * i.val + 0x8) = s.nodes[i].freqHiWord := (hrd (.nodeFreqHi i) rfl).trans hhiWord
    have hreserved : rd (0x8000 + 0x10 * i.val + 0xC) = 0#32 :=
      (State.readWord_idle hb _).trans (congrArg s.idleRead (target_nodeReserved i))
    obtain ⟨hleft, hright, hsym, h29⟩ := linkWord_links s.nodes[i]
    obtain ⟨h26, h27, h28⟩ := linkWord_flags s.nodes[i]
    intro w
    rw [show w = _ from hlink, hhi, hleft, hright]
    exact ⟨linkBits_toNat _, linkBits_toNat _, hsym, h26, h27, h28, h29, (hrd (.nodeFreqLo i) rfl).trans hloWord,
      nodeFreqHi_toNat _, hreserved⟩

/-! ## Stale entries -/

/-- The ten words of the CT window that have a name. -/
theorem ctWord_stale {s : State} (hb : s.busy = false) {r : Fin 256} (hr : s.rowCount.toNat ≤ r.val) (j : Fin 10) :
    s.readWord (BitVec.ofNat 14 ((0x4000 + 0x40 * r.val + 4 * j.val) / 4)) = 0#32 := by
  obtain ⟨hsym, hlen, hpath⟩ := ctWords_stale hr
  match j with
  | 0 => exact (readWord_offset hb (.ctSym r) rfl).trans hsym
  | 1 => exact (readWord_offset hb (.ctLen r) rfl).trans hlen
  | ⟨k + 2, hk⟩ =>
    exact (readWord_offset hb (.ctPath r ⟨k, by omega⟩) (by simp only [Target.offset]; omega)).trans (hpath _)

theorem nodeWord_stale {s : State} (hb : s.busy = false) {i : NodeIdx} (hi : s.nodeCount.val ≤ i.val) (j : Fin 3) :
    s.readWord (BitVec.ofNat 14 ((0x8000 + 0x10 * i.val + 4 * j.val) / 4)) = 0#32 := by
  obtain ⟨hlink, hlo, hhi⟩ := nodeWords_stale hi
  match j with
  | 0 => exact (readWord_offset hb (.nodeLink i) rfl).trans hlink
  | 1 => exact (readWord_offset hb (.nodeFreqLo i) rfl).trans hlo
  | 2 => exact (readWord_offset hb (.nodeFreqHi i) rfl).trans hhi

/-- No read depends on an entry that is not live. -/
theorem readWord_congr {s : State} {nodes : Vector Node 511} {ct : Vector Row 256}
    (hnodes : ∀ i : NodeIdx, i.val < s.nodeCount.val → nodes[i] = s.nodes[i])
    (hct : ∀ r : Fin 256, r.val < s.rowCount.toNat → ct[r] = s.ct[r]) (a : WordAddr) :
    ({ s with nodes := nodes, ct := ct } : State).readWord a = s.readWord a := by
  have hrow : ∀ r view, ({ s with nodes := nodes, ct := ct } : State).ctView r view = s.ctView r view := fun r view =>
    if_ctx_congr Iff.rfl (fun h => congrArg view (hct r h)) fun _ => rfl
  have hnode : ∀ i view, ({ s with nodes := nodes, ct := ct } : State).nodeView i view = s.nodeView i view := fun i view =>
    if_ctx_congr Iff.rfl (fun h => congrArg view (hnodes i h)) fun _ => rfl
  cases hb : s.busy with
  | true =>
    rw [State.readWord_busy hb, State.readWord_busy (s := { s with nodes := nodes, ct := ct }) hb]
    rfl
  | false =>
    rw [State.readWord_idle hb, State.readWord_idle (s := { s with nodes := nodes, ct := ct }) hb]
    cases target a with
    | ctSym r => exact hrow r fun row => 0#24 ++ row.sym
    | ctLen r => exact hrow r fun row => 0#24 ++ row.len
    | ctPath r j => exact hrow r fun row => pathWord row.path j
    | nodeLink i => exact hnode i Node.linkWord
    | nodeFreqLo i => exact hnode i Node.freqLoWord
    | nodeFreqHi i => exact hnode i Node.freqHiWord
    | _ => rfl

/-- Settles O9: a window word of a stale entry is masked, and the mask is all that a read sees of one. -/
theorem staleEntriesAreNeverRead : Obligations.StaleEntriesAreNeverRead :=
  ⟨fun _ hb => ⟨fun _ j hr => ctWord_stale hb hr j, fun _ j hi => nodeWord_stale hb hi j, fun sym => readWord_offset hb (.freq sym) rfl⟩,
    fun _ hs => hs.noRows, fun _ _ _ hnodes hct a => readWord_congr hnodes hct a⟩

end Sys2Proof.Safety
end

section
/-! SUPPORT. Every offset of the port is a name's or reserved, and what host reads and writes do there (20_memory.md R60 to R67). -/

namespace Sys2Proof.Safety

open Sys2Proof.Machine

/-! ## The offsets without a name -/

theorem regTarget_reserved {off : Nat} (h : 0x0058 ≤ off) : regTarget off = .reserved := by
  simp (disch := omega) only [regTarget, if_neg]

theorem ctTarget_reserved (r : Fin 256) {k : Nat} (h : 0x28 ≤ k) : ctTarget r k = .reserved := by
  simp (disch := omega) only [ctTarget, if_neg]

theorem nodeTarget_reserved (i : NodeIdx) {k : Nat} (h : 0xC ≤ k) : nodeTarget i k = .reserved := by
  simp (disch := omega) only [nodeTarget, if_neg]

/-- The reserved words of R63: after the registers, between the windows, at the end of each row and node, and after the last node. -/
theorem offsetTarget_reserved {off : Nat}
    (h : (0x0058 ≤ off ∧ off < 0x0400) ∨ (0x0800 ≤ off ∧ off < 0x4000) ∨ (0x4000 ≤ off ∧ off < 0x8000 ∧ 0x28 ≤ off % 0x40) ∨
      (0x8000 ≤ off ∧ off < 0xA000 ∧ off % 0x10 = 0xC) ∨ 0x9FF0 ≤ off) : offsetTarget off = .reserved := by
  have last : 0x9FF0 ≤ off → offsetTarget off = .reserved := fun hoff => by
    simp (disch := omega) only [offsetTarget, if_neg]
  rcases h with ⟨hlo, hhi⟩ | ⟨hlo, hhi⟩ | ⟨hlo, hhi, hk⟩ | ⟨hlo, -, hk⟩ | hlo
  · rw [offsetTarget_reg hhi, regTarget_reserved hlo]
  · simp (disch := omega) only [offsetTarget, if_neg, if_pos]
  · simp (disch := omega) only [offsetTarget, if_neg, if_pos, ctTarget_reserved]
  · by_cases hend : off < 0x9FF0
    · simp (disch := omega) only [offsetTarget, if_neg, if_pos, nodeTarget_reserved]
    · exact last (Nat.not_lt.1 hend)
  · exact last hlo

/-! ## From what stands at an offset back to the offset -/

theorem offset_regTarget {off : Nat} (h4 : off % 4 = 0) (h : regTarget off ≠ .reserved) : (regTarget off).offset = off := by
  have named : ∀ off < 0x0058, off % 4 = 0 → (regTarget off).offset = off := by decide
  exact named off (Nat.lt_of_not_le fun hle => h (regTarget_reserved hle)) h4

theorem offset_ctTarget (r : Fin 256) {k : Nat} (h4 : k % 4 = 0) (h : ctTarget r k ≠ .reserved) :
    (ctTarget r k).offset = 0x4000 + 0x40 * r.val + k := by
  have hk : k < 0x28 := Nat.lt_of_not_le fun hle => h (ctTarget_reserved r hle)
  by_cases h0 : k = 0x00
  · subst h0; rfl
  by_cases h1 : k = 0x04
  · subst h1; rfl
  obtain ⟨j, rfl⟩ : ∃ j : Fin 8, k = 0x08 + 4 * j.val := ⟨⟨(k - 0x08) / 4, by omega⟩, by show k = _ + 4 * (_ / 4); omega⟩
  rw [ctTarget_path]
  exact Nat.add_assoc _ _ _

theorem offset_nodeTarget (i : NodeIdx) {k : Nat} (h4 : k % 4 = 0) (h : nodeTarget i k ≠ .reserved) :
    (nodeTarget i k).offset = 0x8000 + 0x10 * i.val + k := by
  have hk : k < 0xC := Nat.lt_of_not_le fun hle => h (nodeTarget_reserved i hle)
  obtain rfl | rfl | rfl : k = 0x0 ∨ k = 0x4 ∨ k = 0x8 := by omega
  · rfl
  · rfl
  · rfl

/-- A FREQ word's offset is its symbol's. -/
theorem exists_freq_of_window {off : Nat} (h4 : off % 4 = 0) (hlo : 0x0400 ≤ off) (hhi : off < 0x0800) :
    ∃ sym : Byte, off = 0x0400 + 4 * sym.toNat := by
  refine ⟨BitVec.ofNat 8 ((off - 0x0400) / 4), ?_⟩
  simp only [BitVec.toNat_ofNat]
  omega

/-- A name stands at its own offset alone. -/
theorem offset_offsetTarget {off : Nat} (h4 : off % 4 = 0) (h : offsetTarget off ≠ .reserved) : (offsetTarget off).offset = off := by
  have hend : off < 0x9FF0 := Nat.lt_of_not_le fun hle => h (offsetTarget_reserved (.inr (.inr (.inr (.inr hle)))))
  by_cases hreg : off < 0x0400
  · rw [offsetTarget_reg hreg] at h ⊢
    exact offset_regTarget h4 h
  by_cases hfreq : off < 0x0800
  · obtain ⟨sym, rfl⟩ := exists_freq_of_window h4 (Nat.not_lt.1 hreg) hfreq
    rw [offsetTarget_freq]
    rfl
  have hct : 0x4000 ≤ off := Nat.le_of_not_lt fun hlt => h (offsetTarget_reserved (.inr (.inl ⟨Nat.not_lt.1 hfreq, hlt⟩)))
  by_cases hnode : off < 0x8000
  · obtain ⟨r, k, hk, rfl⟩ : ∃ (r : Fin 256) (k : Nat), k < 0x40 ∧ off = 0x4000 + 0x40 * r.val + k :=
      ⟨⟨(off - 0x4000) / 0x40, by omega⟩, (off - 0x4000) % 0x40, by omega, by show off = _ + _ * (_ / _) + _; omega⟩
    rw [offsetTarget_ct r hk] at h ⊢
    exact offset_ctTarget r (by omega) h
  · obtain ⟨i, k, hk, rfl⟩ : ∃ (i : NodeIdx) (k : Nat), k < 0x10 ∧ off = 0x8000 + 0x10 * i.val + k :=
      ⟨⟨(off - 0x8000) / 0x10, by omega⟩, (off - 0x8000) % 0x10, by omega, by show off = _ + _ * (_ / _) + _; omega⟩
    rw [offsetTarget_node i hk] at h ⊢
    exact offset_nodeTarget i (by omega) h

section

variable {a : WordAddr}

theorem target_of_offset {t : Target} (h : 4 * a.toNat = t.offset) : target a = t := by
  rw [target, h, offsetTarget_offset]

theorem offset_of_target {t : Target} (h : target a = t) (ht : t ≠ .reserved) : 4 * a.toNat = t.offset := by
  subst h
  exact (offset_offsetTarget (Nat.mul_mod_right 4 _) ht).symm

/-- The words that a host write can store to, by name: CMD, DATA and the FREQ words (R62). -/
def Writable (t : Target) : Prop := t = .cmd ∨ t = .data ∨ ∃ sym, t = .freq sym

/-- The same words by offset. -/
theorem writable_iff : Writable (target a) ↔
    4 * a.toNat = 0x0004 ∨ 4 * a.toNat = 0x0008 ∨ (0x0400 ≤ 4 * a.toNat ∧ 4 * a.toNat < 0x0800) := by
  constructor
  · rintro (h | h | ⟨sym, h⟩)
    · exact .inl (offset_of_target h (by simp))
    · exact .inr (.inl (offset_of_target h (by simp)))
    · have hoff : 4 * a.toNat = 0x0400 + 4 * sym.toNat := offset_of_target h (by simp)
      exact .inr (.inr (by omega))
  · rintro (h | h | ⟨hlo, hhi⟩)
    · exact .inl (target_of_offset h)
    · exact .inr (.inl (target_of_offset h))
    · obtain ⟨sym, h⟩ := exists_freq_of_window (Nat.mul_mod_right 4 _) hlo hhi
      exact .inr (.inr ⟨sym, target_of_offset h⟩)

end

/-! ## Host reads -/

theorem step_read {s : State} {a : WordAddr} {rest : List Input} (h : s.inputs = .read a :: rest) :
    step s = .next (({ s with inputs := rest } : State).hostRead a) := by
  simp only [step, takeTurn, h]

theorem readWord_id {s : State} {a : WordAddr} (h : target a = .id) : s.readWord a = Config.idValue := by
  rw [State.readWord, h]
  exact ite_self _

/-- STATUS shows BUSY even while the rest of it is a free draw (R61, R262). -/
theorem readWord_status_busy {s : State} {a : WordAddr} (h : target a = .status) : (s.readWord a).getLsbD 0 = s.busy := by
  cases hb : s.busy with
  | true =>
    rw [State.readWord_busy hb, h]
    exact BitVec.getLsbD_append
  | false =>
    rw [State.readWord_idle hb, h]
    exact (statusWord_fields s).1.trans hb

/-- Settles O10: a read is the word and a step of the model's own fields; the named and the reserved words are those of the map. -/
theorem hostReadsMoveNothing : Obligations.HostReadsMoveNothing := by
  intro s a rest hin
  have hidle : ∀ {t : Target}, s.busy = false → target a = t → s.readWord a = s.idleRead t := fun hb ht => by
    rw [State.readWord_idle hb, ht]
  refine ⟨step_read hin, fun h => readWord_id (target_of_offset (t := .id) h),
    fun h => readWord_status_busy (target_of_offset (t := .status) h), fun hb h => hidle hb (target_of_offset (t := .cmd) h),
    fun hb h => hidle hb (offsetTarget_reserved h)⟩

/-! ## Host writes -/

section

variable {s : State} {a : WordAddr}

theorem hostWrite_dropped (hb : s.busy = true) (ha : Writable (target a)) (v : Word) : s.hostWrite a v = { s with overrun := true } := by
  rcases ha with ha | ha | ⟨sym, ha⟩
  · simp [State.hostWrite, ha, hb]
  · simp [State.hostWrite, ha, hb]
  · simp [State.hostWrite, ha, hb]

theorem hostWrite_cmd (hb : s.busy = false) (ha : target a = .cmd) (v : Word) :
    s.hostWrite a v = { s with pend := ⟨true, v⟩ } ∧ (s.hostWrite a v).busy = true := by
  have hw : s.hostWrite a v = { s with pend := ⟨true, v⟩ } := by simp [State.hostWrite, ha, hb]
  exact ⟨hw, by rw [hw]; rfl⟩

theorem hostWrite_data (hb : s.busy = false) (ha : target a = .data) (v : Word) : s.hostWrite a v = { s with data := v } := by
  simp [State.hostWrite, ha, hb]

theorem hostWrite_freq (hb : s.busy = false) {sym : Byte} (ha : target a = .freq sym) (v : Word) :
    s.hostWrite a v = s.setFreq sym v := by
  simp [State.hostWrite, ha, hb]

theorem hostWrite_ignored (ha : ¬ Writable (target a)) (v : Word) : s.hostWrite a v = s := by
  rcases State.hostWrite_cases s a v with ⟨-, h, -⟩ | ⟨-, h, -⟩ | ⟨-, h, -⟩ | ⟨-, sym, h, -⟩ | ⟨-, -, -, hw⟩
  · exact absurd h ha
  · exact absurd (.inl h) ha
  · exact absurd (.inr (.inl h)) ha
  · exact absurd (.inr (.inr ⟨sym, h⟩)) ha
  · exact hw

end

/-- Settles O11: the offset says which word of the map is written, and the word what the write does. -/
theorem hostWritesFollowTheMap : Obligations.HostWritesFollowTheMap := by
  intro s a v
  refine ⟨fun _ => rfl, fun hb h => hostWrite_dropped hb (writable_iff.2 h) v, fun hb h => hostWrite_cmd hb (target_of_offset (t := .cmd) h) v,
    fun hb h => hostWrite_data hb (target_of_offset (t := .data) h) v, fun sym hb h => ?_, fun hcmd hdata hfreq => ?_⟩
  · rw [hostWrite_freq hb (target_of_offset (t := .freq sym) h)]
    exact ⟨rfl, fun sym' hne => State.freqAt_setFreq_other s hne v,
      fun hwf => ⟨State.freqAt_setFreq_same hwf sym v, State.setFreq_wf hwf sym v⟩⟩
  · exact hostWrite_ignored (fun h => (writable_iff.1 h).elim hcmd fun h => h.elim hdata hfreq) v

end Sys2Proof.Safety
end

section
/-! SUPPORT. What a command does with OVERRUN, PEND and INIT_PENDING: its rule neither reads nor writes them (20_memory.md R66, R67). -/

namespace Sys2Proof.Machine

/-- The state with other values of the flags that the port and the handshake keep: OVERRUN, PEND and INIT_PENDING. -/
def State.withFlags (s : State) (overrun : Bool) (pend : Pend) (init : Bool) : State :=
  { s with overrun := overrun, pend := pend, initPending := init }

/-! ## Each rule carries other flags through -/

section

variable (s : State) (o : Bool) (p : Pend) (n : Bool)

theorem ite_withFlags {c : Prop} [Decidable c] {a a' b b' : State} (ha : a' = a.withFlags o p n) (hb : b' = b.withFlags o p n) :
    (if c then a' else b') = (if c then a else b).withFlags o p n := by
  rw [ha, hb, apply_ite (State.withFlags · o p n)]

theorem recordError_withFlags (op : Byte) (e : ErrorKind) :
    (s.withFlags o p n).recordError op e = (s.recordError op e).withFlags o p n :=
  ite_withFlags o p n rfl rfl

theorem raise_withFlags (op : Byte) (e : ErrorKind) : (s.withFlags o p n).raise op e = (s.raise op e).withFlags o p n := by
  unfold State.raise
  rw [recordError_withFlags]
  cases e <;> rfl

theorem buildTree_withFlags : buildTree (s.withFlags o p n) = (buildTree s).withFlags o p n :=
  ite_withFlags o p n (raise_withFlags s.discardTree o p n _ _) rfl

theorem alloc_withFlags : (s.withFlags o p n).alloc = s.alloc.map fun r => (r.1, r.2.withFlags o p n) := by
  unfold State.alloc
  rw [apply_dite (Option.map fun r : NodeIdx × State => (r.1, r.2.withFlags o p n))]
  rfl

theorem setChild_withFlags (i j : NodeIdx) (b : Bool) : (s.withFlags o p n).setChild i b j = (s.setChild i b j).withFlags o p n :=
  ite_withFlags o p n rfl rfl

theorem descendOrMake_withFlags (i : NodeIdx) (b : Bool) :
    (s.withFlags o p n).descendOrMake i b = (s.descendOrMake i b).map fun r => (r.1, r.2.withFlags o p n) := by
  have hnodes : (s.withFlags o p n).nodes = s.nodes := rfl
  unfold State.descendOrMake
  rw [hnodes, alloc_withFlags]
  cases s.nodes[i].child b with
  | some j => rfl
  | none =>
    cases s.alloc with
    | none => rfl
    | some r => exact congrArg (fun u => some (r.1, u)) (setChild_withFlags r.2 o p n i r.1 b)

theorem loadSym_withFlags : loadSym (s.withFlags o p n) = (loadSym s).withFlags o p n := by
  have hdata : (s.withFlags o p n).dataSymbol = s.dataSymbol := rfl
  refine ite_withFlags o p n (raise_withFlags s o p n _ _) ?_
  rw [hdata]
  cases s.dataSymbol with
  | none => exact raise_withFlags s o p n _ _
  | some sym => exact ite_withFlags o p n (raise_withFlags s o p n _ _) rfl

theorem loadChar_withFlags (c : Byte) : loadChar c (s.withFlags o p n) = (loadChar c s).withFlags o p n := by
  refine ite_withFlags o p n (raise_withFlags s o p n _ _) ?_
  cases charBit c with
  | none => exact raise_withFlags s o p n _ _
  | some b =>
    refine ite_withFlags o p n (raise_withFlags s o p n _ _) (ite_withFlags o p n (raise_withFlags s o p n _ _) ?_)
    have hcur : (s.withFlags o p n).loadCur = s.loadCur := rfl
    rw [hcur, descendOrMake_withFlags]
    cases s.descendOrMake s.loadCur.node b with
    | none => exact raise_withFlags s o p n _ _
    | some r => rfl

theorem loadRowEnd_withFlags : loadRowEnd (s.withFlags o p n) = (loadRowEnd s).withFlags o p n :=
  ite_withFlags o p n (raise_withFlags s o p n _ _) <| ite_withFlags o p n (raise_withFlags s o p n _ _) <|
    ite_withFlags o p n (raise_withFlags s o p n _ _) rfl

theorem loadEnd_withFlags : loadEnd (s.withFlags o p n) = (loadEnd s).withFlags o p n :=
  ite_withFlags o p n (raise_withFlags s o p n _ _) <| ite_withFlags o p n (raise_withFlags s o p n _ _) <|
    ite_withFlags o p n (raise_withFlags s o p n _ _) rfl

theorem encodeSymbol_withFlags (sym : Byte) : encodeSymbol sym (s.withFlags o p n) = (encodeSymbol sym s).withFlags o p n := by
  cases h : s.liveRows.find? (fun r => r.sym == sym) with
  | none => rw [encodeSymbol_absent h, ← raise_withFlags]; exact encodeSymbol_absent h
  | some r => rw [encodeSymbol_found h]; exact encodeSymbol_found h

theorem decBit_withFlags (b : Bool) : decBit b (s.withFlags o p n) = (decBit b s).withFlags o p n := by
  have hchild : (s.withFlags o p n).nodes[(s.withFlags o p n).cursor.node].child b = s.nodes[s.cursor.node].child b := rfl
  unfold decBit
  rw [hchild]
  cases s.nodes[s.cursor.node].child b with
  | none => exact raise_withFlags { s with decState := .idle } o p n _ _
  | some j =>
    have hnode : (s.withFlags o p n).nodes[j] = s.nodes[j] := rfl
    simp only [hnode]
    cases s.nodes[j].sym with
    | none => rfl
    | some sym => rfl

theorem decEnd_withFlags : decEnd (s.withFlags o p n) = (decEnd s).withFlags o p n :=
  ite_withFlags o p n (raise_withFlags { s with decState := .idle } o p n _ _) rfl

theorem allowed_withFlags (i : Instr) : allowed i (s.withFlags o p n) = allowed i s := by
  cases i <;> rfl

variable {s}

/-- Only SOFT_RESET and ERR_CLEAR write these flags; every other rule carries any values of them through (R46). -/
theorem commandRule_withFlags {i : Instr} (hr : i ≠ .softReset) (he : i ≠ .errClear) {t : State} (h : commandRule i s = .next t) :
    commandRule i (s.withFlags o p n) = .next (t.withFlags o p n) := by
  cases i with
  | softReset => exact absurd rfl hr
  | errClear => exact absurd rfl he
  | serialize =>
    obtain ⟨rows, hv, hl, rfl⟩ := serializeTree_next h
    exact serializeTree_of_visit hv hl
  | build => obtain rfl := Host.Outcome.next.inj h; exact congrArg _ (buildTree_withFlags s o p n)
  | loadSym => obtain rfl := Host.Outcome.next.inj h; exact congrArg _ (loadSym_withFlags s o p n)
  | loadChar c => obtain rfl := Host.Outcome.next.inj h; exact congrArg _ (loadChar_withFlags s o p n c)
  | loadRowEnd => obtain rfl := Host.Outcome.next.inj h; exact congrArg _ (loadRowEnd_withFlags s o p n)
  | loadEnd => obtain rfl := Host.Outcome.next.inj h; exact congrArg _ (loadEnd_withFlags s o p n)
  | encode sym => obtain rfl := Host.Outcome.next.inj h; exact congrArg _ (encodeSymbol_withFlags s o p n sym)
  | decBit b => obtain rfl := Host.Outcome.next.inj h; exact congrArg _ (decBit_withFlags s o p n b)
  | decEnd => obtain rfl := Host.Outcome.next.inj h; exact congrArg _ (decEnd_withFlags s o p n)
  | nop => obtain rfl := Host.Outcome.next.inj h; rfl
  | freqClear => obtain rfl := Host.Outcome.next.inj h; rfl
  | loadBegin => obtain rfl := Host.Outcome.next.inj h; rfl
  | decBegin => obtain rfl := Host.Outcome.next.inj h; rfl

/-- A command other than SOFT_RESET and ERR_CLEAR does with any values of the flags what it does, and the handshake clears PEND.VALID. -/
theorem exec_withFlags {i : Instr} (hr : i ≠ .softReset) (he : i ≠ .errClear) {t : State} (h : exec i s = .next t) :
    exec i (s.withFlags o p n) = .next (t.withFlags o { p with valid := false } n) := by
  have hallowed := allowed_withFlags s o p n i
  rw [exec_eq_runCommand hr he] at h ⊢
  rcases runCommand_cases h with ⟨herr, rfl⟩ | ⟨herr, ha, u, hu, rfl⟩ | ⟨herr, ha, rfl⟩
  · exact runCommand_discard (s := s.withFlags o p n) _ herr
  · exact runCommand_run (s := s.withFlags o p n) herr (hallowed.trans ha) (commandRule_withFlags o p n hr he hu)
  · rw [runCommand_sequence (s := s.withFlags o p n) _ herr (hallowed.trans ha), raise_withFlags]
    rfl

end

/-- What carries the flags through keeps them, but for the end of the handshake (R66). -/
theorem exec_keeps_flags {i : Instr} (hr : i ≠ .softReset) (he : i ≠ .errClear) {s t : State} (h : exec i s = .next t) :
    t.overrun = s.overrun ∧ t.pend = { s.pend with valid := false } ∧ t.initPending = s.initPending := by
  have ht := Host.Outcome.next.inj (h.symm.trans (exec_withFlags s.overrun s.pend s.initPending hr he h))
  rw [ht]
  exact ⟨rfl, rfl, rfl⟩

/-- The end of every command: PEND.VALID = 0, and the initialisation job is not asked for (R66). -/
theorem exec_handshake {i : Instr} {s t : State} (hi : s.initPending = false) (h : exec i s = .next t) :
    t.pend.valid = false ∧ t.initPending = false := by
  by_cases hr : i = .softReset
  · subst hr; obtain rfl := Host.Outcome.next.inj h; exact ⟨rfl, rfl⟩
  by_cases he : i = .errClear
  · subst he; obtain rfl := Host.Outcome.next.inj h; exact ⟨rfl, hi⟩
  obtain ⟨-, hpend, hinit⟩ := exec_keeps_flags hr he h
  exact ⟨by rw [hpend], hinit.trans hi⟩

theorem runIllegal_handshake {w : Word} {why : Illegal} {s t : State} (h : runIllegal w why s = .next t) :
    t.pend.valid = false ∧ t.initPending = s.initPending ∧ t.overrun = s.overrun := by
  rcases runIllegal_cases h with ⟨-, rfl⟩ | ⟨-, rfl⟩
  · exact ⟨rfl, rfl, rfl⟩
  · exact ⟨rfl, by simp, by simp⟩

end Sys2Proof.Machine
end

section
/-! SUPPORT. A command's word decodes to the command (30_encoding.md R83, R84). -/

namespace Sys2Proof

theorem wordBit_encode (b : Bool) : wordBit (encode (.decBit b)) = b := by
  cases b <;> decide

theorem commandOf_encode (i : Instr) : commandOf (encode i) = some i := by
  cases i with
  | loadChar c =>
    obtain ⟨-, hop, himm, -⟩ := Laws.EncodeFits.loadChar c
    simp [commandOf, hop, himm, Instr.opcode, Instr.operandByte]
  | encode sym =>
    obtain ⟨-, hop, himm, -⟩ := Laws.EncodeFits.encode sym
    simp [commandOf, hop, himm, Instr.opcode, Instr.operandByte]
  | decBit b =>
    obtain ⟨-, hop, -, -⟩ := Laws.EncodeFits.decBit b
    simp [commandOf, hop, wordBit_encode, Instr.opcode]
  | _ => rfl

theorem reservedClear_encode (i : Instr) : reservedClear i.format (encode i) = true := by
  cases i with
  | loadChar c => obtain ⟨-, -, -, hclear⟩ := Laws.EncodeFits.loadChar c; exact hclear
  | encode sym => obtain ⟨-, -, -, hclear⟩ := Laws.EncodeFits.encode sym; exact hclear
  | decBit b => obtain ⟨-, -, -, hclear⟩ := Laws.EncodeFits.decBit b; exact hclear
  | _ => rfl

/-- A command's word decodes to the command (R84). -/
theorem decode_encode (i : Instr) : decode (encode i) = .command i := by
  simp only [decode, commandOf_encode, reservedClear_encode, if_true]

theorem tableWord_encode (i : Instr) : tableWord 32 (encode i).toNat = encode i := by
  rw [tableWord, Nat.mod_eq_of_lt (encode i).isLt, BitVec.ofNat_toNat, BitVec.setWidth_eq]

end Sys2Proof
end

section
/-! SUPPORT. The two steps of a command, and OVERRUN (20_memory.md R66, R67). -/

namespace Sys2Proof.Safety

open Sys2Proof.Machine

/-! ## The core's step ends the handshake -/

/-- A core step that was enabled ends with nothing pending. -/
theorem Inv.coreStep_ends_handshake {s t : State} (h : Inv s) (hb : s.busy = true) (hs : coreStep s = .next t) :
    t.pend.valid = false ∧ t.busy = false := by
  rcases coreStep_cases hs with ⟨hi, rfl⟩ | ⟨hi, -, i, -, he⟩ | ⟨hi, -, why, -, hw⟩ | ⟨hi, hp, -⟩
  · have hp : s.initJob.pend.valid = false := h.init hi
    exact ⟨hp, by rw [State.busy, hp]; rfl⟩
  · obtain ⟨hp, hinit⟩ := exec_handshake hi he
    exact ⟨hp, by rw [State.busy, hp, hinit]; rfl⟩
  · obtain ⟨hp, hinit, -⟩ := runIllegal_handshake hw
    exact ⟨hp, by rw [State.busy, hp, hinit, hi]; rfl⟩
  · exact absurd hb (by simp [State.busy, hi, hp])

theorem CoreMoves.busy_eq {s u : State} (h : CoreMoves s u) : u.busy = s.busy := by
  rw [h.eq_inputs]
  rfl

theorem CoreMoves.inv {s u : State} (h : CoreMoves s u) (hs : Inv s) : Inv u := by
  rw [h.eq_inputs]
  exact hs.outside _ s.reads s.draws

/-- Settles O21: the latch makes BUSY 1, and the core's step, which the invariant lets end, clears it. -/
theorem commandAcceptanceAndExecutionAreTwoSteps : Obligations.CommandAcceptanceAndExecutionAreTwoSteps := by
  refine ⟨fun s w hb => hostWrite_cmd hb rfl w, fun s u hm hb => ?_, fun s u hs hm hb => ?_⟩
  · rw [hm.step_eq, coreStep_idle (hm.busy_eq.trans hb)]
  · obtain ⟨t, ht⟩ := (hm.inv hs).coreStep_total
    exact ⟨t, hm.step_eq.trans ht, (hm.inv hs).coreStep_ends_handshake (hm.busy_eq.trans hb) ht⟩

/-! ## OVERRUN -/

/-- The core's step is that of ERR_CLEAR or SOFT_RESET. -/
def ClearsOverrun (s : State) : Prop :=
  s.initPending = false ∧ s.pend.valid = true ∧ (decode s.pend.word = .command .errClear ∨ decode s.pend.word = .command .softReset)

theorem coreStep_overrun {s t : State} (ho : s.overrun = true) (h : coreStep s = .next t) : t.overrun = true ∨ ClearsOverrun s := by
  rcases coreStep_cases h with ⟨-, rfl⟩ | ⟨hi, hp, i, hd, he⟩ | ⟨-, -, why, -, hw⟩ | ⟨-, -, rfl⟩
  · exact .inl ho
  · by_cases hc : i = .errClear
    · exact .inr ⟨hi, hp, .inl (hc ▸ hd)⟩
    by_cases hr : i = .softReset
    · exact .inr ⟨hi, hp, .inr (hr ▸ hd)⟩
    exact .inl ((exec_keeps_flags hr hc he).1.trans ho)
  · obtain ⟨-, -, hover⟩ := runIllegal_handshake hw
    exact .inl (hover.trans ho)
  · exact .inl ho

theorem hostWrite_overrun {s : State} (ho : s.overrun = true) (a : WordAddr) (v : Word) : (s.hostWrite a v).overrun = true := by
  rcases State.hostWrite_cases s a v with ⟨-, -, hw⟩ | ⟨-, -, hw⟩ | ⟨-, -, hw⟩ | ⟨-, sym, -, hw⟩ | ⟨-, -, -, hw⟩ <;> rw [hw]
  all_goals exact ho

/-- OVERRUN = 1 is kept by every step but a reset event and a core step that clears it. -/
theorem step_overrun {s t : State} (ho : s.overrun = true) (h : step s = .next t) :
    t.overrun = true ∨ (∃ rest, s.inputs = .reset :: rest) ∨ ∃ u, CoreMoves s u ∧ ClearsOverrun s := by
  have core : ∀ u, CoreMoves s u → coreStep u = .next t →
      t.overrun = true ∨ (∃ rest, s.inputs = .reset :: rest) ∨ ∃ u, CoreMoves s u ∧ ClearsOverrun s := fun u hm hc => by
    have hu := hm.eq_inputs
    rw [hu] at hc
    exact (coreStep_overrun (s := { s with inputs := u.inputs }) ho hc).imp_right fun hclear => .inr ⟨u, hm, hclear⟩
  rcases step_cases h with ⟨hin, hc⟩ | ⟨rest, hin, hc⟩ | ⟨a, rest, -, rfl⟩ | ⟨a, v, rest, -, rfl⟩ | ⟨rest, hin, -⟩ | ⟨polls, rest, hin, hw⟩
  · exact core s (.inl ⟨hin, rfl⟩) hc
  · exact core _ (.inr (.inl ⟨rest, hin, rfl⟩)) hc
  · exact .inl ho
  · exact .inl (hostWrite_overrun (s := { s with inputs := rest }) ho a v)
  · exact .inr (.inl ⟨rest, hin⟩)
  · rcases waitTurn_cases hw with ⟨-, rfl⟩ | ⟨-, k, -, rfl⟩ | ⟨hb, rfl, hc⟩
    · exact .inl ho
    · exact .inl ho
    · exact core s (.inr (.inr ⟨rest, hin, hb, rfl⟩)) hc

/-- A command that does not clear OVERRUN keeps it, and does with any value of it what it does. -/
theorem exec_anyOverrun {i : Instr} (hr : i ≠ .softReset) (he : i ≠ .errClear) {s t : State} (b : Bool) (h : exec i s = .next t) :
    t.overrun = s.overrun ∧ exec i { s with overrun := b } = .next { t with overrun := b } := by
  obtain ⟨hover, hpend, hinit⟩ := exec_keeps_flags hr he h
  refine ⟨hover, (exec_withFlags b s.pend s.initPending hr he h).trans (congrArg _ ?_)⟩
  rw [← hpend, ← hinit]
  rfl

/-- Settles O12: a dropped write sets OVERRUN alone, only a reset and the two commands named clear it, and no other rule reads it. -/
theorem overrunIsStickyAndStopsNothing : Obligations.OverrunIsStickyAndStopsNothing :=
  ⟨fun _ _ v hb ha => hostWrite_dropped hb (writable_iff.2 ha) v, fun _ _ => step_overrun, fun _ _ _ b he hr => exec_anyOverrun hr he b⟩

/-! ## The pending word -/

/-- Settles O13: the core's turn runs the word in PEND, and withFetchWord leaves a command's word there with no input before it. -/
theorem stepRunsThePendingCommand : Obligations.StepRunsThePendingCommand :=
  ⟨fun _ _ _ hm hi hp hd => hm.step_eq_exec hi hp hd, fun s i =>
    CoreMoves.step_eq_exec (s := s.withFetchWord 32 (encode i).toNat) (.inl ⟨rfl, rfl⟩) rfl rfl
      ((congrArg decode (tableWord_encode i)).trans (decode_encode i))⟩

end Sys2Proof.Safety
end

section
/-! SUPPORT. The parts of a command word, and what decode answers in terms of them (30_encoding.md R81 to R84). -/

namespace Sys2Proof

/-! ## The three parts of a word -/

/-- A word is RSV, IMM8 and OP put together (R81). -/
theorem word_eq_append_iff {w : Word} {rsv : BitVec 16} {imm op : Byte} :
    w = rsv ++ imm ++ op ↔ w.extractLsb' 16 16 = rsv ∧ wordImm8 w = imm ∧ wordOp w = op := by
  constructor
  · rintro rfl
    refine ⟨?_, Safety.extractLsb'_append_field rsv imm op, BitVec.extractLsb'_append_eq_right⟩
    rw [BitVec.append_assoc]
    exact BitVec.extractLsb'_append_eq_left (a := rsv) (b := imm ++ op)
  · rintro ⟨rfl, rfl, rfl⟩
    have hhigh : w.extractLsb' 16 16 ++ wordImm8 w = w.extractLsb' 8 24 := BitVec.extractLsb'_append_extractLsb'_eq_extractLsb' rfl
    have hword : w.extractLsb' 8 24 ++ wordOp w = w.extractLsb' 0 32 := BitVec.extractLsb'_append_extractLsb'_eq_extractLsb' rfl
    rw [hhigh, hword, BitVec.extractLsb'_eq_self]

theorem wordOp_and (v w : Word) : wordOp (v &&& w) = wordOp v &&& wordOp w := BitVec.extractLsb'_and

theorem wordImm8_and (v w : Word) : wordImm8 (v &&& w) = wordImm8 v &&& wordImm8 w := BitVec.extractLsb'_and

/-- What a word of the format has in IMM8: 0 for N, the operand byte for B, the operand bit for T (R81, R82). -/
def Format.immOf : Format → Word → Byte
  | .n, _ => 0#8
  | .b, w => wordImm8 w
  | .t, w => BitVec.ofNat 8 (wordBit w).toNat

/-- The bits that a format requires to be 0, split at the border of RSV and IMM8. -/
theorem reservedClear_iff (f : Format) (w : Word) :
    reservedClear f w = true ↔ w.extractLsb' 16 16 = 0#16 ∧ wordImm8 w = f.immOf w := by
  cases f with
  | n =>
    simp only [reservedClear, beq_iff_eq, Format.immOf, wordImm8, ← BitVec.toNat_inj, BitVec.extractLsb'_toNat,
      Nat.shiftRight_eq_div_pow, BitVec.toNat_ofNat]
    omega
  | b => simp [reservedClear, Format.immOf]
  | t =>
    have hbit : (wordBit w).toNat = w.toNat / 256 % 2 := Nat.toNat_testBit w.toNat 8
    simp only [reservedClear, beq_iff_eq, Format.immOf, wordImm8, hbit, ← BitVec.toNat_inj, BitVec.extractLsb'_toNat,
      Nat.shiftRight_eq_div_pow, BitVec.toNat_ofNat]
    generalize w.toNat = x
    omega

/-! ## The opcode map -/

/-- The opcode map read both ways (R83): an opcode names its command, whose operand is what the format puts in IMM8. -/
theorem commandOf_eq_some_iff {w : Word} {i : Instr} :
    commandOf w = some i ↔ wordOp w = i.opcode ∧ i.format.immOf w = i.operandByte := by
  constructor
  · intro h
    unfold commandOf at h
    split at h <;> cases h
    all_goals exact ⟨BitVec.eq_of_toNat_eq ‹_›, rfl⟩
  · rintro ⟨hop, himm⟩
    cases i with
    | loadChar c => obtain rfl : wordImm8 w = c := himm; simp [commandOf, hop, Instr.opcode]
    | encode sym => obtain rfl : wordImm8 w = sym := himm; simp [commandOf, hop, Instr.opcode]
    | decBit b =>
      have hb : wordBit w = b := by
        revert himm
        simp only [Format.immOf, Instr.format, Instr.operandByte]
        cases wordBit w <;> cases b <;> simp
      simp [commandOf, hop, Instr.opcode, hb]
    | _ => simp [commandOf, hop, Instr.opcode]

theorem decode_of_commandOf {w : Word} {i : Instr} (h : commandOf w = some i) :
    decode w = if reservedClear i.format w then .command i else .illegal .reservedBits := by
  rw [decode, h]

theorem decode_eq_command_iff {w : Word} {i : Instr} :
    decode w = .command i ↔ commandOf w = some i ∧ reservedClear i.format w = true := by
  cases h : commandOf w with
  | none => simp [decode, h]
  | some j =>
    rw [decode_of_commandOf h]
    constructor
    · intro hd
      split at hd
      · cases hd; exact ⟨rfl, ‹_›⟩
      · cases hd
    · rintro ⟨hj, hr⟩
      cases hj
      exact if_pos hr

theorem decode_eq_undefinedOpcode_iff {w : Word} : decode w = .illegal .undefinedOpcode ↔ commandOf w = none := by
  cases h : commandOf w with
  | none => simp [decode, h]
  | some j =>
    rw [decode_of_commandOf h]
    split <;> simp

/-- Settles O3: a legal word has the opcode and the operand of its command, and its format leaves it no other bit. -/
theorem decodeAndEncodeAgree : Obligations.DecodeAndEncodeAgree := by
  refine fun w i => ⟨fun h => ?_, ?_⟩
  · obtain ⟨hcommand, hclear⟩ := decode_eq_command_iff.1 h
    obtain ⟨hop, himm⟩ := commandOf_eq_some_iff.1 hcommand
    obtain ⟨hrsv, hbyte⟩ := (reservedClear_iff _ w).1 hclear
    exact word_eq_append_iff.2 ⟨hrsv, hbyte.trans himm, hop⟩
  · rintro rfl
    exact decode_encode i

/-- Settles O1: eight of the sample words are the words of their commands, and the other two have a set reserved bit and no command. -/
theorem sampleWordsDecodeToTheirCommands : Obligations.SampleWordsDecodeToTheirCommands :=
  ⟨decode_encode .softReset, decode_encode .build, decode_encode .serialize, decode_encode (.loadChar 0x31#8), decode_encode .loadEnd,
    decode_encode (.encode 0x42#8), decode_encode (.decBit true), decode_encode .decEnd, by decide, by decide⟩

/-! ## The opcodes -/

/-- The command that a word with the opcode of i names: i with the word's own operand (R83). -/
def Instr.withOperandOf (i : Instr) (w : Word) : Instr :=
  match i with
  | .loadChar _ => .loadChar (wordImm8 w)
  | .encode _ => .encode (wordImm8 w)
  | .decBit _ => .decBit (wordBit w)
  | i => i

/-- One command of each opcode, in the order of R83. -/
def representatives : List Instr :=
  [.nop, .softReset, .errClear, .freqClear, .build, .serialize, .loadBegin, .loadSym, .loadChar 0#8, .loadRowEnd, .loadEnd, .encode 0#8,
    .decBegin, .decBit false, .decEnd]

theorem withOperandOf_zero_mem_representatives (i : Instr) : i.withOperandOf 0#32 ∈ representatives := by
  cases i <;> simp [representatives, Instr.withOperandOf, wordImm8, wordBit]

/-- What does not depend on the operand has its values at the representatives. -/
theorem mem_map_representatives_iff {α : Type} {f : Instr → α} (hf : ∀ i, f (i.withOperandOf 0#32) = f i) {x : α} :
    x ∈ representatives.map f ↔ ∃ i, f i = x := by
  rw [List.mem_map]
  exact ⟨fun ⟨i, _, hi⟩ => ⟨i, hi⟩, fun ⟨i, hi⟩ => ⟨_, withOperandOf_zero_mem_representatives i, (hf i).trans hi⟩⟩

/-- The fifteen opcodes (R83). -/
def definedOpcodes : List Byte := representatives.map Instr.opcode

theorem opcode_withOperandOf (i : Instr) (w : Word) : (i.withOperandOf w).opcode = i.opcode := by
  cases i <;> rfl

theorem mem_definedOpcodes_iff {op : Byte} : op ∈ definedOpcodes ↔ ∃ i : Instr, i.opcode = op :=
  mem_map_representatives_iff fun i => opcode_withOperandOf i 0#32

theorem Instr.withOperandOf_of_format_n {i : Instr} (h : i.format = .n) (w : Word) : i.withOperandOf w = i := by
  cases i
  case loadChar c => cases h
  case encode sym => cases h
  case decBit b => cases h
  all_goals rfl

theorem commandOf_of_wordOp {w : Word} {i : Instr} (h : wordOp w = i.opcode) : commandOf w = some (i.withOperandOf w) := by
  cases i <;> exact commandOf_eq_some_iff.2 ⟨h, rfl⟩

theorem commandOf_eq_none_iff {w : Word} : commandOf w = none ↔ wordOp w ∉ definedOpcodes := by
  rw [mem_definedOpcodes_iff]
  constructor
  · rintro h ⟨i, hi⟩
    rw [commandOf_of_wordOp hi.symm] at h
    cases h
  · intro h
    cases hc : commandOf w with
    | none => rfl
    | some i => exact absurd ⟨i, (commandOf_eq_some_iff.1 hc).1.symm⟩ h

/-- What decode answers for a word with a defined opcode, the formats' checks written out (R84). -/
theorem decode_of_wordOp {w : Word} {i : Instr} (h : wordOp w = i.opcode) :
    decode w = if reservedClear i.format w then .command (i.withOperandOf w) else .illegal .reservedBits := by
  have hformat : (i.withOperandOf w).format = i.format := by cases i <;> rfl
  rw [decode_of_commandOf (commandOf_of_wordOp h), hformat]

/-! ## The legal words -/

/-- Every byte once. -/
def allBytes : List Byte := (List.finRange 256).map BitVec.ofFin

/-- The commands without an operand byte, each once. -/
def bytelessCommands : List Instr :=
  [.nop, .softReset, .errClear, .freqClear, .build, .serialize, .loadBegin, .loadSym, .loadRowEnd, .loadEnd, .decBegin, .decEnd,
    .decBit false, .decBit true]

/-- Every command once, with each of its operands. -/
def allCommands : List Instr := bytelessCommands ++ (allBytes.map Instr.loadChar ++ allBytes.map Instr.encode)

theorem mem_allBytes (c : Byte) : c ∈ allBytes := List.mem_map.2 ⟨c.toFin, List.mem_finRange _, rfl⟩

theorem allBytes_nodup : allBytes.Nodup := (List.nodup_finRange 256).map fun _ _ => congrArg BitVec.toFin

theorem mem_allCommands (i : Instr) : i ∈ allCommands := by
  cases i with
  | loadChar c => simp [allCommands, mem_allBytes]
  | encode sym => simp [allCommands, mem_allBytes]
  | decBit b => cases b <;> simp [allCommands, bytelessCommands]
  | _ => simp [allCommands, bytelessCommands]

theorem allCommands_nodup : allCommands.Nodup := by
  have hchar : (allBytes.map Instr.loadChar).Nodup := allBytes_nodup.map fun _ _ => Instr.loadChar.inj
  have hencode : (allBytes.map Instr.encode).Nodup := allBytes_nodup.map fun _ _ => Instr.encode.inj
  refine List.nodup_append'.2 ⟨by decide, List.nodup_append'.2 ⟨hchar, hencode, ?_⟩, ?_⟩ <;>
    simp [bytelessCommands, List.disjoint_left]

theorem allCommands_length : allCommands.length = 526 := by
  simp [allCommands, allBytes, bytelessCommands]

theorem encode_injective : Function.Injective encode := fun i j h =>
  Decoded.command.inj <| by rw [← decode_encode i, h, decode_encode]

/-- Settles O2: an opcode names its command and the format the bits to check, and the legal words are the words of the 526 commands. -/
theorem decodeFollowsTheOpcodeMap : Obligations.DecodeFollowsTheOpcodeMap := by
  refine ⟨fun w => ⟨fun h => ?_, fun p hp => ?_, fun h => ?_, fun h => ?_, fun h => ?_⟩,
    allCommands.map encode, allCommands_nodup.map encode_injective, ?_, fun w => ?_⟩
  · exact decode_eq_undefinedOpcode_iff.2 (commandOf_eq_none_iff.2 h)
  · obtain ⟨hopcode, hformat⟩ : p.1 = p.2.opcode ∧ p.2.format = .n := by revert p; decide
    intro h
    simpa [reservedClear, hformat, Instr.withOperandOf_of_format_n] using decode_of_wordOp (h.trans hopcode)
  · simpa [reservedClear, Instr.format, Instr.withOperandOf, wordImm8, wordBit] using decode_of_wordOp (i := .loadChar 0#8) h
  · simpa [reservedClear, Instr.format, Instr.withOperandOf, wordImm8, wordBit] using decode_of_wordOp (i := .encode 0#8) h
  · simpa [reservedClear, Instr.format, Instr.withOperandOf, wordImm8, wordBit] using decode_of_wordOp (i := .decBit false) h
  · exact (List.length_map _).trans allCommands_length
  · simp only [List.mem_map, mem_allCommands, true_and, decodeAndEncodeAgree w, eq_comm]

/-! ## The opcode table -/

/-- The bits of IMM8 that a format requires to be 0 (R81). -/
def Format.immMask : Format → Byte
  | .n => 0xFF#8
  | .b => 0x00#8
  | .t => 0xFE#8

/-- The row of a command in spec/opcode_table.json. -/
def Instr.row (i : Instr) : OpcodeRow :=
  ⟨i.mnemonic, 0#16 ++ 0#8 ++ i.opcode, BitVec.allOnes 16 ++ i.format.immMask ++ BitVec.allOnes 8⟩

theorem row_withOperandOf (i : Instr) (w : Word) : (i.withOperandOf w).row = i.row := by
  cases i <;> rfl

theorem opcodeTable_eq_map_row : opcodeTable = representatives.map Instr.row := rfl

theorem mem_opcodeTable_iff {r : OpcodeRow} : r ∈ opcodeTable ↔ ∃ i : Instr, i.row = r :=
  mem_map_representatives_iff fun i => row_withOperandOf i 0#32

/-- Under the mask of its format, IMM8 is what the format puts there and nothing more. -/
theorem wordImm8_and_immMask_eq_zero_iff (f : Format) (w : Word) : wordImm8 w &&& f.immMask = 0#8 ↔ wordImm8 w = f.immOf w := by
  have hbit : wordBit w = (wordImm8 w).getLsbD 0 := by simp [wordBit, wordImm8]
  cases f with
  | n => exact iff_of_eq (congrArg (· = 0#8) (BitVec.and_allOnes ..))
  | b => simp [Format.immMask, Format.immOf]
  | t =>
    simp only [Format.immMask, Format.immOf, hbit]
    generalize wordImm8 w = imm
    decide +revert

/-- A row covers the words of its opcode whose format's bits are clear. -/
theorem row_covers_iff (i : Instr) (w : Word) : i.row.covers w = true ↔ wordOp w = i.opcode ∧ reservedClear i.format w = true := by
  obtain ⟨hrsv, himm, hop⟩ := word_eq_append_iff.1 (rfl : i.row.mask = BitVec.allOnes 16 ++ i.format.immMask ++ BitVec.allOnes 8)
  have hmasked : i.row.covers w = true ↔
      w.extractLsb' 16 16 = 0#16 ∧ wordImm8 w &&& i.format.immMask = 0#8 ∧ wordOp w = i.opcode := by
    rw [OpcodeRow.covers, beq_iff_eq]
    refine word_eq_append_iff.trans ?_
    rw [BitVec.extractLsb'_and, wordImm8_and, wordOp_and, hrsv, himm, hop, BitVec.and_allOnes, BitVec.and_allOnes]
  rw [hmasked, reservedClear_iff, wordImm8_and_immMask_eq_zero_iff]
  tauto

/-- A row covers exactly the legal words of its command, whatever their operands. -/
theorem row_covers_iff_decode (i : Instr) (w : Word) : i.row.covers w = true ↔ ∃ j, decode w = .command j ∧ j.row = i.row := by
  constructor
  · intro h
    obtain ⟨hop, hclear⟩ := (row_covers_iff i w).1 h
    exact ⟨i.withOperandOf w, by rw [decode_of_wordOp hop, if_pos hclear], row_withOperandOf i w⟩
  · rintro ⟨j, hj, hrow⟩
    obtain ⟨hcommand, hclear⟩ := decode_eq_command_iff.1 hj
    exact hrow ▸ (row_covers_iff j w).2 ⟨(commandOf_eq_some_iff.1 hcommand).1, hclear⟩

/-- Settles O4: the row of a command covers its words and no others, so a legal word has one row and an illegal word none. -/
theorem opcodeTableAndDecoderAgree : Obligations.OpcodeTableAndDecoderAgree := by
  refine fun w => ⟨fun i h => ⟨i.row, mem_opcodeTable_iff.2 ⟨i, rfl⟩, (row_covers_iff_decode i w).2 ⟨i, h, rfl⟩, rfl, fun r hr hc => ?_⟩,
    fun why h r hr => Bool.eq_false_iff.2 fun hc => ?_⟩
  · obtain ⟨k, rfl⟩ := mem_opcodeTable_iff.1 hr
    obtain ⟨j, hj, hrow⟩ := (row_covers_iff_decode k w).1 hc
    rw [← hrow, Decoded.command.inj (hj.symm.trans h)]
  · obtain ⟨k, rfl⟩ := mem_opcodeTable_iff.1 hr
    obtain ⟨j, hj, -⟩ := (row_covers_iff_decode k w).1 hc
    cases hj.symm.trans h

end Sys2Proof
end

section
/-! SUPPORT. What executing a word that is no command does (30_encoding.md R85). -/

namespace Sys2Proof.Safety

open Sys2Proof.Machine

theorem runWord_illegal {w : Word} {why : Illegal} (h : decode w = .illegal why) (s : State) : runWord w s = runIllegal w why s := by
  simp only [runWord, h]

theorem runIllegal_discard {s : State} (h : s.err = true) (w : Word) (why : Illegal) : runIllegal w why s = .next s.complete := if_pos h

theorem runIllegal_raise {s : State} (h : s.err = false) (w : Word) (why : Illegal) :
    runIllegal w why s = .next (recorded s (wordOp w) (ErrorKind.illegalCmd why).sub 7#8) := by
  rw [runIllegal, State.raise_illegalCmd h, h]
  rfl

theorem CoreMoves.err_eq {s u : State} (h : CoreMoves s u) : u.err = s.err := by
  rw [h.eq_inputs]

theorem CoreMoves.pend_eq {s u : State} (h : CoreMoves s u) : u.pend = s.pend := by
  rw [h.eq_inputs]

theorem CoreMoves.initPending_eq {s u : State} (h : CoreMoves s u) : u.initPending = s.initPending := by
  rw [h.eq_inputs]

/-- A word that is no command is run as one in the core's turn (R226). -/
theorem CoreMoves.step_eq_runIllegal {s u : State} {why : Illegal} (h : CoreMoves s u) (hi : s.initPending = false)
    (hp : s.pend.valid = true) (hd : decode s.pend.word = .illegal why) : step s = runIllegal s.pend.word why u := by
  rw [h.step_eq, coreStep_runWord (h.initPending_eq.trans hi) (h.pend_eq ▸ hp), h.pend_eq, runWord_illegal hd]

/-- Where STATUS.ERR = 0, a word that is no command raises ILLEGAL_CMD with the reason as SUB (R85). -/
theorem CoreMoves.step_illegal_raises {s u : State} {why : Illegal} (h : CoreMoves s u) (hi : s.initPending = false)
    (hp : s.pend.valid = true) (he : s.err = false) (hd : decode s.pend.word = .illegal why) :
    step s = .next (recorded u (wordOp s.pend.word) (ErrorKind.illegalCmd why).sub 7#8) := by
  rw [h.step_eq_runIllegal hi hp hd, runIllegal_raise (h.err_eq.trans he)]

/-- Where STATUS.ERR = 1, it is ignored (R85). -/
theorem CoreMoves.step_illegal_ignored {s u : State} {why : Illegal} (h : CoreMoves s u) (hi : s.initPending = false)
    (hp : s.pend.valid = true) (he : s.err = true) (hd : decode s.pend.word = .illegal why) :
    step s = .next { u with pend := ⟨false, s.pend.word⟩ } := by
  rw [h.step_eq_runIllegal hi hp hd, runIllegal_discard (h.err_eq.trans he), State.complete, h.pend_eq]

/-- The opcodes that R85 lists as undefined are the bytes that are not an opcode of R83. -/
theorem not_mem_definedOpcodes_iff (op : Byte) : op ∉ definedOpcodes ↔
    (0x04 ≤ op.toNat ∧ op.toNat ≤ 0x0F) ∨ (0x12 ≤ op.toNat ∧ op.toNat ≤ 0x1F) ∨ (0x25 ≤ op.toNat ∧ op.toNat ≤ 0x2F) ∨
    (0x31 ≤ op.toNat ∧ op.toNat ≤ 0x3F) ∨ (0x43 ≤ op.toNat ∧ op.toNat ≤ 0xFF) := by
  decide +revert

/-- Settles O15: the core's turn runs the word as an illegal one, and the words without a command are those of the bytes that name none. -/
theorem illegalWordsRaiseIllegalCmd : Obligations.IllegalWordsRaiseIllegalCmd := by
  refine ⟨fun s u hm hi hp => ⟨fun he hd => hm.step_illegal_raises hi hp he hd, fun he hd => hm.step_illegal_raises hi hp he hd,
    fun he why hd => hm.step_illegal_ignored hi hp he hd⟩, fun w => ?_⟩
  rw [decode_eq_undefinedOpcode_iff, commandOf_eq_none_iff]
  exact not_mem_definedOpcodes_iff (wordOp w)

end Sys2Proof.Safety
end

section
/-! SUPPORT. The core neither reads nor writes the model's own fields, so it does beside any values of them what it does (logs 1 and 2). -/

namespace Sys2Proof.Machine

/-- The state with other values of the model's own fields: what the outside still does, what it has read, and the draws taken. -/
def State.withOutside (s : State) (inputs : List Input) (reads : List Word) (draws : Nat) : State :=
  { s with inputs := inputs, reads := reads, draws := draws }

/-- An outcome's next state with other values of the model's own fields. -/
def withOutsideNext (inputs : List Input) (reads : List Word) (draws : Nat) :
    Host.Outcome State Fault Refusal → Host.Outcome State Fault Refusal
  | .next s => .next (s.withOutside inputs reads draws)
  | .fault r => .fault r
  | .refused r => .refused r

section

variable (s : State) (ins : List Input) (vs : List Word) (n : Nat)

@[simp] theorem State.withOutside_inputs : (s.withOutside ins vs n).inputs = ins := rfl
@[simp] theorem State.withOutside_reads : (s.withOutside ins vs n).reads = vs := rfl
@[simp] theorem State.withOutside_draws : (s.withOutside ins vs n).draws = n := rfl
@[simp] theorem State.withOutside_busy : (s.withOutside ins vs n).busy = s.busy := rfl
@[simp] theorem State.withOutside_statusWord : (s.withOutside ins vs n).statusWord = s.statusWord := rfl
@[simp] theorem State.withOutside_withOutside (ins' : List Input) (vs' : List Word) (n' : Nat) :
    (s.withOutside ins vs n).withOutside ins' vs' n' = s.withOutside ins' vs' n' := rfl

/-! ## The operations shared by the rules -/

theorem ite_withOutside {c : Prop} [Decidable c] (a b : State) :
    (if c then a else b).withOutside ins vs n = if c then a.withOutside ins vs n else b.withOutside ins vs n :=
  apply_ite (State.withOutside · ins vs n) c a b

theorem raise_withOutside (op : Byte) (e : ErrorKind) : (s.withOutside ins vs n).raise op e = (s.raise op e).withOutside ins vs n := by
  have hrecord : (s.withOutside ins vs n).recordError op e = (s.recordError op e).withOutside ins vs n := by
    simp only [State.recordError, ite_withOutside]
    rfl
  rw [State.raise, hrecord]
  cases e <;> rfl

theorem setChild_withOutside (i j : NodeIdx) (b : Bool) :
    (s.withOutside ins vs n).setChild i b j = (s.setChild i b j).withOutside ins vs n := by
  cases b <;> rfl

theorem alloc_withOutside : (s.withOutside ins vs n).alloc = s.alloc.map fun r => (r.1, r.2.withOutside ins vs n) := by
  simp only [State.alloc, apply_dite (Option.map fun r : NodeIdx × State => (r.1, r.2.withOutside ins vs n))]
  rfl

theorem descendOrMake_withOutside (i : NodeIdx) (b : Bool) :
    (s.withOutside ins vs n).descendOrMake i b = (s.descendOrMake i b).map fun r => (r.1, r.2.withOutside ins vs n) := by
  have hnodes : (s.withOutside ins vs n).nodes = s.nodes := rfl
  simp only [State.descendOrMake, hnodes, alloc_withOutside]
  cases s.nodes[i].child b with
  | some j => rfl
  | none =>
    cases s.alloc with
    | none => rfl
    | some r => simp only [Option.map_some, setChild_withOutside]

/-! ## The rules -/

theorem buildTree_withOutside : buildTree (s.withOutside ins vs n) = (buildTree s).withOutside ins vs n := by
  have hraise := raise_withOutside s.discardTree ins vs n Instr.build.opcode .construction
  simp only [buildTree, ite_withOutside, ← hraise]
  rfl

theorem loadSym_withOutside : loadSym (s.withOutside ins vs n) = (loadSym s).withOutside ins vs n := by
  have hdata : (s.withOutside ins vs n).dataSymbol = s.dataSymbol := rfl
  simp only [loadSym, raise_withOutside, ite_withOutside, hdata]
  cases s.dataSymbol with
  | none => rfl
  | some sym => simp only [ite_withOutside]; rfl

theorem loadChar_withOutside (c : Byte) : loadChar c (s.withOutside ins vs n) = (loadChar c s).withOutside ins vs n := by
  have hcur : (s.withOutside ins vs n).loadCur = s.loadCur := rfl
  simp only [loadChar, raise_withOutside, ite_withOutside, hcur, descendOrMake_withOutside]
  cases charBit c with
  | none => rfl
  | some b =>
    simp only [ite_withOutside]
    cases s.descendOrMake s.loadCur.node b <;> rfl

theorem loadRowEnd_withOutside : loadRowEnd (s.withOutside ins vs n) = (loadRowEnd s).withOutside ins vs n := by
  simp only [loadRowEnd, raise_withOutside, ite_withOutside]
  rfl

theorem loadEnd_withOutside : loadEnd (s.withOutside ins vs n) = (loadEnd s).withOutside ins vs n := by
  simp only [loadEnd, raise_withOutside, ite_withOutside]
  rfl

theorem encodeSymbol_withOutside (sym : Byte) :
    encodeSymbol sym (s.withOutside ins vs n) = (encodeSymbol sym s).withOutside ins vs n := by
  have hrows : (s.withOutside ins vs n).liveRows = s.liveRows := rfl
  simp only [encodeSymbol, raise_withOutside, hrows]
  cases s.liveRows.find? (fun r => r.sym == sym) <;> rfl

theorem decBit_withOutside (b : Bool) : decBit b (s.withOutside ins vs n) = (decBit b s).withOutside ins vs n := by
  have hchild : (s.withOutside ins vs n).nodes[(s.withOutside ins vs n).cursor.node].child b = s.nodes[s.cursor.node].child b := rfl
  unfold decBit
  rw [hchild]
  cases s.nodes[s.cursor.node].child b with
  | none => exact raise_withOutside { s with decState := .idle } ins vs n _ _
  | some j =>
    have hnode : (s.withOutside ins vs n).nodes[j] = s.nodes[j] := rfl
    simp only [hnode]
    cases s.nodes[j].sym <;> rfl

theorem decEnd_withOutside : decEnd (s.withOutside ins vs n) = (decEnd s).withOutside ins vs n := by
  have hraise := raise_withOutside { s with decState := .idle } ins vs n Instr.decEnd.opcode .truncated
  simp only [decEnd, ite_withOutside, ← hraise]
  rfl

theorem serializeTree_withOutside : serializeTree (s.withOutside ins vs n) = withOutsideNext ins vs n (serializeTree s) := by
  have hvisit : visit (s.withOutside ins vs n).nodes Config.maxPath (s.withOutside ins vs n).root [] =
      visit s.nodes Config.maxPath s.root [] := rfl
  simp only [serializeTree, hvisit]
  cases visit s.nodes Config.maxPath s.root [] with
  | none => rfl
  | some rows => simp only [apply_ite (withOutsideNext ins vs n)]; rfl

theorem commandRule_withOutside (i : Instr) :
    commandRule i (s.withOutside ins vs n) = withOutsideNext ins vs n (commandRule i s) := by
  cases i with
  | serialize => exact serializeTree_withOutside s ins vs n
  | build => exact congrArg Host.Outcome.next (buildTree_withOutside s ins vs n)
  | loadSym => exact congrArg Host.Outcome.next (loadSym_withOutside s ins vs n)
  | loadChar c => exact congrArg Host.Outcome.next (loadChar_withOutside s ins vs n c)
  | loadRowEnd => exact congrArg Host.Outcome.next (loadRowEnd_withOutside s ins vs n)
  | loadEnd => exact congrArg Host.Outcome.next (loadEnd_withOutside s ins vs n)
  | encode sym => exact congrArg Host.Outcome.next (encodeSymbol_withOutside s ins vs n sym)
  | decBit b => exact congrArg Host.Outcome.next (decBit_withOutside s ins vs n b)
  | decEnd => exact congrArg Host.Outcome.next (decEnd_withOutside s ins vs n)
  | _ => rfl

/-! ## The dispatch and the core's step -/

theorem runCommand_withOutside {i : Instr} {body : State → Host.Outcome State Fault Refusal}
    (h : body (s.withOutside ins vs n) = withOutsideNext ins vs n (body s)) :
    runCommand i body (s.withOutside ins vs n) = withOutsideNext ins vs n (runCommand i body s) := by
  have hallowed : allowed i (s.withOutside ins vs n) = allowed i s := by cases i <;> rfl
  have hfinish : finish (withOutsideNext ins vs n (body s)) = withOutsideNext ins vs n (finish (body s)) := by
    cases body s <;> rfl
  simp only [runCommand, hallowed, h, hfinish, raise_withOutside, apply_ite (withOutsideNext ins vs n)]
  rfl

theorem exec_withOutside (i : Instr) : exec i (s.withOutside ins vs n) = withOutsideNext ins vs n (exec i s) := by
  by_cases hr : i = .softReset
  · subst hr; rfl
  by_cases he : i = .errClear
  · subst he; rfl
  rw [exec_eq_runCommand hr he, exec_eq_runCommand hr he]
  exact runCommand_withOutside s ins vs n (commandRule_withOutside s ins vs n i)

theorem runIllegal_withOutside (w : Word) (why : Illegal) :
    runIllegal w why (s.withOutside ins vs n) = withOutsideNext ins vs n (runIllegal w why s) := by
  simp only [runIllegal, raise_withOutside, apply_ite (withOutsideNext ins vs n)]
  rfl

/-- The core's step carries the model's own fields through. -/
theorem coreStep_withOutside : coreStep (s.withOutside ins vs n) = withOutsideNext ins vs n (coreStep s) := by
  have hword : runWord s.pend.word (s.withOutside ins vs n) = withOutsideNext ins vs n (runWord s.pend.word s) := by
    unfold runWord
    cases decode s.pend.word with
    | command i => exact exec_withOutside s ins vs n i
    | illegal why => exact runIllegal_withOutside s ins vs n _ why
  simp only [coreStep, apply_ite (withOutsideNext ins vs n), ← hword]
  rfl

/-- Where the core's step answers a state, it answers that state with the values put in. -/
theorem coreStep_withOutside_next {s t : State} (h : coreStep s = .next t) (ins : List Input) (vs : List Word) (n : Nat) :
    coreStep (s.withOutside ins vs n) = .next (t.withOutside ins vs n) := by
  rw [coreStep_withOutside, h]
  rfl

end

end Sys2Proof.Machine
end

section
/-! SUPPORT. The turns of a WAIT: reads of STATUS while BUSY = 1, the core's step, and the read that ends it (30_encoding.md R92). -/

namespace Sys2Proof.Safety

open Sys2Proof.Machine

variable {s : State} {k : Nat} {rest : List Input}

/-! ## One turn -/

theorem step_wait (h : s.inputs = .wait k :: rest) : step s = waitTurn k rest s := by
  simp only [step, takeTurn, h]

/-- A read that shows BUSY = 0 ends the WAIT. -/
theorem step_wait_idle (h : s.inputs = .wait k :: rest) (hb : s.busy = false) :
    step s = .next (s.withOutside rest (s.statusWord :: s.reads) s.draws) := by
  have hread : s.readWord Target.status.addr = s.statusWord := readWord_offset hb .status rfl
  have hpoll : s.poll rest = s.withOutside rest (s.readWord Target.status.addr :: s.reads)
      (if s.busy then s.draws + 1 else s.draws) := rfl
  rw [step_wait h, ← hread]
  simp only [waitTurn, hpoll, hb, Bool.false_eq_true, if_false]

/-- A read that shows BUSY = 1 repeats it. -/
theorem step_wait_poll (h : s.inputs = .wait (k + 1) :: rest) (hb : s.busy = true) :
    step s = .next (s.withOutside (.wait k :: rest) (s.readWord Target.status.addr :: s.reads) (s.draws + 1)) := by
  have hpoll : s.poll (.wait k :: rest) = s.withOutside (.wait k :: rest) (s.readWord Target.status.addr :: s.reads)
      (if s.busy then s.draws + 1 else s.draws) := rfl
  rw [step_wait h]
  simp only [waitTurn, hpoll, hb, if_true]

/-- After the reads before it, the core has its turn with the WAIT still there. -/
theorem step_wait_core (h : s.inputs = .wait 0 :: rest) (hb : s.busy = true) : step s = coreStep s :=
  CoreMoves.step_eq (.inr (.inr ⟨rest, h, hb, rfl⟩))

/-! ## The loop -/

theorem run_succ {t : State} (h : step s = .next t) (n : Nat) : core.run (n + 1) s = core.run n t := by
  have hcore : core.step s = .next t := h
  simp only [Host.Core.run, hcore]

/-- The reads of a WAIT before the core's step: each shows BUSY = 1, and nothing but the model's own fields moves. -/
theorem run_wait_polls (h : s.inputs = .wait k :: rest) (hb : s.busy = true) :
    ∃ polls : List Word, polls.length = k ∧ (∀ v ∈ polls, v.getLsbD 0 = true) ∧
      ∀ n, core.run (k + n) s = core.run n (s.withOutside (.wait 0 :: rest) (polls ++ s.reads) (s.draws + k)) := by
  induction k generalizing s with
  | zero =>
    refine ⟨[], rfl, List.forall_mem_nil _, fun n => ?_⟩
    rw [Nat.zero_add, ← h]
    rfl
  | succ k ih =>
    have hread : (s.readWord Target.status.addr).getLsbD 0 = true := (readWord_status_busy (target_addr .status)).trans hb
    obtain ⟨polls, hlen, hbits, hrun⟩ :=
      ih (s := s.withOutside (.wait k :: rest) (s.readWord Target.status.addr :: s.reads) (s.draws + 1)) rfl hb
    refine ⟨polls ++ [s.readWord Target.status.addr], by simp [hlen],
      List.forall_mem_append.2 ⟨hbits, by simpa using hread⟩, fun n => ?_⟩
    rw [Nat.add_right_comm, run_succ (step_wait_poll h hb), hrun]
    simp [Nat.add_assoc, Nat.add_comm 1 k]

/-- The core's step and the read after it. -/
theorem run_wait_core {t : State} (h : s.inputs = .wait 0 :: rest) (hb : s.busy = true) (hc : coreStep s = .next t)
    (ht : t.inputs = .wait 0 :: rest) (hidle : t.busy = false) :
    core.run 2 s = .next (t.withOutside rest (t.statusWord :: t.reads) t.draws) := by
  rw [run_succ ((step_wait_core h hb).trans hc), run_succ (step_wait_idle ht hidle)]
  rfl

/-- Settles O59: the reads move only the model's own fields, which the core's step neither reads nor writes, and that step ends the
handshake, so that the next read ends the loop. -/
theorem waitEndsOnceTheCommandIsFinished : Obligations.WaitEndsOnceTheCommandIsFinished := by
  refine fun s k rest h => ⟨fun hb => ⟨step_wait_idle h hb, (statusWord_fields s).1.trans hb⟩, fun hs hb => ?_⟩
  obtain ⟨polls, hlen, hbits, hrun⟩ := run_wait_polls h hb
  have hinv : Inv (s.withOutside [] s.reads s.draws) := hs.outside [] s.reads s.draws
  obtain ⟨c, hc⟩ := hinv.coreStep_total
  have hidle : c.busy = false := (hinv.coreStep_ends_handshake hb hc).2
  refine ⟨polls, c, hlen, hbits, hc, hidle, (statusWord_fields c).1.trans hidle, ?_⟩
  have hcore : coreStep (s.withOutside (.wait 0 :: rest) (polls ++ s.reads) (s.draws + k)) =
      .next (c.withOutside (.wait 0 :: rest) (polls ++ s.reads) (s.draws + k)) := coreStep_withOutside_next hc _ _ _
  rw [hrun]
  exact run_wait_core (s := s.withOutside (.wait 0 :: rest) (polls ++ s.reads) (s.draws + k)) rfl hb hcore rfl hidle

end Sys2Proof.Safety
end

section
/-! SUPPORT. The control commands: what each answers, and BUILD where no symbol is counted (40_control.md R100 to R103). -/

namespace Sys2Proof.Machine

/-- A command that the dispatch lets through follows its rule and completes the handshake (R226). -/
theorem exec_run {i : Instr} (hr : i ≠ .softReset) (hc : i ≠ .errClear) {s u : State} (he : s.err = false) (ha : allowed i s = true)
    (hu : commandRule i s = .next u) : exec i s = .next u.complete := by
  rw [exec_eq_runCommand hr hc, runCommand_run he ha hu]

/-- NOP completes the handshake, whether it is executed or discarded (R100, R226). -/
theorem exec_nop (s : State) : exec .nop s = .next s.complete := by
  cases he : s.err with
  | true => exact runCommand_discard _ he
  | false => exact exec_run (by decide) (by decide) he rfl rfl

/-- SOFT_RESET leaves no command pending, so its handshake has nothing more to complete (R101). -/
theorem exec_softReset (s : State) : exec .softReset s = .next s.softReset := rfl

theorem exec_errClear (s : State) : exec .errClear s = .next s.clearError.complete := rfl

theorem exec_freqClear {s : State} (h : s.err = false) : exec .freqClear s = .next ({ s with freq := [] } : State).complete :=
  exec_run (by decide) (by decide) h rfl rfl

/-! ## BUILD where every count is 0 -/

/-- The leaf loop makes no node where every count is 0 (R121). -/
theorem Builder.leavesOf_n_eq_zero {s : State} (h : ∀ sym, s.freqAt sym = 0#32) : (Builder.leavesOf s).n = 0 := by
  refine Builder.leaves_induct (P := fun _ b => b.n = 0) rfl fun m b hm hb => ?_
  have hcount : s.freq.read m = 0#32 := by
    simpa [State.freqAt, Nat.mod_eq_of_lt hm] using h (BitVec.ofNat 8 m)
  rwa [Builder.leafTurn, if_pos hcount]

end Sys2Proof.Machine
end

section
/-! SUPPORT. What the control commands answer, and the port after SOFT_RESET (40_control.md R100 to R103). -/

namespace Sys2Proof.Safety

open Sys2Proof.Machine

/-! ## Reads after SOFT_RESET -/

/-- A read while idle shows nothing of the model's own fields (logs 1 and 2). -/
theorem idleRead_withOutside (s : State) (inputs : List Input) (reads : List Word) (draws : Nat) (t : Target) :
    (s.withOutside inputs reads draws).idleRead t = s.idleRead t := by
  cases t <;> rfl

/-- After SOFT_RESET no register but ID has a bit set, and no entry of the windows is live (R64, R101). -/
theorem idleRead_softReset (s : State) {t : Target} (h : t ≠ .id) : s.softReset.idleRead t = 0#32 := by
  have hblock : s.softReset.idleRead t = State.reset.softReset.idleRead t :=
    idleRead_withOutside State.reset.softReset s.inputs s.reads s.draws t
  rw [hblock]
  have hct : ∀ r : Fin 256, State.reset.softReset.rowCount.toNat ≤ r.val := fun _ => Nat.zero_le _
  have hnode : ∀ i : NodeIdx, State.reset.softReset.nodeCount.val ≤ i.val := fun _ => Nat.zero_le _
  cases t with
  | id => exact absurd rfl h
  | resPath j => exact BitVec.extractLsb'_zero
  | ctSym r => obtain ⟨hword, -, -⟩ := ctWords_stale (hct r); exact hword
  | ctLen r => obtain ⟨-, hword, -⟩ := ctWords_stale (hct r); exact hword
  | ctPath r j => obtain ⟨-, -, hword⟩ := ctWords_stale (hct r); exact hword j
  | nodeLink i => obtain ⟨hword, -, -⟩ := nodeWords_stale (hnode i); exact hword
  | nodeFreqLo i => obtain ⟨-, hword, -⟩ := nodeWords_stale (hnode i); exact hword
  | nodeFreqHi i => obtain ⟨-, -, hword⟩ := nodeWords_stale (hnode i); exact hword
  | freq sym => rfl
  | _ => decide

/-- ID stands at word 0 alone (R63). -/
theorem target_ne_id {a : WordAddr} (h : a ≠ 0#14) : target a ≠ .id := by
  intro ht
  have hoff : 4 * a.toNat = 0 := offset_of_target ht (by decide)
  exact h (BitVec.eq_of_toNat_eq (by simpa using hoff))

theorem readWord_softReset (s : State) {a : WordAddr} (h : a ≠ 0#14) : s.softReset.readWord a = 0#32 :=
  (State.readWord_idle rfl a).trans (idleRead_softReset s (target_ne_id h))

/-! ## The commands -/

/-- BUILD discards the tree and raises CONSTRUCTION where every count is 0 (R126). -/
theorem exec_build_of_no_count {s : State} (he : s.err = false) (h : ∀ sym, s.freqAt sym = 0#32) :
    exec .build s = .next (recorded s.discardTree 0x10#8 0#8 1#8) := by
  rcases buildTree_cases s with ⟨-, hb⟩ | ⟨hne, -⟩
  · rw [State.raise_construction (s := s.discardTree) he] at hb
    exact exec_run (i := .build) (by decide) (by decide) he rfl (congrArg Host.Outcome.next hb)
  · exact absurd (Builder.leavesOf_n_eq_zero h) hne

/-- Settles O25: SOFT_RESET's state is the one after reset with the job done, whose words are all 0 but ID's. -/
theorem softResetResetsEverything : Obligations.SoftResetResetsEverything := by
  refine ⟨decode_encode .softReset, fun s => ⟨s.softReset, exec_softReset s, ?_⟩, fun s w hp => ?_⟩
  · have hid : s.softReset.readWord 0#14 = 0x48554646#32 := readWord_id (target_addr .id)
    have hwords : ∀ a : WordAddr, a ≠ 0#14 → s.softReset.readWord a = 0#32 := fun a => readWord_softReset s
    simpa [State.reset, State.busy, State.freqAt] using And.intro hid hwords
  · exact hostWrite_dropped (by simp [State.busy, hp]) (.inl (target_addr .cmd)) w

/-- Settles O27: FREQ_CLEAR empties FREQ, so that a BUILD after it finds every count 0. -/
theorem freqClearClearsFreqAlone : Obligations.FreqClearClearsFreqAlone := by
  refine ⟨decode_encode .freqClear, fun s he => ⟨_, exec_freqClear he, fun _ => rfl, rfl, ?_⟩⟩
  exact exec_build_of_no_count he fun _ => rfl

/-- Settles O24: NOP's rule writes nothing, and no word of opcode 0 but NOP's own is a command. -/
theorem nopMovesNothing : Obligations.NopMovesNothing := by
  refine ⟨decode_encode .nop, exec_nop, fun w hop hne => ?_⟩
  have hdecode := decode_of_wordOp (i := .nop) hop
  have hreserved : reservedClear Instr.nop.format w ≠ true := fun hclear =>
    hne ((decodeAndEncodeAgree w .nop).1 (hdecode.trans (if_pos hclear)))
  exact hdecode.trans (if_neg hreserved)

/-- Settles O26: ERR_CLEAR is the return from an error with the handshake completed. -/
theorem errClearClearsTheError : Obligations.ErrClearClearsTheError :=
  ⟨decode_encode .errClear, exec_errClear⟩

end Sys2Proof.Safety
end

section
/-! SUPPORT. What BUILD's leaf loop makes, and what the merge loop leaves of it (41_tree_builder.md R120, R121, R125). -/

namespace Sys2Proof.Machine

namespace Builder

/-! ## The merge loop leaves the nodes made before -/

/-- The entry at the head of Q is of the node made last. -/
def HeadIsNewest (b : Builder) : Prop := ∀ e, b.queue.head? = some e → e.idx.val + 1 = b.n

theorem headIsNewest_push {b : Builder} (hn : b.n < 511) (node : Node) : (b.push node).HeadIsNewest := by
  intro e he
  obtain rfl := Option.some.inj he
  exact congrArg (· + 1) (ofNat_n_val hn)

theorem HeadIsNewest.mergeTurn {b : Builder} (hroom : b.Room) (hq : 1 < b.queue.length) : b.mergeTurn.HeadIsNewest := by
  obtain ⟨x, y, q1, q2, -, -, he⟩ := Builder.mergeTurn_spec hq
  exact he ▸ headIsNewest_push (hroom.n_lt_of_merge hq) _

/-- A merge turn writes the entry at the next free index alone (R124). -/
theorem mergeTurn_get {b : Builder} (hroom : b.Room) (hq : 1 < b.queue.length) {i : NodeIdx} (hi : i.val ≠ b.n) :
    b.mergeTurn.nodes[i] = b.nodes[i] := by
  obtain ⟨x, y, q1, q2, -, -, he⟩ := Builder.mergeTurn_spec hq
  rw [he]
  exact (push_get (b := { b with queue := q2 }) (hroom.n_lt_of_merge hq) _ i).trans (if_neg hi)

/-- What the merge loop, begun at b, keeps up to c: it writes no entry made before it, and none at the next free index or beyond. -/
structure MergedFrom (b c : Builder) : Prop where
  room : c.Room
  newest : c.HeadIsNewest
  grows : b.n ≤ c.n
  old : ∀ i : NodeIdx, i.val < b.n → c.nodes[i] = b.nodes[i]
  stale : ∀ i : NodeIdx, c.n ≤ i.val → c.nodes[i] = b.nodes[i]

theorem MergedFrom.mergeTurn {b c : Builder} (h : MergedFrom b c) (hq : 1 < c.queue.length) : MergedFrom b c.mergeTurn := by
  obtain ⟨-, hn⟩ := Builder.mergeTurn_length hq
  have hgrows := h.grows
  refine ⟨h.room.mergeTurn hq, HeadIsNewest.mergeTurn h.room hq, by omega, fun i hi => ?_, fun i hi => ?_⟩
  · rw [mergeTurn_get h.room hq (by omega), h.old i hi]
  · rw [mergeTurn_get h.room hq (by omega), h.stale i (by omega)]

theorem mergedFrom_merges {b : Builder} (hroom : b.Room) (hnew : b.HeadIsNewest) (fuel : Nat) : MergedFrom b (Builder.merges fuel b) :=
  merges_induct (fun _ hq h => h.mergeTurn hq) fuel ⟨hroom, hnew, Nat.le_refl _, fun _ _ => rfl, fun _ _ => rfl⟩

end Builder

end Sys2Proof.Machine

namespace Sys2Proof.Safety

open Sys2Proof.Machine

/-! ## The leaf loop makes the leaves of the counted symbols -/

/-- The symbols below m with a nonzero FREQ entry, ascending: those that the leaf loop has met after m turns (R121). -/
def usedBelow (s : State) (m : Nat) : List Byte := ((List.range m).map (BitVec.ofNat 8)).filter fun sym => s.freqAt sym != 0#32

theorem usedBelow_all (s : State) : usedBelow s 256 = usedSymbols s := rfl

theorem usedBelow_length_le (s : State) (m : Nat) : (usedBelow s m).length ≤ m := by
  simpa [usedBelow] using List.length_filter_le (fun sym => s.freqAt sym != 0#32) ((List.range m).map (BitVec.ofNat 8))

theorem usedBelow_succ (s : State) (m : Nat) :
    usedBelow s (m + 1) = usedBelow s m ++ if s.freqAt (BitVec.ofNat 8 m) = 0#32 then [] else [BitVec.ofNat 8 m] := by
  unfold usedBelow
  rw [List.range_succ, List.map_append, List.filter_append]
  by_cases h : s.freqAt (BitVec.ofNat 8 m) = 0#32 <;> simp [h]

theorem freqAt_ofNat (s : State) {m : Nat} (hm : m < 256) : s.freqAt (BitVec.ofNat 8 m) = s.freq.read m :=
  congrArg s.freq.read (Nat.mod_eq_of_lt hm)

/-- The leaf of a symbol, with its count as frequency (R121, R43). -/
def leafOf (s : State) (sym : Byte) : Node := { left := none, right := none, sym := some sym, nfreq := (s.freqAt sym).zeroExtend 40 }

theorem leafTurn_of_zero {s : State} {m : Nat} (hm : m < 256) (hz : s.freqAt (BitVec.ofNat 8 m) = 0#32) (b : Builder) :
    Builder.leafTurn s.freq b m = b :=
  if_pos ((freqAt_ofNat s hm).symm.trans hz)

theorem leafTurn_of_count {s : State} {m : Nat} (hm : m < 256) (hz : s.freqAt (BitVec.ofNat 8 m) ≠ 0#32) (b : Builder) :
    Builder.leafTurn s.freq b m = b.push (leafOf s (BitVec.ofNat 8 m)) := by
  rw [freqAt_ofNat s hm] at hz
  rw [Builder.leafTurn, if_neg hz, leafOf, freqAt_ofNat s hm]
  rfl

/-- What the leaf loop has made when the symbols of l are met: their leaves in order, and nothing beyond them (R121). -/
structure LeavesMade (s : State) (l : List Byte) (b : Builder) : Prop where
  count : b.n = l.length
  newest : b.HeadIsNewest
  leaves : ∀ (j : NodeIdx) (sym : Byte), l[j.val]? = some sym → b.nodes[j] = leafOf s sym
  stale : ∀ i : NodeIdx, l.length ≤ i.val → b.nodes[i] = s.nodes[i]

theorem LeavesMade.push {s : State} {l : List Byte} {b : Builder} (h : LeavesMade s l b) (hn : b.n < 511) (sym : Byte) :
    LeavesMade s (l ++ [sym]) (b.push (leafOf s sym)) where
  count := by rw [List.length_append, ← h.count]; rfl
  newest := Builder.headIsNewest_push hn _
  leaves j c hj := by
    have hcount := h.count
    rcases Nat.lt_trichotomy j.val l.length with hlt | heq | hgt
    · rw [List.getElem?_append_left hlt] at hj
      rw [Builder.push_get_old hn _ (by omega), h.leaves j c hj]
    · rw [heq, List.getElem?_concat_length] at hj
      obtain rfl := Option.some.inj hj
      rw [Builder.push_get hn, if_pos (by omega)]
    · rw [List.getElem?_eq_none (by simpa using hgt)] at hj
      cases hj
  stale i hi := by
    have hcount := h.count
    rw [List.length_append, List.length_singleton] at hi
    rw [Builder.push_get hn, if_neg (by omega), h.stale i (by omega)]

theorem leavesOf_made (s : State) : LeavesMade s (usedSymbols s) (Builder.leavesOf s) := by
  rw [← usedBelow_all]
  refine Builder.leaves_induct (P := fun m b => LeavesMade s (usedBelow s m) b) ⟨rfl, ?_, ?_, fun _ _ => rfl⟩ fun m b hm hb => ?_
  · exact fun e he => absurd he (by simp [Builder.start])
  · exact fun j sym hj => absurd hj (by simp [usedBelow])
  · rw [usedBelow_succ]
    by_cases hz : s.freqAt (BitVec.ofNat 8 m) = 0#32
    · rwa [leafTurn_of_zero hm hz, if_pos hz, List.append_nil]
    · have hle := usedBelow_length_le s m
      have hcount := hb.count
      rw [leafTurn_of_count hm hz, if_neg hz]
      exact hb.push (by omega) _

/-! ## The arena that BUILD leaves -/

theorem leavesOf_n (s : State) : (Builder.leavesOf s).n = (usedSymbols s).length := (leavesOf_made s).count

theorem builtOf_mergedFrom (s : State) : Builder.MergedFrom (Builder.leavesOf s) (Builder.builtOf s) :=
  Builder.mergedFrom_merges (Builder.leavesOf_room s) (leavesOf_made s).newest Config.syms

section

variable {s : State}

theorem leavesOf_n_ne_zero (h : usedSymbols s ≠ []) : (Builder.leavesOf s).n ≠ 0 := by
  rw [leavesOf_n]
  exact fun hz => h (List.eq_nil_of_length_eq_zero hz)

/-- BUILD of at least one symbol leaves the result of its two loops (R125). -/
theorem exec_build (he : s.err = false) (h : usedSymbols s ≠ []) : exec .build s = .next (Builder.result s).complete := by
  rcases buildTree_cases s with ⟨hz, -⟩ | ⟨-, hb⟩
  · exact absurd hz (leavesOf_n_ne_zero h)
  · exact exec_run (by decide) (by decide) he rfl (congrArg Host.Outcome.next hb)

theorem builtOf_n (h : usedSymbols s ≠ []) : (Builder.builtOf s).n + 1 = 2 * (usedSymbols s).length := by
  rw [← leavesOf_n]
  exact (Builder.builtOf_length (leavesOf_n_ne_zero h)).2

theorem usedSymbols_length_le (s : State) : (usedSymbols s).length ≤ 256 := usedBelow_all s ▸ usedBelow_length_le s 256

theorem result_nodeCount (h : usedSymbols s ≠ []) : (Builder.result s).nodeCount.val = (Builder.builtOf s).n := by
  have hn := builtOf_n h
  have hle := usedSymbols_length_le s
  exact Nat.mod_eq_of_lt (by omega)

theorem result_leafCount (s : State) : (Builder.result s).leafCount.toNat = (usedSymbols s).length := by
  have hle := usedSymbols_length_le s
  rw [← leavesOf_n] at hle ⊢
  exact Nat.mod_eq_of_lt (by omega)

/-- The root is the node made last (R125). -/
theorem result_root (h : usedSymbols s ≠ []) : (Builder.result s).root.val + 1 = (Builder.builtOf s).n := by
  obtain ⟨hone, -⟩ := Builder.builtOf_length (leavesOf_n_ne_zero h)
  obtain ⟨e, he⟩ := List.length_eq_one_iff.1 hone
  have hhead : (Builder.builtOf s).queue.head? = some e := by rw [he]; rfl
  have hroot : (Builder.result s).root = e.idx := by simp [Builder.result, hhead]
  rw [hroot]
  exact (builtOf_mergedFrom s).newest e hhead

/-- BUILD leaves the entries at NODE_COUNT and beyond (R120). -/
theorem builtOf_stale {i : NodeIdx} (hi : (Builder.builtOf s).n ≤ i.val) : (Builder.builtOf s).nodes[i] = s.nodes[i] := by
  have hgrows := (builtOf_mergedFrom s).grows
  rw [(builtOf_mergedFrom s).stale i hi, (leavesOf_made s).stale i (by rw [← leavesOf_n]; omega)]

/-- The leaf of the j-th counted symbol stands at index j (R121). -/
theorem builtOf_leaf {j : NodeIdx} (hj : j.val < (usedSymbols s).length) :
    (Builder.builtOf s).nodes[j] = leafOf s (usedSymbols s)[j.val] := by
  rw [(builtOf_mergedFrom s).old j (by rwa [leavesOf_n]), (leavesOf_made s).leaves j _ (List.getElem?_eq_getElem hj)]

end

/-! ## The obligations about the result -/

/-- Settles O31: no symbol is counted, so the leaf loop makes no leaf. -/
theorem buildOfNothingRaisesConstruction : Obligations.BuildOfNothingRaisesConstruction :=
  fun _ he hz => exec_build_of_no_count he hz

/-- Settles O28: k leaves are made, k - 1 merges follow, the last node made is the root, and the arena is then one full tree. -/
theorem buildMakesAValidTree : Obligations.BuildMakesAValidTree := by
  intro s he h
  have hn := builtOf_n h
  have hroot := result_root h
  obtain ⟨t, ht, hf⟩ := build_arenaHolds (leavesOf_n_ne_zero h)
  refine ⟨_, exec_build he h, result_leafCount s, ?_, ?_, (ht.validTree hf).classes, fun i hi => ?_, rfl⟩
  · rw [State.complete_nodeCount, result_nodeCount h, hn]
  · rw [State.complete_root, ← hn, ← hroot]
  · rw [State.complete_nodeCount, result_nodeCount h] at hi
    exact builtOf_stale hi

/-- Settles O29: the leaf loop makes the leaves in ascending order of their symbols, and the merge loop keeps them. -/
theorem buildMakesOneLeafPerUsedSymbol : Obligations.BuildMakesOneLeafPerUsedSymbol :=
  fun _ he h => ⟨_, exec_build he h, rfl, fun _ hj => builtOf_leaf hj⟩

end Sys2Proof.Safety
end

section
/-! SUPPORT. The merge loop joins the two entries that come first, Q being the nodes that are no node's child (41_tree_builder.md R122 to
R124). -/

namespace Sys2Proof.Safety

open Sys2Proof.Machine

/-! ## The order of extraction in an arena -/

/-- Node i is below n and no node below n has it as a child: OpenAt, for n = 511 as well. -/
def OpenBelow (s : State) (n : Nat) (i : NodeIdx) : Prop := i.val < n ∧ ∀ m : NodeIdx, m.val < n → ¬ IsChild s m i

theorem openAt_iff {s : State} {n i : NodeIdx} : OpenAt s n i ↔ OpenBelow s n.val i := Iff.rfl

/-- Nodes a and c are the first and the second that are extracted when node n is made (R123). -/
structure FirstTwo (s : State) (n a c : NodeIdx) : Prop where
  first_open : OpenAt s n a
  second_open : OpenAt s n c
  ne : a ≠ c
  first : ∀ i, OpenAt s n i → i ≠ a → TakenBefore s a i
  second : ∀ i, OpenAt s n i → i ≠ a → i ≠ c → TakenBefore s c i

/-- Node n joins the two nodes that come first when it is made, and its frequency is their sum without overflow (R124). -/
def Joins (s : State) (n : NodeIdx) : Prop :=
  ∃ a c : NodeIdx,
    s.nodes[n] = { left := some a, right := some c, sym := none, nfreq := s.nodes[a].nfreq + s.nodes[c].nfreq } ∧
    s.nodes[n].nfreq.toNat = s.nodes[a].nfreq.toNat + s.nodes[c].nfreq.toNat ∧ FirstTwo s n a c

section

variable {s u : State} {n : NodeIdx}

theorem OpenBelow.congr {k : Nat} {i : NodeIdx} (h : OpenBelow s k i) (hold : ∀ m : NodeIdx, m.val < k → u.nodes[m] = s.nodes[m]) :
    OpenBelow u k i := by
  refine ⟨h.1, fun m hm hc => h.2 m hm ?_⟩
  rwa [IsChild, hold m hm] at hc

/-- The order of extraction when node n is made is that of the nodes below it. -/
theorem FirstTwo.congr {a c : NodeIdx} (h : FirstTwo s n a c) (hold : ∀ m : NodeIdx, m.val < n.val → u.nodes[m] = s.nodes[m]) :
    FirstTwo u n a c := by
  have back : ∀ {i}, OpenAt u n i → OpenAt s n i := fun hi => OpenBelow.congr hi fun m hm => (hold m hm).symm
  have taken : ∀ {x i}, OpenAt s n x → OpenAt s n i → TakenBefore s x i → TakenBefore u x i := fun hx hi ht => by
    rwa [TakenBefore, hold _ hx.1, hold _ hi.1]
  exact ⟨OpenBelow.congr h.first_open hold, OpenBelow.congr h.second_open hold, h.ne,
    fun i hi ha => taken h.first_open (back hi) (h.first i (back hi) ha),
    fun i hi ha hc => taken h.second_open (back hi) (h.second i (back hi) ha hc)⟩

/-- What node n joins is said by the nodes up to it. -/
theorem Joins.congr (h : Joins s n) (hold : ∀ m : NodeIdx, m.val ≤ n.val → u.nodes[m] = s.nodes[m]) : Joins u n := by
  obtain ⟨a, c, hnode, hsum, htwo⟩ := h
  have ha := hold a (Nat.le_of_lt htwo.first_open.1)
  have hc := hold c (Nat.le_of_lt htwo.second_open.1)
  refine ⟨a, c, ?_, ?_, htwo.congr fun m hm => hold m (Nat.le_of_lt hm)⟩
  · rw [hold n (Nat.le_refl _), ha, hc, hnode]
  · rw [hold n (Nat.le_refl _), ha, hc, hsum]

end

/-- The state with another arena. -/
def withNodes (s : State) (nodes : Vector Node 511) : State := { s with nodes := nodes }

@[simp] theorem withNodes_nodes (s : State) (nodes : Vector Node 511) : (withNodes s nodes).nodes = nodes := rfl

/-! ## What Q is -/

/-- An entry's serial is its node's index, since both count the nodes made (R120). -/
structure Aged (b : Builder) : Prop where
  next : b.seq = b.n
  serial : ∀ e ∈ b.queue, e.seq = e.idx.val

theorem Aged.push {b : Builder} (h : Aged b) (hn : b.n < 511) (node : Node) : Aged (b.push node) where
  next := congrArg (· + 1) h.next
  serial := List.forall_mem_cons.2 ⟨h.next.trans (Builder.ofNat_n_val hn).symm, h.serial⟩

/-- Q holds, once each, the nodes made that are no child of a node made; and children are made before their parents. -/
structure QueueOpen (s : State) (b : Builder) : Prop where
  once : (b.queue.map QEntry.idx).Nodup
  mem_iff : ∀ i, i ∈ b.queue.map QEntry.idx ↔ OpenBelow (withNodes s b.nodes) b.n i
  children : ∀ m i : NodeIdx, m.val < b.n → IsChild (withNodes s b.nodes) m i → i.val < b.n

section

variable {s : State} {b : Builder} {node : Node} {m i : NodeIdx}

theorem isChild_push_new (hn : b.n < 511) (hm : m.val = b.n) :
    IsChild (withNodes s (b.push node).nodes) m i ↔ node.left = some i ∨ node.right = some i := by
  rw [IsChild, withNodes_nodes, Builder.push_get hn, if_pos hm]

theorem isChild_push_old (hn : b.n < 511) (hm : m.val < b.n) :
    IsChild (withNodes s (b.push node).nodes) m i ↔ IsChild (withNodes s b.nodes) m i := by
  rw [IsChild, IsChild, withNodes_nodes, withNodes_nodes, Builder.push_get_old hn node hm]

theorem openBelow_push (hn : b.n < 511) :
    OpenBelow (withNodes s (b.push node).nodes) (b.n + 1) i ↔
      i.val < b.n + 1 ∧ ¬ (node.left = some i ∨ node.right = some i) ∧
        ∀ m : NodeIdx, m.val < b.n → ¬ IsChild (withNodes s b.nodes) m i := by
  have hval : (Fin.ofNat 511 b.n).val = b.n := Builder.ofNat_n_val hn
  refine and_congr_right fun _ => ⟨fun h => ⟨fun hc => ?_, fun m hm hc => ?_⟩, fun ⟨hnew, hold⟩ m hm hc => ?_⟩
  · exact h (Fin.ofNat 511 b.n) (by omega) ((isChild_push_new hn hval).2 hc)
  · exact h m (by omega) ((isChild_push_old hn hm).2 hc)
  · rcases Nat.lt_succ_iff_lt_or_eq.1 hm with hlt | heq
    · exact hold m hlt ((isChild_push_old hn hlt).1 hc)
    · exact hnew ((isChild_push_new hn heq).1 hc)

end

/-- A node pushed once its children, `taken`, have left Q. -/
theorem QueueOpen.push {s : State} {b : Builder} (h : QueueOpen s b) (hn : b.n < 511) {q : List QEntry} {node : Node} {taken : List NodeIdx}
    (hq : (b.queue.map QEntry.idx).Perm (taken ++ q.map QEntry.idx))
    (htaken : ∀ i, i ∈ taken ↔ node.left = some i ∨ node.right = some i) :
    QueueOpen s ({ b with queue := q }.push node) := by
  have hval : (Fin.ofNat 511 b.n).val = b.n := Builder.ofNat_n_val hn
  obtain ⟨-, hqonce, hdisj⟩ := List.nodup_append'.1 (hq.nodup_iff.1 h.once)
  have hmem : ∀ i, i ∈ taken ∨ i ∈ q.map QEntry.idx ↔ OpenBelow (withNodes s b.nodes) b.n i := fun i =>
    List.mem_append.symm.trans (hq.mem_iff.symm.trans (h.mem_iff i))
  refine ⟨List.nodup_cons.2 ⟨fun hm => ?_, hqonce⟩, fun i => ?_, fun m i hm hc => ?_⟩
  · exact Nat.lt_irrefl _ (hval ▸ ((hmem _).1 (.inr hm)).1)
  · refine List.mem_cons.trans (Iff.trans ?_ (openBelow_push hn).symm)
    rw [← htaken]
    constructor
    · rintro (rfl | hi)
      · refine ⟨Nat.lt_succ_of_le (Nat.le_of_eq hval), fun ht => ?_, fun m hm hc => ?_⟩
        · exact Nat.lt_irrefl _ (hval ▸ ((hmem _).1 (.inl ht)).1)
        · exact Nat.lt_irrefl _ (hval ▸ h.children m _ hm hc)
      · obtain ⟨hlt, hopen⟩ := (hmem i).1 (.inr hi)
        exact ⟨Nat.lt_succ_of_lt hlt, fun ht => hdisj ht hi, hopen⟩
    · rintro ⟨hlt, hnot, hopen⟩
      rcases Nat.lt_succ_iff_lt_or_eq.1 hlt with hlt | heq
      · exact .inr (((hmem i).2 ⟨hlt, hopen⟩).resolve_left hnot)
      · exact .inl (Fin.ext (heq.trans hval.symm))
  · rcases Nat.lt_succ_iff_lt_or_eq.1 hm with hlt | heq
    · exact Nat.lt_succ_of_lt (h.children m i hlt ((isChild_push_old hn hlt).1 hc))
    · exact Nat.lt_succ_of_lt ((hmem i).1 (.inl ((htaken i).2 ((isChild_push_new hn heq).1 hc)))).1

/-- The frequencies in Q do not overflow NFREQ together (R43). -/
def FreqsFit (b : Builder) : Prop := (b.queue.map fun e => e.f.toNat).sum < 2 ^ 40

/-! ## A merge turn joins the first two -/

section

variable {s : State} {b : Builder} {x y : QEntry} {q1 q2 : List QEntry}

/-- The two extractions take two entries of Q (R122). -/
theorem extracted_perm (hx : extractMin b.queue = some (x, q1)) (hy : extractMin q1 = some (y, q2)) :
    b.queue.Perm (x :: y :: q2) := by
  obtain ⟨-, -, hxp⟩ := extractMin_spec hx
  obtain ⟨-, -, hyp⟩ := extractMin_spec hy
  exact hxp.trans (hyp.cons x)

/-- An entry that is not before another, of another node, stands for a node that is taken after the other's. -/
theorem takenBefore_of_not_before (hage : Aged b) (hsum : b.Sums) {e m : QEntry} (he : e ∈ b.queue) (hm : m ∈ b.queue)
    (hb : e.before m = false) (hne : e.idx ≠ m.idx) : TakenBefore (withNodes s b.nodes) m.idx e.idx := by
  have hnot : ¬ (e.f < m.f ∨ (e.f = m.f ∧ e.seq < m.seq)) := by rwa [← QEntry.before_iff, Bool.not_eq_true]
  have hval : e.idx.val ≠ m.idx.val := fun h => hne (Fin.ext h)
  rw [hage.serial e he, hage.serial m hm] at hnot
  rw [TakenBefore, withNodes_nodes, (hsum.queue e he).2, (hsum.queue m hm).2]
  simp only [BitVec.lt_def, ← BitVec.toNat_inj] at hnot ⊢
  omega

/-- The two entries extracted are those of the first two open nodes (R122, R123). -/
theorem firstTwo_of_extractMin (hopen : QueueOpen s b) (hage : Aged b) (hsum : b.Sums) (hx : extractMin b.queue = some (x, q1))
    (hy : extractMin q1 = some (y, q2)) {n : NodeIdx} (hn : n.val = b.n) :
    FirstTwo (withNodes s b.nodes) n x.idx y.idx := by
  obtain ⟨hxm, hxleast, hxp⟩ := extractMin_spec hx
  obtain ⟨hym, hyleast, -⟩ := extractMin_spec hy
  have hymem : y ∈ b.queue := hxp.mem_iff.2 (List.mem_cons_of_mem x hym)
  have hperm := (extracted_perm hx hy).map QEntry.idx
  obtain ⟨hxnot, -⟩ := List.nodup_cons.1 (hperm.nodup_iff.1 hopen.once)
  have openAt : ∀ i, OpenAt (withNodes s b.nodes) n i ↔ ∃ e ∈ b.queue, e.idx = i := fun i => by
    rw [openAt_iff, hn, ← hopen.mem_iff, List.mem_map]
  refine ⟨(openAt _).2 ⟨x, hxm, rfl⟩, (openAt _).2 ⟨y, hymem, rfl⟩, fun h => hxnot (by simp [h]), fun i hi hne => ?_,
    fun i hi hnx hny => ?_⟩
  · obtain ⟨e, he, rfl⟩ := (openAt i).1 hi
    exact takenBefore_of_not_before hage hsum he hxm (hxleast e he) hne
  · obtain ⟨e, he, rfl⟩ := (openAt i).1 hi
    have he1 : e ∈ q1 := (List.mem_cons.1 (hxp.mem_iff.1 he)).resolve_left fun h => hnx (congrArg QEntry.idx h)
    exact takenBefore_of_not_before hage hsum he hymem (hyleast e he1) hny

/-- The sum of the two frequencies extracted has no carry out of NFREQ (R43, R124). -/
theorem toNat_add_of_extractMin (hfit : FreqsFit b) (hx : extractMin b.queue = some (x, q1)) (hy : extractMin q1 = some (y, q2)) :
    (x.f + y.f).toNat = x.f.toNat + y.f.toNat := by
  have hsum := ((extracted_perm hx hy).map fun e => e.f.toNat).sum_eq
  rw [FreqsFit, hsum] at hfit
  simp only [List.map_cons, List.sum_cons] at hfit
  rw [BitVec.toNat_add, Nat.mod_eq_of_lt (by omega)]

end

/-! ## The two loops -/

/-- What the merge loop keeps: Q is as R122 says, and every node made since the leaf loop joins the first two of its turn. -/
structure Merging (s : State) (k : Nat) (b : Builder) : Prop where
  room : b.Room
  sums : b.Sums
  aged : Aged b
  queue : QueueOpen s b
  fit : FreqsFit b
  joins : ∀ n : NodeIdx, k ≤ n.val → n.val < b.n → Joins (withNodes s b.nodes) n

section

variable {s : State} {k : Nat} {b : Builder}

theorem Aged.mergeTurn (h : Aged b) (hn : b.n < 511) (hq : 1 < b.queue.length) : Aged b.mergeTurn := by
  obtain ⟨x, y, q1, q2, hx, hy, he⟩ := Builder.mergeTurn_spec hq
  have hsub : ∀ e ∈ q2, e ∈ b.queue := fun e hm => (extracted_perm hx hy).mem_iff.2 (by simp [hm])
  exact he ▸ Aged.push (b := { b with queue := q2 }) ⟨h.next, fun e hm => h.serial e (hsub e hm)⟩ hn _

theorem QueueOpen.mergeTurn (h : QueueOpen s b) (hn : b.n < 511) (hq : 1 < b.queue.length) : QueueOpen s b.mergeTurn := by
  obtain ⟨x, y, q1, q2, hx, hy, he⟩ := Builder.mergeTurn_spec hq
  exact he ▸ h.push hn (taken := [x.idx, y.idx]) ((extracted_perm hx hy).map QEntry.idx) (by simp [eq_comm])

/-- Two frequencies leave Q and their sum enters. -/
theorem FreqsFit.mergeTurn (h : FreqsFit b) (hq : 1 < b.queue.length) : FreqsFit b.mergeTurn := by
  obtain ⟨x, y, q1, q2, hx, hy, he⟩ := Builder.mergeTurn_spec hq
  have hadd := toNat_add_of_extractMin h hx hy
  rw [FreqsFit, ((extracted_perm hx hy).map fun e => e.f.toNat).sum_eq] at h
  rw [he, FreqsFit]
  simpa [hadd, Nat.add_assoc] using h

theorem Merging.joins_mergeTurn (h : Merging s k b) (hq : 1 < b.queue.length) {n : NodeIdx} (hn : n.val = b.n) :
    Joins (withNodes s b.mergeTurn.nodes) n := by
  obtain ⟨x, y, q1, q2, hx, hy, he⟩ := Builder.mergeTurn_spec hq
  have hmem : ∀ e ∈ [x, y], e ∈ b.queue := fun e hm => (extracted_perm hx hy).mem_iff.2 (List.mem_append_left q2 hm)
  have hold : ∀ m : NodeIdx, m.val < b.n → b.mergeTurn.nodes[m] = b.nodes[m] := fun m hm =>
    Builder.mergeTurn_get h.room hq (Nat.ne_of_lt hm)
  have hfreq : ∀ e ∈ b.queue, b.mergeTurn.nodes[e.idx].nfreq = e.f := fun e hm => by
    obtain ⟨hlt, hf⟩ := h.sums.queue e hm
    rw [hold _ hlt, hf]
  have hnode : b.mergeTurn.nodes[n] = { left := some x.idx, right := some y.idx, sym := none, nfreq := x.f + y.f } := by
    rw [he]
    exact (Builder.push_get (b := { b with queue := q2 }) (h.room.n_lt_of_merge hq) _ n).trans (if_pos hn)
  have htwo := firstTwo_of_extractMin h.queue h.aged h.sums hx hy hn
  refine ⟨x.idx, y.idx, ?_, ?_, htwo.congr fun m hm => hold m (hn ▸ hm)⟩
  · rw [withNodes_nodes, hfreq x (hmem x (by simp)), hfreq y (hmem y (by simp)), hnode]
  · rw [withNodes_nodes, hfreq x (hmem x (by simp)), hfreq y (hmem y (by simp)), hnode, toNat_add_of_extractMin h.fit hx hy]

theorem Merging.mergeTurn (h : Merging s k b) (hq : 1 < b.queue.length) : Merging s k b.mergeTurn := by
  have hn := h.room.n_lt_of_merge hq
  refine ⟨h.room.mergeTurn hq, h.sums.mergeTurn h.room hq, h.aged.mergeTurn hn hq, h.queue.mergeTurn hn hq, h.fit.mergeTurn hq,
    fun n hk hlt => ?_⟩
  rw [(Builder.mergeTurn_length hq).2] at hlt
  rcases Nat.lt_succ_iff_lt_or_eq.1 hlt with hlt | heq
  · exact (h.joins n hk hlt).congr fun m hm => Builder.mergeTurn_get h.room hq (by omega)
  · exact h.joins_mergeTurn hq heq

end

/-- Q after the leaf loop has met m symbols, whose counts have 32 bits each (R121). -/
structure LeavesQueued (s : State) (m : Nat) (b : Builder) : Prop where
  few : b.n ≤ m
  aged : Aged b
  queue : QueueOpen s b
  freqs : (b.queue.map fun e => e.f.toNat).sum ≤ m * (2 ^ 32 - 1)

theorem LeavesQueued.push {s : State} {m : Nat} {b : Builder} (h : LeavesQueued s m b) (hm : m < 256) (sym : Byte) :
    LeavesQueued s (m + 1) (b.push (leafOf s sym)) := by
  have hfew := h.few
  have hn : b.n < 511 := by omega
  refine ⟨Nat.succ_le_succ hfew, h.aged.push hn _, h.queue.push hn (taken := []) (.refl _) (by simp [leafOf]), ?_⟩
  have hcount : (leafOf s sym).nfreq.toNat < 2 ^ 32 := by
    rw [leafOf, BitVec.toNat_setWidth]
    exact Nat.lt_of_le_of_lt (Nat.mod_le _ _) (s.freqAt sym).isLt
  have hfreqs := h.freqs
  simp only [Builder.push_queue, List.map_cons, List.sum_cons]
  omega

theorem leavesOf_queued (s : State) : LeavesQueued s 256 (Builder.leavesOf s) := by
  refine Builder.leaves_induct (P := LeavesQueued s) ⟨Nat.le_refl 0, ?_, ?_, Nat.zero_le _⟩ fun m b hm hb => ?_
  · exact ⟨rfl, fun e he => absurd he List.not_mem_nil⟩
  · exact ⟨List.nodup_nil, fun i => ⟨fun hi => absurd hi List.not_mem_nil, fun hi => absurd hi.1 (Nat.not_lt_zero _)⟩,
      fun m _ hm => absurd hm (Nat.not_lt_zero _)⟩
  · by_cases hz : s.freqAt (BitVec.ofNat 8 m) = 0#32
    · rw [leafTurn_of_zero hm hz]
      exact ⟨Nat.le_succ_of_le hb.few, hb.aged, hb.queue, hb.freqs.trans (Nat.mul_le_mul_right _ (Nat.le_succ m))⟩
    · rw [leafTurn_of_count hm hz]
      exact hb.push hm _

theorem builtOf_merging (s : State) : Merging s (usedSymbols s).length (Builder.builtOf s) := by
  have hq := leavesOf_queued s
  refine Builder.merges_induct (fun _ hlen h => h.mergeTurn hlen) Config.syms
    ⟨Builder.leavesOf_room s, Builder.leavesOf_sums s, hq.aged, hq.queue, Nat.lt_of_le_of_lt hq.freqs (by decide), fun n hk hlt => ?_⟩
  rw [leavesOf_n] at hlt
  exact absurd hlt (Nat.not_lt_of_le hk)

/-- Settles O30: each turn of the merge loop joins the two least entries of Q, which are the nodes without a parent, each with its
frequency and its index as serial; what a node joins stays as the nodes up to it are. -/
theorem buildMergesTheTwoLeastEntries : Obligations.BuildMergesTheTwoLeastEntries := by
  intro s he h
  refine ⟨_, exec_build he h, fun n hk hlt => ?_⟩
  rw [State.complete_nodeCount, result_nodeCount h] at hlt
  obtain ⟨a, c, hnode, hsum, htwo⟩ := ((builtOf_merging s).joins n hk hlt).congr (u := (Builder.result s).complete) fun _ _ => rfl
  exact ⟨a, c, hnode, hsum, htwo.first_open, htwo.second_open, htwo.ne, htwo.first, htwo.second⟩

end Sys2Proof.Safety
end

section
/-! SUPPORT. The one-leaf tree, and the rows of a valid code table (41_tree_builder.md R127, R128). -/

namespace Sys2Proof.Safety

open Sys2Proof.Machine

/-! ## A tree whose root is a leaf -/

/-- SERIALIZE's walk of a leaf gives its one row, at the path that leads to it (R140). -/
theorem visit_leaf {nodes : Vector Node 511} {i : NodeIdx} (hl : nodes[i].left = none) (hr : nodes[i].right = none) (room : Nat)
    (p : List Bool) : visit nodes room i p = some [Row.ofPath (nodes[i].sym.getD 0#8) p] := by
  cases room <;> simp [-Fin.getElem_fin, visit, hl, hr]

/-- The state that SERIALIZE leaves where it makes one row. -/
def withOneRow (s : State) (r : Row) : State := { s with ct := writeRows [r] s.ct, rowCount := 1#9, ctValid := true }

theorem withOneRow_ct (s : State) (r : Row) : (withOneRow s r).ct[(0 : Fin 256)] = r := writeRows_get [r] s.ct 0

theorem withOneRow_liveRows (s : State) (r : Row) : (withOneRow s r).liveRows = [r] :=
  take_writeRows [r] s.ct (Nat.succ_le_succ (Nat.zero_le _))

section

variable {s : State}

/-- SERIALIZE of a tree whose root is a leaf makes the row of the empty path (R141). -/
theorem exec_serialize_leaf (he : s.err = false) (hs : s.treeState = .built) {n : Node} (hn : s.nodes[s.root] = n)
    (hl : n.left = none) (hr : n.right = none) {sym : Byte} (hsym : n.sym = some sym) :
    exec .serialize s = .next (withOneRow s (Row.ofPath sym [])).complete := by
  subst hn
  have hwalk : visit s.nodes Config.maxPath s.root [] = some [Row.ofPath sym []] := by rw [visit_leaf hl hr, hsym]; rfl
  have hrule := serializeTree_of_visit hwalk (Nat.succ_le_succ (Nat.zero_le _))
  exact exec_run (i := .serialize) (by decide) (by decide) he (by simp [allowed, hs, TreeState.valid]) hrule

/-- ENCODE of a symbol that has a row (R142). -/
theorem exec_encode_found {sym : Byte} {r : Row} (he : s.err = false) (hc : s.ctValid = true)
    (h : s.liveRows.find? (fun r => r.sym == sym) = some r) :
    exec (.encode sym) s = .next ({ s with resLen := r.len, resPath := r.path } : State).complete :=
  exec_run (i := .encode sym) (by simp) (by simp) he hc (congrArg Host.Outcome.next (encodeSymbol_found h))

theorem exec_decBegin (he : s.err = false) (hs : s.treeState.valid = true) : exec .decBegin s = .next (decBegin s).complete :=
  exec_run (i := .decBegin) (by decide) (by decide) he hs rfl

/-- DEC_BIT where the cursor's node has no child on the side of the bit (R192). -/
theorem exec_decBit_degenerate {b : Bool} (he : s.err = false) (hd : s.decState ≠ .idle) (hc : s.nodes[s.cursor.node].child b = none) :
    exec (.decBit b) s = .next (recorded { s with decState := .idle } 0x41#8 0#8 4#8) := by
  rcases decBit_cases b s with ⟨-, hb⟩ | ⟨j, hj, -⟩
  · rw [State.raise_degenerate (s := { s with decState := .idle }) he] at hb
    exact exec_run (i := .decBit b) (by simp) (by simp) he (by simpa [allowed] using hd) (congrArg Host.Outcome.next hb)
  · rw [hc] at hj
    cases hj

end

/-- SERIALIZE, ENCODE and a decode session where the root is the leaf of the symbol (R127). -/
theorem oneLeaf_commands {t : State} {sym : Byte} {n : Node} (he : t.err = false) (hs : t.treeState = .built)
    (hn : t.nodes[t.root] = n) (hl : n.left = none) (hr : n.right = none) (hsym : n.sym = some sym) :
    ∃ u, exec .serialize t = .next u ∧ u.rowCount = 1#9 ∧ u.ct[(0 : Fin 256)] = { sym := sym, len := 0#8, path := 0#256 } ∧
      (∃ v, exec (.encode sym) u = .next v ∧ v.err = false ∧ v.resLen = 0#8 ∧ v.resPath = 0#256) ∧
      ∃ d, exec .decBegin u = .next d ∧ ∀ b, exec (.decBit b) d = .next (recorded { d with decState := .idle } 0x41#8 0#8 4#8) := by
  have hrows : (withOneRow t (Row.ofPath sym [])).complete.liveRows = [Row.ofPath sym []] := withOneRow_liveRows t _
  have hfind : [Row.ofPath sym []].find? (fun r => r.sym == sym) = some (Row.ofPath sym []) := by simp [Row.ofPath]
  refine ⟨_, exec_serialize_leaf he hs hn hl hr hsym, rfl, withOneRow_ct t _,
    ⟨_, exec_encode_found he rfl (hrows ▸ hfind), he, rfl, rfl⟩,
    _, exec_decBegin he ((valid_iff _).2 (.inl hs)), fun b => exec_decBit_degenerate he (by simp [decBegin]) ?_⟩
  subst hn
  cases b
  · exact hl
  · exact hr

/-- Settles O32: the one node is the root and a leaf, so the walk gives the row of the empty path and no bit leads on. -/
theorem singleSymbolAlphabetIsDegenerate : Obligations.SingleSymbolAlphabetIsDegenerate := by
  intro s sym he hone
  have hne : usedSymbols s ≠ [] := by simp [hone]
  obtain ⟨t, ht, -, hcount, hroot, -, -, hframe⟩ := buildMakesAValidTree s he hne
  obtain ⟨t', ht', -, hleaves⟩ := buildMakesOneLeafPerUsedSymbol s he hne
  obtain rfl := Host.Outcome.next.inj (ht'.symm.trans ht)
  simp only [hone, List.length_singleton] at hcount hroot
  have herr : t'.err = false := by rw [hframe]; exact he
  have hbuilt : t'.treeState = .built := by rw [hframe]
  have hroot0 : t'.root = 0 := Fin.ext (by simpa using hroot)
  have hnode : t'.nodes[(0 : NodeIdx)] = leafOf s sym := by
    simpa [-Fin.getElem_fin, hone, leafOf] using hleaves 0 (by simp [hone])
  have hrootNode : t'.nodes[t'.root] = leafOf s sym := (congrArg (fun i : NodeIdx => t'.nodes[i]) hroot0).trans hnode
  exact ⟨t', ht, herr, hbuilt, hroot0, by omega, hnode, oneLeaf_commands herr hbuilt hrootNode rfl rfl rfl⟩

/-! ## The rows of a valid table -/

namespace Tree

/-- A row of a full tree is the path to one of its leaves, with the leaf's symbol (R140). -/
theorem exists_leaf_of_mem_rows {t : Tree} {p : List Bool} {r : Row} (h : r ∈ t.rows p) :
    ∃ q i l rt, t.sub q = .node i (some r.sym) l rt ∧ r = Row.ofPath r.sym (p ++ q) := by
  induction t generalizing p with
  | absent => simp [rows] at h
  | node i sym l rt ihl ihr =>
    cases sym with
    | some c =>
      obtain rfl := List.mem_singleton.1 h
      exact ⟨[], i, l, rt, rfl, by rw [List.append_nil]; rfl⟩
    | none =>
      rcases List.mem_append.1 h with hl | hr
      · obtain ⟨q, j, l', rt', hq, he⟩ := ihl hl
        exact ⟨false :: q, j, l', rt', hq, by simpa using he⟩
      · obtain ⟨q, j, l', rt', hq, he⟩ := ihr hr
        exact ⟨true :: q, j, l', rt', hq, by simpa using he⟩

/-- No path leads on from a leaf of a full tree (R128). -/
theorem eq_of_leaf_prefix {t : Tree} (hf : t.full = true) {p p' : List Bool} {i j : NodeIdx} {sym : Byte} {l r : Tree}
    (hp : t.sub p = .node i (some sym) l r) (hp' : (t.sub p').link = some j) (h : p <+: p') : p = p' := by
  obtain ⟨q, rfl⟩ := h
  have hfull := sub_full hf (p := p) (i := i) (by rw [hp]; rfl)
  rw [hp, full, Bool.and_eq_true, Option.isNone_iff_eq_none, Option.isNone_iff_eq_none, link_eq_none_iff, link_eq_none_iff] at hfull
  obtain ⟨rfl, rfl⟩ := hfull
  rw [sub_append, hp] at hp'
  cases q with
  | nil => rw [List.append_nil]
  | cons b q => simp at hp'

end Tree

theorem liveRows_getElem? {s : State} {r : Fin 256} (h : r.val < s.rowCount.toNat) : s.liveRows[r.val]? = some s.ct[r] := by
  rw [State.liveRows, List.getElem?_take_of_lt h]
  simp

/-- The row r of a table holds the path q and the symbol of a leaf of the tree. -/
structure RowOfLeaf (s : State) (t : Tree) (r : Fin 256) (q : List Bool) : Prop where
  leaf : ∃ i l rt, t.sub q = .node i (some s.ct[r].sym) l rt
  bits : s.ct[r].bits = q
  len : s.ct[r].len.toNat = q.length
  short : q.length ≤ 255

theorem ArenaHolds.rowOfLeaf {s : State} {t : Tree} (ht : ArenaHolds s t) (hrows : s.liveRows = t.rows []) {r : Fin 256}
    (hr : r.val < s.rowCount.toNat) : ∃ q, RowOfLeaf s t r q := by
  have hmem : s.ct[r] ∈ t.rows [] := hrows ▸ List.mem_of_getElem? (liveRows_getElem? hr)
  obtain ⟨q, i, l, rt, hq, he⟩ := Tree.exists_leaf_of_mem_rows hmem
  have hshort := ht.path_length (p := q) (i := i) (by rw [hq]; rfl)
  rw [List.nil_append] at he
  refine ⟨q, ⟨i, l, rt, hq⟩, ?_, ?_, hshort⟩
  · rw [he, Row.ofPath_bits _ _ (by omega)]
  · rw [he]
    exact Nat.mod_eq_of_lt (by omega)

/-- Two live rows with one symbol are one row (R141). -/
theorem ArenaHolds.row_eq_of_sym {s : State} {t : Tree} (ht : ArenaHolds s t) (hf : t.full = true) (hrows : s.liveRows = t.rows [])
    {r r' : Fin 256} (hr : r.val < s.rowCount.toNat) (hr' : r'.val < s.rowCount.toNat) (h : s.ct[r].sym = s.ct[r'].sym) : r = r' := by
  have hsyms : s.liveRows.map Row.sym = t.syms := by rw [hrows, Tree.rows_syms hf]
  have hget : ∀ k : Fin 256, k.val < s.rowCount.toNat → t.syms[k.val]? = some s.ct[k].sym := fun k hk => by
    rw [← hsyms, List.getElem?_map, liveRows_getElem? hk]
    rfl
  obtain ⟨hlt, -⟩ := List.getElem?_eq_some_iff.1 (hget r hr)
  exact Fin.ext ((List.getElem?_inj hlt ht.symbols).1 (by rw [hget r hr, hget r' hr', h]))

/-- Settles O35: the rows are the paths to the leaves of one full tree, and no path leads on from a leaf. -/
theorem codeTableIsPrefixFree : Obligations.CodeTableIsPrefixFree := by
  intro s hs hc
  obtain ⟨-, t, ht, hf, htable, -⟩ := hs.valid (hs.valid_of_ctValid hc)
  obtain ⟨-, hrows⟩ := htable hc
  refine ⟨fun r hr => ?_, fun r r' hr hr' hne hprefix => hne ?_⟩
  · obtain ⟨q, ⟨i, l, rt, hq⟩, hbits, hlen, hshort⟩ := ht.rowOfLeaf hrows hr
    have hlink : (t.sub q).link = some i := by rw [hq]; rfl
    obtain ⟨hsym, -⟩ := hq ▸ Tree.sub_inArena ht.entries q
    refine ⟨q, i, (ht.descend_eq q).trans hlink, ?_, hsym, hbits, hlen, hshort⟩
    rcases Tree.classes_of_full (Tree.sub_inArena ht.entries q) (Tree.sub_full hf hlink) hlink with ⟨hleaf, -⟩ | ⟨-, hnone⟩
    · exact hleaf
    · exact absurd (hnone.symm.trans hsym) (by simp)
  · obtain ⟨q, ⟨i, l, rt, hq⟩, hbits, -, -⟩ := ht.rowOfLeaf hrows hr
    obtain ⟨q', ⟨j, l', rt', hq'⟩, hbits', -, -⟩ := ht.rowOfLeaf hrows hr'
    rw [hbits, hbits'] at hprefix
    obtain rfl := Tree.eq_of_leaf_prefix hf hq (j := j) (by rw [hq']; rfl) hprefix
    have hsame := hq.symm.trans hq'
    obtain ⟨-, hsym, -⟩ := Tree.node.inj hsame
    exact ht.row_eq_of_sym hf hrows hr hr' (Option.some.inj hsym)

end Sys2Proof.Safety
end

section
/-! SUPPORT. The table that SERIALIZE writes and the row that ENCODE finds in it (42_serializer_encoder.md R140 to R142). -/

namespace Sys2Proof.Safety

open Sys2Proof.Machine

/-! ## Leaves and rows of a full tree -/

/-- Two rows' paths part at some node, the first row's to the left and the second row's to the right. -/
def BranchesLeft (r r' : Row) : Prop := ∃ p q q', r.bits = p ++ false :: q ∧ r'.bits = p ++ true :: q'

namespace Tree

/-- A node of a full tree with a symbol has no children (R42). -/
theorem absent_of_full_leaf {i : NodeIdx} {c : Byte} {l r : Tree} (h : (Tree.node i (some c) l r).full = true) :
    l = .absent ∧ r = .absent := by
  simpa only [full, Bool.and_eq_true, Option.isNone_iff_eq_none, link_eq_none_iff] using h

/-- A full tree has one symbol exactly where its root is a leaf (R127). -/
theorem syms_length_eq_one_iff {t : Tree} (hf : t.full = true) : t.syms.length = 1 ↔ ∃ i c, t = .node i (some c) .absent .absent := by
  refine ⟨fun hone => ?_, fun ⟨i, c, he⟩ => he ▸ rfl⟩
  cases t with
  | absent => cases hf
  | node i sym l r =>
    cases sym with
    | some c =>
      obtain ⟨rfl, rfl⟩ := absent_of_full_leaf hf
      exact ⟨i, c, rfl⟩
    | none =>
      have hindices := full_indices_length hf
      obtain ⟨a, b, hl, hr⟩ := links_of_full hf
      have hlpos := List.length_pos_of_mem (mem_indices_of_link hl)
      have hrpos := List.length_pos_of_mem (mem_indices_of_link hr)
      simp only [indices, List.length_cons, List.length_append] at hindices
      omega

/-- Every leaf of a full tree has its row (R141). -/
theorem mem_rows_of_leaf {t : Tree} (hf : t.full = true) {q : List Bool} {i : NodeIdx} {c : Byte} {l r : Tree}
    (hq : t.sub q = .node i (some c) l r) (p : List Bool) : Row.ofPath c (p ++ q) ∈ t.rows p := by
  induction q generalizing t p with
  | nil =>
    rw [sub_nil] at hq
    subst hq
    rw [List.append_nil]
    exact List.mem_singleton_self _
  | cons b q ih =>
    cases t with
    | absent => cases hf
    | node j sym tl tr =>
      rw [sub_node_cons] at hq
      cases sym with
      | some c' =>
        obtain ⟨rfl, rfl⟩ := absent_of_full_leaf hf
        simp at hq
      | none =>
        obtain ⟨hfl, hfr⟩ := Bool.and_eq_true_iff.1 hf
        rw [rows, List.append_cons p b q]
        cases b
        · exact List.mem_append_left _ (ih hfl hq _)
        · exact List.mem_append_right _ (ih hfr hq _)

/-- The path of a row leads through the root of its tree. -/
theorem bits_of_mem_rows {t : Tree} {p : List Bool} {r : Row} (hd : p.length + t.height ≤ 256) (h : r ∈ t.rows p) :
    ∃ q, r.bits = p ++ q := by
  obtain ⟨q, i, l, rt, hq, he⟩ := exists_leaf_of_mem_rows h
  have hlink : (t.sub q).link = some i := by rw [hq]; rfl
  have hshort := sub_height hlink
  have hpos := height_pos_of_link hlink
  refine ⟨q, ?_⟩
  rw [he, Row.ofPath_bits _ _ (by rw [List.length_append]; omega)]

/-- The rows stand in pre-order, left before right (R141 (c)). -/
theorem rows_pairwise_branchesLeft {t : Tree} {p : List Bool} (hd : p.length + t.height ≤ 256) : (t.rows p).Pairwise BranchesLeft := by
  induction t generalizing p with
  | absent => exact List.Pairwise.nil
  | node i sym l r ihl ihr =>
    cases sym with
    | some c => exact List.pairwise_singleton _ _
    | none =>
      have hdl : (p ++ [false]).length + l.height ≤ 256 := by simp only [height, List.length_append, List.length_singleton] at *; omega
      have hdr : (p ++ [true]).length + r.height ≤ 256 := by simp only [height, List.length_append, List.length_singleton] at *; omega
      refine List.pairwise_append.2 ⟨ihl hdl, ihr hdr, fun x hx y hy => ?_⟩
      obtain ⟨q, hq⟩ := bits_of_mem_rows hdl hx
      obtain ⟨q', hq'⟩ := bits_of_mem_rows hdr hy
      exact ⟨p, q, q', hq.trans (List.append_cons p false q).symm, hq'.trans (List.append_cons p true q').symm⟩

end Tree

/-! ## The live rows -/

theorem mem_liveRows_iff {s : State} {x : Row} : x ∈ s.liveRows ↔ ∃ r : Fin 256, r.val < s.rowCount.toNat ∧ s.ct[r] = x := by
  constructor
  · intro hx
    obtain ⟨k, hk, rfl⟩ := List.mem_take_iff_getElem.1 hx
    have hlt := lt_min_iff.1 hk
    exact ⟨⟨k, by simpa using hlt.2⟩, hlt.1, by simp⟩
  · rintro ⟨r, hr, rfl⟩
    exact List.mem_of_getElem? (liveRows_getElem? hr)

/-- The search for a symbol ends at its one row. -/
theorem find_liveRows {s : State} {r : Fin 256} (hr : r.val < s.rowCount.toNat)
    (hone : ∀ r' : Fin 256, r'.val < s.rowCount.toNat → s.ct[r'].sym = s.ct[r].sym → r' = r) :
    s.liveRows.find? (fun x => x.sym == s.ct[r].sym) = some s.ct[r] := by
  cases hfind : s.liveRows.find? fun x => x.sym == s.ct[r].sym with
  | none => exact absurd (beq_self_eq_true _) (List.find?_eq_none.1 hfind _ (mem_liveRows_iff.2 ⟨r, hr, rfl⟩))
  | some x =>
    obtain ⟨r', hr', rfl⟩ := mem_liveRows_iff.1 (List.mem_of_find?_eq_some hfind)
    have hsym := List.find?_some hfind
    rw [hone r' hr' (eq_of_beq hsym)]

theorem find_liveRows_eq_none {s : State} {sym : Byte} (h : ∀ r : Fin 256, r.val < s.rowCount.toNat → s.ct[r].sym ≠ sym) :
    s.liveRows.find? (fun x => x.sym == sym) = none := by
  refine List.find?_eq_none.2 fun x hx hsym => ?_
  obtain ⟨r, hr, rfl⟩ := mem_liveRows_iff.1 hx
  exact h r hr (eq_of_beq hsym)

/-! ## SERIALIZE -/

/-- The state that SERIALIZE's rule leaves where its walk gives these rows (R140). -/
def withRows (s : State) (rows : List Row) : State :=
  { s with ct := writeRows rows s.ct, rowCount := BitVec.ofNat 9 rows.length, ctValid := true }

theorem withRows_rowCount (s : State) {rows : List Row} (h : rows.length ≤ 256) : (withRows s rows).rowCount.toNat = rows.length :=
  Nat.mod_eq_of_lt (by omega)

theorem withRows_liveRows (s : State) {rows : List Row} (h : rows.length ≤ 256) : (withRows s rows).liveRows = rows := by
  rw [State.liveRows, withRows_rowCount s h]
  exact take_writeRows rows s.ct h

/-- Rows written again change nothing. -/
theorem writeRows_idem (rows : List Row) (ct : Vector Row 256) : writeRows rows (writeRows rows ct) = writeRows rows ct := by
  refine Vector.ext fun i hi => ?_
  have hagain := writeRows_get rows (writeRows rows ct) ⟨i, hi⟩
  have hfirst := writeRows_get rows ct ⟨i, hi⟩
  simp only [Fin.getElem_fin] at hagain hfirst
  rw [hagain, hfirst]
  cases rows[i]? <;> rfl

/-- SERIALIZE again leaves the state that the first SERIALIZE left. -/
theorem withRows_complete_idem (s : State) (rows : List Row) :
    (withRows (withRows s rows).complete rows).complete = (withRows s rows).complete := by
  have hct := writeRows_idem rows s.ct
  simp only [withRows, State.complete, hct]

section

variable {s : State} {u : Tree}

theorem ArenaHolds.withRows_complete (hu : ArenaHolds s u) (rows : List Row) : ArenaHolds (withRows s rows).complete u :=
  hu.congr rfl rfl rfl rfl

theorem ArenaHolds.rows_length_le (hu : ArenaHolds s u) (hf : u.full = true) : (u.rows []).length ≤ 256 :=
  (Tree.rows_length hf []).trans_le (length_le_of_nodup hu.symbols)

/-- SERIALIZE writes the rows of the tree in the arena (R140). -/
theorem ArenaHolds.exec_serialize (hu : ArenaHolds s u) (hf : u.full = true) (he : s.err = false)
    (hs : s.treeState = .built ∨ s.treeState = .loaded) : exec .serialize s = .next (withRows s (u.rows [])).complete := by
  have hwalk := Tree.visit_eq_rows hu.entries hu.root hf hu.depth []
  exact exec_run (i := .serialize) (by decide) (by decide) he ((valid_iff _).2 hs) (serializeTree_of_visit hwalk (hu.rows_length_le hf))

end

/-- What SERIALIZE leaves where the tree u is in the arena of s: its rows, in a state of the invariant. -/
structure Serialized (s : State) (u : Tree) (t : State) : Prop where
  arena : ArenaHolds s u
  full : u.full = true
  exec_eq : exec .serialize s = .next t
  state : t = (withRows s (u.rows [])).complete
  inv : Inv t
  count : t.rowCount.toNat = (u.rows []).length
  rows : t.liveRows = u.rows []

theorem Inv.exec_serialize {s : State} (h : Inv s) (he : s.err = false) (hs : s.treeState = .built ∨ s.treeState = .loaded) :
    ∃ u t, Serialized s u t := by
  obtain ⟨-, u, hu, hf, -, -⟩ := h.valid hs
  have hexec := hu.exec_serialize hf he hs
  have hlen := hu.rows_length_le hf
  exact ⟨u, _, hu, hf, hexec, rfl, inv_kept.exec h hexec, withRows_rowCount s hlen, withRows_liveRows s hlen⟩

section

variable {s t : State} {u : Tree}

/-- Every path to a leaf is the path of a row (R141 (a)). -/
theorem Serialized.exists_row (h : Serialized s u t) {p : List Bool} {i : NodeIdx} (hp : descend s.nodes s.root p = some i)
    (hleaf : s.nodes[i].isLeaf = true) : ∃ r : Fin 256, r.val < t.rowCount.toNat ∧ t.ct[r].bits = p := by
  rw [h.arena.descend_eq] at hp
  obtain ⟨sym, l, r, hnode⟩ := Tree.exists_node_of_link hp
  obtain ⟨hsym, -⟩ := hnode ▸ Tree.sub_inArena h.arena.entries p
  cases sym with
  | none => simp [-Fin.getElem_fin, Node.isLeaf, hsym] at hleaf
  | some c =>
    have hrow : Row.ofPath c p ∈ t.liveRows := h.rows ▸ Tree.mem_rows_of_leaf h.full hnode []
    obtain ⟨k, hk, hrowk⟩ := mem_liveRows_iff.1 hrow
    exact ⟨k, hk, by rw [hrowk, Row.ofPath_bits c p (Nat.lt_succ_of_le (h.arena.path_length hp))]⟩

/-- An earlier row branches left where a later one branches right (R141 (c)). -/
theorem Serialized.branchesLeft (h : Serialized s u t) {r r' : Fin 256} (hlt : r.val < r'.val) (hr' : r'.val < t.rowCount.toNat) :
    BranchesLeft t.ct[r] t.ct[r'] := by
  have hpairs : t.liveRows.Pairwise BranchesLeft := by
    rw [h.rows]
    exact Tree.rows_pairwise_branchesLeft ((Nat.zero_add _).trans_le h.arena.depth)
  obtain ⟨hk, hget⟩ := List.getElem?_eq_some_iff.1 (liveRows_getElem? (hlt.trans hr'))
  obtain ⟨hk', hget'⟩ := List.getElem?_eq_some_iff.1 (liveRows_getElem? hr')
  exact hget ▸ hget' ▸ List.pairwise_iff_getElem.1 hpairs _ _ hk hk' hlt

/-- SERIALIZE leaves the rows past the table as they were. -/
theorem Serialized.stale_row (h : Serialized s u t) {r : Fin 256} (hr : t.rowCount.toNat ≤ r.val) : t.ct[r] = s.ct[r] := by
  rw [h.count] at hr
  have hget := writeRows_get (u.rows []) s.ct r
  rw [List.getElem?_eq_none hr] at hget
  rw [h.state]
  exact hget

theorem Serialized.ctValid (h : Serialized s u t) : t.ctValid = true := by rw [h.state]; rfl

theorem Serialized.arena_after (h : Serialized s u t) : ArenaHolds t u := h.state ▸ h.arena.withRows_complete _

/-- A second SERIALIZE answers the state it finds (R141 (b)). -/
theorem Serialized.exec_again (h : Serialized s u t) (he : s.err = false) (hs : s.treeState = .built ∨ s.treeState = .loaded) :
    exec .serialize t = .next t := by
  have hagain : (withRows t (u.rows [])).complete = t := by rw [h.state, withRows_complete_idem]
  rw [h.arena_after.exec_serialize h.full (by rw [h.state]; exact he) (by rw [h.state]; exact hs), hagain]

/-- In a tree of two leaves or more no row has the empty path, which leads to the root (R141 (d)). -/
theorem Serialized.len_pos (h : Serialized s u t) (htwo : 2 ≤ s.leafCount.toNat) {r : Fin 256} (hr : r.val < t.rowCount.toNat) :
    1 ≤ t.ct[r].len.toNat := by
  obtain ⟨q, ⟨i, l, rt, hq⟩, -, hlen, -⟩ := h.arena_after.rowOfLeaf h.rows hr
  rw [hlen]
  refine List.length_pos_iff.2 fun hnil => ?_
  rw [hnil, Tree.sub_nil] at hq
  obtain ⟨rfl, rfl⟩ := Tree.absent_of_full_leaf (hq ▸ h.full)
  have hone := (Tree.syms_length_eq_one_iff h.full).2 ⟨i, _, hq⟩
  rw [h.arena.leaves, hone] at htwo
  omega

end

/-- Settles O33: the walk writes the rows of the tree in the arena, which are its leaves' in pre-order, and every such row is a leaf's. -/
theorem serializeWritesOneRowPerLeafInPreOrder : Obligations.SerializeWritesOneRowPerLeafInPreOrder := by
  intro s hinv he hs
  obtain ⟨u, t, h⟩ := hinv.exec_serialize he hs
  refine ⟨t, h.exec_eq, fun r hr => ⟨?_, h.inv.row_bits h.ctValid (mem_liveRows_iff.2 ⟨r, hr, rfl⟩)⟩, fun _ _ => h.exists_row,
    fun _ _ => h.branchesLeft, fun _ => h.stale_row, by rw [h.state]; rfl⟩
  obtain ⟨hleaves, -⟩ := codeTableIsPrefixFree t h.inv h.ctValid
  obtain ⟨p, i, hp, hleaf, hsym, hbits, -, -⟩ := hleaves r hr
  obtain rfl := h.state
  exact ⟨i, hbits ▸ hp, hleaf, hsym⟩

/-- Settles O34: the rows are the leaves' of one full tree whose symbols are distinct, and the tree is the same for a second walk. -/
theorem serializerGuarantees : Obligations.SerializerGuarantees := by
  intro s hinv he hs
  obtain ⟨u, t, h⟩ := hinv.exec_serialize he hs
  have hcount : t.rowCount = s.leafCount :=
    BitVec.eq_of_toNat_eq (by rw [h.count, Tree.rows_length h.full, h.arena.leaves])
  exact ⟨t, h.exec_eq, hcount, h.exec_again he hs, fun htwo _ hr => h.len_pos htwo hr,
    fun _ _ hr hr' => h.arena_after.row_eq_of_sym h.full h.rows hr hr'⟩

/-! ## ENCODE -/

/-- A command that the sequencing table refuses raises SEQUENCE and moves nothing else (R225, R226). -/
theorem exec_sequence {i : Instr} (hr : i ≠ .softReset) (hc : i ≠ .errClear) {s : State} (he : s.err = false)
    (ha : allowed i s = false) : exec i s = .next (recorded s i.opcode 0#8 5#8) := by
  rw [exec_eq_runCommand hr hc, runCommand_sequence _ he ha, State.raise_sequence he]
  rfl

/-- ENCODE of a symbol without a row (R142). -/
theorem exec_encode_absent {s : State} {sym : Byte} (he : s.err = false) (hc : s.ctValid = true)
    (h : s.liveRows.find? (fun r => r.sym == sym) = none) : exec (.encode sym) s = .next (recorded s 0x30#8 0#8 6#8) := by
  have hrule := (encodeSymbol_absent h).trans (State.raise_symbolAbsent he _)
  exact exec_run (i := .encode sym) (by simp) (by simp) he hc (congrArg Host.Outcome.next hrule)

/-- The table of a tree with one leaf is the row of the empty path (R127, R141). -/
theorem Inv.liveRows_of_one_leaf {s : State} (h : Inv s) (hc : s.ctValid = true) (hone : s.leafCount = 1#9) :
    ∃ c, s.nodes[s.root].sym = some c ∧ s.liveRows = [Row.ofPath c []] := by
  obtain ⟨-, u, hu, hf, htable, -⟩ := h.valid (h.valid_of_ctValid hc)
  obtain ⟨-, hrows⟩ := htable hc
  have hlen : u.syms.length = 1 := by rw [← hu.leaves, hone]; rfl
  obtain ⟨i, c, rfl⟩ := (Tree.syms_length_eq_one_iff hf).1 hlen
  obtain ⟨hsym, -⟩ := hu.entries
  have hroot : i = s.root := Option.some.inj hu.root
  exact ⟨c, hroot ▸ hsym, hrows⟩

/-- Settles O36: ENCODE's search ends at the one row of the symbol, or finds none; a degenerate tree's one row is empty. -/
theorem encodeReturnsTheSymbolsRow : Obligations.EncodeReturnsTheSymbolsRow := by
  refine ⟨fun sym => decode_encode (.encode sym), fun s sym he => ⟨fun hc => ?_, fun hc r hr hsym hone => ?_, fun hc habsent => ?_,
    fun hinv hc hleaf => ?_⟩⟩
  · exact exec_sequence (i := .encode sym) (by simp) (by simp) he hc
  · subst hsym
    exact ⟨_, exec_encode_found he hc (find_liveRows hr hone), rfl, fun _ => rfl, rfl⟩
  · exact exec_encode_absent he hc (find_liveRows_eq_none habsent)
  · obtain ⟨c, hroot, hrows⟩ := hinv.liveRows_of_one_leaf hc hleaf
    have hfind : s.liveRows.find? (fun r => r.sym == c) = some (Row.ofPath c []) := by simp [hrows, Row.ofPath]
    exact ⟨c, hroot, _, exec_encode_found he hc hfind, he, rfl, rfl⟩

end Sys2Proof.Safety
end

section
/-! SUPPORT. The loader's commands: SEQUENCE outside LOADING, each check of theirs in its order, and what they write (43_deserializer.md
R161 to R170). -/

namespace Sys2Proof.Safety

open Sys2Proof.Machine

/-! ## What the four commands of an open load share -/

/-- LOAD_SYM, LOAD_CHAR, LOAD_ROW_END and LOAD_END, the commands that need an open load (R227). -/
def LoadCommand (i : Instr) : Prop := ∃ c, i ∈ [Instr.loadSym, .loadChar c, .loadRowEnd, .loadEnd]

theorem loadCommand_loadSym : LoadCommand .loadSym := ⟨0#8, by simp⟩

theorem loadCommand_loadChar (c : Byte) : LoadCommand (.loadChar c) := ⟨c, by simp⟩

theorem loadCommand_loadRowEnd : LoadCommand .loadRowEnd := ⟨0#8, by simp⟩

theorem loadCommand_loadEnd : LoadCommand .loadEnd := ⟨0#8, by simp⟩

namespace LoadCommand

variable {i : Instr} {s u v : State}

theorem eq_cases (h : LoadCommand i) : i = .loadSym ∨ (∃ c, i = .loadChar c) ∨ i = .loadRowEnd ∨ i = .loadEnd := by
  obtain ⟨c, hc⟩ := h
  simp only [List.mem_cons, List.not_mem_nil, or_false] at hc
  exact hc.imp id (Or.imp (fun he => ⟨c, he⟩) id)

theorem ne_softReset (h : LoadCommand i) : i ≠ .softReset := by
  rcases h.eq_cases with rfl | ⟨c, rfl⟩ | rfl | rfl <;> simp

theorem ne_errClear (h : LoadCommand i) : i ≠ .errClear := by
  rcases h.eq_cases with rfl | ⟨c, rfl⟩ | rfl | rfl <;> simp

theorem allowed_eq (h : LoadCommand i) (s : State) : allowed i s = decide (s.treeState = .loading) := by
  rcases h.eq_cases with rfl | ⟨c, rfl⟩ | rfl | rfl <;> rfl

theorem exec_sequence (h : LoadCommand i) (he : s.err = false) (hs : s.treeState ≠ .loading) :
    exec i s = .next (recorded s i.opcode 0#8 5#8) :=
  Safety.exec_sequence h.ne_softReset h.ne_errClear he ((h.allowed_eq s).trans (decide_eq_false hs))

theorem exec_run (h : LoadCommand i) (he : s.err = false) (hs : s.treeState = .loading) (hr : commandRule i s = .next v) (hu : v = u) :
    exec i s = .next u.complete :=
  Machine.exec_run h.ne_softReset h.ne_errClear he ((h.allowed_eq s).trans (decide_eq_true hs)) (hu ▸ hr)

/-- A check that fails raises FORMAT with its subcode, which discards the tree (R225). -/
theorem exec_format (h : LoadCommand i) (he : s.err = false) (hs : s.treeState = .loading) {sub : FormatSub}
    (hr : commandRule i s = .next v) (hu : v = s.raise i.opcode (.format sub)) :
    exec i s = .next (recorded s.discardTree i.opcode sub.code 2#8) := by
  rw [h.exec_run he hs hr hu, State.raise_format he]
  rfl

/-- Each rule raises FORMAT, or it raises nothing. -/
theorem commandRule_eq (h : LoadCommand i) (s : State) :
    ∃ u, commandRule i s = .next u ∧ ((∃ sub, u = s.raise i.opcode (.format sub)) ∨ u.err = s.err) := by
  rcases h.eq_cases with rfl | ⟨c, rfl⟩ | rfl | rfl
  · exact ⟨_, rfl, (loadSym_cases s).imp_right fun ⟨_, _, _, _, hl⟩ => (congrArg State.err hl :)⟩
  · refine ⟨_, rfl, (loadChar_cases c s).imp_right fun ⟨_, _, _, _, _, _, hd, hl⟩ => ?_⟩
    rw [hl, State.descendOrMake_frame hd]
  · exact ⟨_, rfl, (loadRowEnd_cases s).imp_right fun ⟨_, _, _, _, hl⟩ => (congrArg State.err hl :)⟩
  · exact ⟨_, rfl, (loadEnd_cases s).imp_right fun ⟨_, _, _, hl⟩ => (congrArg State.err hl :)⟩

/-- A FORMAT error leaves the state of a discarded tree with the error recorded (R170). -/
theorem exec_format_inv {t : State} (h : LoadCommand i) (he : s.err = false) (ht : exec i s = .next t) (herr : t.err = true)
    (hcode : t.errReg.code = 2#8) : ∃ sub : FormatSub, t = recorded s.discardTree i.opcode sub.code 2#8 := by
  by_cases hs : s.treeState = .loading
  · obtain ⟨u, hu, ⟨sub, hraise⟩ | hue⟩ := h.commandRule_eq s
    · exact ⟨sub, Host.Outcome.next.inj (ht.symm.trans (h.exec_format he hs hu hraise))⟩
    · obtain rfl := Host.Outcome.next.inj (ht.symm.trans (h.exec_run he hs hu rfl))
      exact absurd (herr.symm.trans (hue.trans he)) (by decide)
  · obtain rfl := Host.Outcome.next.inj (ht.symm.trans (h.exec_sequence he hs))
    exact absurd (show (5#8 : Byte) = 2#8 from hcode) (by decide)

end LoadCommand

/-- Settles O44: a FORMAT error leaves TREE_STATE EMPTY, which ERR_CLEAR keeps, and outside LOADING the commands raise SEQUENCE. -/
theorem formatErrorsEndTheLoad : Obligations.FormatErrorsEndTheLoad := by
  intro i s t c hi he ht herr hcode
  obtain ⟨sub, rfl⟩ := LoadCommand.exec_format_inv ⟨c, hi⟩ he ht herr hcode
  refine ⟨rfl, rfl, rfl, _, exec_errClear _, fun j c' hj => LoadCommand.exec_sequence ⟨c', hj⟩ rfl ?_⟩
  exact (by decide : TreeState.empty ≠ .loading)

/-! ## LOAD_BEGIN and LOAD_SYM -/

theorem exec_loadBegin {s : State} (he : s.err = false) : exec .loadBegin s = .next (loadBegin s).complete :=
  exec_run (i := .loadBegin) (by decide) (by decide) he rfl rfl

/-- Settles O38: LOAD_BEGIN has no check to make. -/
theorem loadBeginOpensAnEmptyLoad : Obligations.LoadBeginOpensAnEmptyLoad := by
  refine ⟨decode_encode .loadBegin, fun s he => ⟨_, exec_loadBegin he, rfl, fun ho hi => ?_⟩⟩
  have hbusy : (loadBegin s).complete.busy = false := (State.busy_complete _).trans hi
  have herr : (loadBegin s).complete.err = false := he
  have hover : (loadBegin s).complete.overrun = false := ho
  rw [State.statusWord, hbusy, herr, hover]
  exact (by decide : 0#22 ++ DecState.idle.bits ++ 0#1 ++ bit false ++ TreeState.loading.bits ++ bit false ++ bit false ++ bit false ++
    bit false = 0x20#32)

/-- A live node has the symbol exactly where LOAD_SYM's search finds it. -/
theorem liveNodes_any_sym_iff {s : State} {sym : Byte} :
    s.liveNodes.any (fun n => n.sym == some sym) = true ↔ ∃ i : NodeIdx, i.val < s.nodeCount.val ∧ s.nodes[i].sym = some sym := by
  simp only [List.any_eq_true, beq_iff_eq, State.mem_liveNodes]
  exact ⟨fun ⟨_, ⟨i, hi, rfl⟩, hsym⟩ => ⟨i, hi, hsym⟩, fun ⟨i, hi, hsym⟩ => ⟨_, ⟨i, hi, rfl⟩, hsym⟩⟩

theorem dataSymbol_of_le {s : State} (h : s.data.toNat ≤ 255) : s.dataSymbol = some (s.data.extractLsb' 0 8) :=
  if_neg (Nat.not_lt.2 h)

/-- LOAD_SYM's rule on a new symbol (R162). -/
theorem loadSym_new {s : State} (ho : s.rowOpen = false) (hd : s.data.toNat ≤ 255)
    (hnew : ∀ i : NodeIdx, i.val < s.nodeCount.val → s.nodes[i].sym ≠ some (s.data.extractLsb' 0 8)) :
    loadSym s = { s with rowOpen := true, loadCur := ⟨s.data.extractLsb' 0 8, 0#8, s.root⟩ } := by
  have hany : ¬ s.liveNodes.any (fun n => n.sym == some (s.data.extractLsb' 0 8)) = true := fun h =>
    let ⟨i, hi, hsym⟩ := liveNodes_any_sym_iff.1 h
    hnew i hi hsym
  simp only [loadSym, ho, dataSymbol_of_le hd, if_neg hany, Bool.false_eq_true, if_false]

/-- Settles O39: the checks are made in their order, and then the row is opened. -/
theorem loadSymOpensARow : Obligations.LoadSymOpensARow := by
  refine ⟨decode_encode .loadSym, fun s he => ⟨loadCommand_loadSym.exec_sequence he, fun hs =>
    ⟨fun ho => ?_, fun ho hd => ?_, fun ho hd hsym => ?_, fun ho hd hnew => ?_⟩⟩⟩
  · refine loadCommand_loadSym.exec_format (sub := .incompleteRow) he hs rfl ?_
    simp only [loadSym, ho, if_true]
  · refine loadCommand_loadSym.exec_format (sub := .codepointRange) he hs rfl ?_
    simp only [loadSym, ho, (State.dataSymbol_eq_none_iff s).2 hd, Bool.false_eq_true, if_false]
  · refine loadCommand_loadSym.exec_format (sub := .duplicateSymbol) he hs rfl ?_
    simp only [loadSym, ho, dataSymbol_of_le hd, liveNodes_any_sym_iff.2 hsym, Bool.false_eq_true, if_false, if_true]
  · exact loadCommand_loadSym.exec_run he hs rfl (loadSym_new ho hd hnew)

/-! ## LOAD_CHAR -/

section

variable {s : State} {b : Bool}

/-- The byte of the descent b is its path character (R10). -/
theorem charBit_of_eq {c : Byte} (h : c = if b then 0x31#8 else 0x30#8) : charBit c = some b := by
  cases b
  · exact h ▸ charBit_char0
  · exact h ▸ charBit_char1

section

variable {c : Byte} {j : NodeIdx} {s' : State} (ho : s.rowOpen = true) (hc : charBit c = some b) (hlen : s.loadCur.len ≠ 255#8)
  (hsym : s.nodes[s.loadCur.node].sym = none)

include ho hc hlen hsym

/-- LOAD_CHAR's rule where the arena is full (R165). -/
theorem loadChar_full (hd : s.descendOrMake s.loadCur.node b = none) :
    loadChar c s = s.raise (Instr.loadChar c).opcode (.format .capacity) := by
  simp only [loadChar, ho, hc, hlen, hsym, hd, Option.isSome_none, Bool.not_true, Bool.false_eq_true, if_false]

/-- LOAD_CHAR's rule where the child is found or made (R163). -/
theorem loadChar_descends (hd : s.descendOrMake s.loadCur.node b = some (j, s')) :
    loadChar c s = { s' with loadCur := { s.loadCur with node := j, len := s.loadCur.len + 1#8 } } := by
  simp only [loadChar, ho, hc, hlen, hsym, hd, Option.isSome_none, Bool.not_true, Bool.false_eq_true, if_false]

end

theorem descendOrMake_of_child {i j : NodeIdx} (hc : s.nodes[i].child b = some j) : s.descendOrMake i b = some (j, s) := by
  simp only [State.descendOrMake, hc]

/-- Where there is room, descending answers a child (R165). -/
theorem exists_descendOrMake {i : NodeIdx} (hroom : s.nodeCount.val < 511) :
    ∃ j s', s.descendOrMake i b = some (j, s') := by
  cases hd : s.descendOrMake i b with
  | none => exact absurd ((State.descendOrMake_eq_none_iff s i b).1 hd).2 hroom.ne
  | some p => exact ⟨p.1, p.2, rfl⟩

end

/-- An open row stands at a live node (R45). -/
theorem Inv.loadCur_live {s : State} (h : Inv s) (hs : s.treeState = .loading) (ho : s.rowOpen = true) :
    s.loadCur.node.val < s.nodeCount.val := by
  obtain ⟨-, -, -, t, ht, -, hrow⟩ := h.loading hs
  obtain ⟨p, hp, -⟩ := hrow ho
  exact ht.live_of_path hp

/-- Settles O40: the checks are made in their order, and then the child is found or made. -/
theorem loadCharDescendsOrMakesAChild : Obligations.LoadCharDescendsOrMakesAChild := by
  refine ⟨fun c => decode_encode (.loadChar c), fun s c he => ⟨(loadCommand_loadChar c).exec_sequence he, fun hs ho => ?_, fun hs ho =>
    ⟨fun h0 h1 => ?_, fun b hb => ?_⟩, fun h => h.loadCur_live⟩⟩
  · refine (loadCommand_loadChar c).exec_format (sub := .incompleteRow) he hs rfl ?_
    simp only [loadChar, ho, Bool.not_false, if_true]
  · refine (loadCommand_loadChar c).exec_format (sub := .badChar) he hs rfl ?_
    simp only [loadChar, ho, charBit_other h0 h1, Bool.not_true, Bool.false_eq_true, if_false]
  have hc := charBit_of_eq hb
  refine ⟨fun hlen => ?_, fun hlen => ⟨fun hsym => ?_, fun hsym => ?_⟩⟩
  · refine (loadCommand_loadChar c).exec_format (sub := .pathTooLong) he hs rfl ?_
    simp only [loadChar, ho, hc, hlen, Bool.not_true, Bool.false_eq_true, if_false, if_true]
  · refine (loadCommand_loadChar c).exec_format (sub := .pathThroughLeaf) he hs rfl ?_
    simp only [loadChar, ho, hc, hlen, hsym, Bool.not_true, Bool.false_eq_true, if_false, if_true]
  refine ⟨fun j hj => ?_, fun hnone => ⟨fun hfull => ?_, fun j hj hlive => ?_⟩⟩
  · have hd := descendOrMake_of_child (b := b) hj
    exact (loadCommand_loadChar c).exec_run he hs rfl (loadChar_descends ho hc hlen hsym hd)
  · have hd := (State.descendOrMake_eq_none_iff s s.loadCur.node b).2 ⟨hnone, hfull⟩
    exact (loadCommand_loadChar c).exec_format (sub := .capacity) he hs rfl (loadChar_full ho hc hlen hsym hd)
  · obtain ⟨k, s', hd⟩ := exists_descendOrMake (b := b) (i := s.loadCur.node) (hj ▸ j.isLt)
    obtain ⟨hk, hcount, hnew, hlink, hold⟩ := descendOrMake_made hd hnone hlive
    obtain rfl : k = j := Fin.ext (hk.trans hj.symm)
    refine ⟨_, (loadCommand_loadChar c).exec_run he hs rfl (loadChar_descends ho hc hlen hsym hd), hcount, hnew, hlink,
      fun k' hkj hki => hold k' hki hkj, ?_⟩
    rw [State.descendOrMake_frame hd]
    rfl

/-! ## LOAD_ROW_END and LOAD_END -/

/-- LOAD_ROW_END's rule on a placeholder (R166). -/
theorem loadRowEnd_placeholder {s : State} (ho : s.rowOpen = true) (hsym : s.nodes[s.loadCur.node].sym = none)
    (hl : s.nodes[s.loadCur.node].left = none) (hr : s.nodes[s.loadCur.node].right = none) :
    loadRowEnd s = { s.setNode s.loadCur.node { s.nodes[s.loadCur.node] with sym := some s.loadCur.sym } with
      leafCount := s.leafCount + 1#9, rowOpen := false, loadCur := ⟨0#8, 0#8, 0⟩ } := by
  simp only [loadRowEnd, ho, hsym, hl, hr, Option.isSome_none, Bool.or_self, Bool.not_true, Bool.false_eq_true, if_false]

/-- Settles O41: the checks are made in their order, and then the node is labelled. -/
theorem loadRowEndLabelsTheNode : Obligations.LoadRowEndLabelsTheNode := by
  refine ⟨decode_encode .loadRowEnd, fun s he => ⟨loadCommand_loadRowEnd.exec_sequence he, fun hs ho => ?_, fun hs ho =>
    ⟨fun hsym => ?_, fun hsym => ⟨fun hchild => ?_, fun hl hr => ?_⟩⟩⟩⟩
  · refine loadCommand_loadRowEnd.exec_format (sub := .incompleteRow) he hs rfl ?_
    simp only [loadRowEnd, ho, Bool.not_false, if_true]
  · refine loadCommand_loadRowEnd.exec_format (sub := .duplicatePath) he hs rfl ?_
    simp only [loadRowEnd, ho, hsym, Bool.not_true, Bool.false_eq_true, if_false, if_true]
  · refine loadCommand_loadRowEnd.exec_format (sub := .assignToInternal) he hs rfl ?_
    simp only [loadRowEnd, ho, hsym, Bool.or_eq_true_iff.2 hchild, Option.isSome_none, Bool.not_true, Bool.false_eq_true, if_false, if_true]
  · refine ⟨_, loadCommand_loadRowEnd.exec_run he hs rfl (loadRowEnd_placeholder ho hsym hl hr), ?_, fun k hk => ?_, rfl⟩
    · exact State.setNode_get_same s _ _
    · exact State.setNode_get_other s hk.symm _

/-- LOAD_END's rule on a complete table (R168). -/
theorem loadEnd_complete {s : State} (ho : s.rowOpen = false) (hcount : s.leafCount ≠ 0#9)
    (h : ∀ i : NodeIdx, i.val < s.nodeCount.val → s.nodes[i].incomplete = false) :
    loadEnd s = { s with treeState := .loaded, loadCur := ⟨0#8, 0#8, 0⟩ } := by
  have hany : ¬ s.liveNodes.any Node.incomplete = true := fun hany => by
    obtain ⟨n, hn, hinc⟩ := List.any_eq_true.1 hany
    obtain ⟨i, hi, rfl⟩ := State.mem_liveNodes.1 hn
    exact Bool.false_ne_true ((h i hi).symm.trans hinc)
  simp only [loadEnd, ho, hcount, if_neg hany, Bool.false_eq_true, if_false]

theorem incomplete_iff (n : Node) : n.incomplete = true ↔ n.sym = none ∧ (n.left = none ∨ n.right = none) := by
  simp [Node.incomplete]

/-- Settles O42: the checks are made in their order, and a tree that passes them is full. -/
theorem loadEndAcceptsCompleteTreesOnly : Obligations.LoadEndAcceptsCompleteTreesOnly := by
  refine ⟨decode_encode .loadEnd, fun s he => ⟨loadCommand_loadEnd.exec_sequence he, fun hs =>
    ⟨fun ho => ?_, fun ho hc => ?_, fun ho hc hinc => ?_, fun ho hc hall => ?_⟩,
    fun h hs => ⟨(h.loading hs).1, fun t ht hst => ?_⟩⟩⟩
  · refine loadCommand_loadEnd.exec_format (sub := .incompleteRow) he hs rfl ?_
    simp only [loadEnd, ho, if_true]
  · refine loadCommand_loadEnd.exec_format (sub := .emptyTable) he hs rfl ?_
    simp only [loadEnd, ho, hc, Bool.false_eq_true, if_false, if_true]
  · obtain ⟨i, hi, hsym, hchild⟩ := hinc
    have hany : s.liveNodes.any Node.incomplete = true :=
      List.any_eq_true.2 ⟨_, State.mem_liveNodes.2 ⟨i, hi, rfl⟩, (incomplete_iff _).2 ⟨hsym, hchild⟩⟩
    refine loadCommand_loadEnd.exec_format (sub := .incompleteTree) he hs rfl ?_
    simp only [loadEnd, ho, hc, hany, Bool.false_eq_true, if_false, if_true]
  · refine loadCommand_loadEnd.exec_run he hs rfl (loadEnd_complete ho hc fun i hi => Bool.eq_false_iff.2 fun hinc => ?_)
    obtain ⟨hnone, hchild⟩ := (incomplete_iff _).1 hinc
    simpa [-Fin.getElem_fin, hnone, Option.isSome_iff_ne_none, ← not_or, hchild] using hall i hi
  · exact ((inv_kept.exec h ht).specR45.item6 (.inr hst)).classes

/-! ## No node has both a symbol and a child -/

/-- A labelled node of the tree has no child (R164, R167). -/
theorem ArenaHolds.no_child_of_sym {s : State} {t : Tree} (h : ArenaHolds s t) (hl : t.labelled = true) {i : NodeIdx}
    (hi : i.val < s.nodeCount.val) (hsym : s.nodes[i].sym ≠ none) : s.nodes[i].left = none ∧ s.nodes[i].right = none := by
  obtain ⟨p, hp⟩ := h.exists_path hi
  obtain ⟨sym, l, r, hsub⟩ := Tree.exists_node_of_link hp
  obtain ⟨hs, hleft, hright, -, -⟩ := hsub ▸ Tree.sub_inArena h.entries p
  have hlab := hsub ▸ Tree.sub_labelled hl p
  cases sym with
  | none => exact absurd hs hsym
  | some c =>
    simp only [Tree.labelled, Bool.and_eq_true, Option.isNone_iff_eq_none] at hlab
    exact ⟨hleft.trans hlab.1, hright.trans hlab.2⟩

/-- Settles O43: in each tree state the arena holds a labelled tree, or there is no live node. -/
theorem noNodeHasBothSymbolAndChild : Obligations.NoNodeHasBothSymbolAndChild := by
  intro s h i hi hsym
  rcases treeState_cases s.treeState with hs | hs | hs
  · obtain ⟨hcount, -⟩ := h.empty hs
    rw [hcount] at hi
    exact absurd hi (Nat.not_lt_zero _)
  · obtain ⟨-, -, -, t, ht, hl, -⟩ := h.loading hs
    exact ht.no_child_of_sym hl hi hsym
  · obtain ⟨-, t, ht, hf, -⟩ := h.valid hs
    exact ht.no_child_of_sym (Tree.full_labelled hf) hi hsym

end Sys2Proof.Safety
end

section
/-! SUPPORT. A tree within another: the tree that a load has made so far, beside the tree whose rows are loaded (43_deserializer.md R165,
R169). -/

namespace Sys2Proof.Safety

open Sys2Proof.Machine

namespace Tree

/-- Every node of the first tree stands where the second has a node, with that node's symbol or with none yet. -/
def Within : Tree → Tree → Prop
  | .absent, _ => True
  | .node _ _ _ _, .absent => False
  | .node _ sym l r, .node _ sym' l' r' => (sym = none ∨ sym = sym') ∧ l.Within l' ∧ r.Within r'

variable {x t : Tree}

theorem within_absent_iff : x.Within .absent ↔ x = .absent := by
  cases x <;> simp [Within]

theorem sub_within (h : x.Within t) (p : List Bool) : (x.sub p).Within (t.sub p) := by
  induction p generalizing x t with
  | nil => simpa using h
  | cons b p ih =>
    cases x with
    | absent => rw [sub_absent]; trivial
    | node i sym l r =>
      cases t with
      | absent => cases h
      | node j sym' l' r' =>
        obtain ⟨-, hl, hr⟩ := h
        rw [sub_node_cons, sub_node_cons]
        cases b
        · exact ih hl
        · exact ih hr

/-- It is enough to look at the nodes that the paths lead to. -/
theorem within_of_paths (h : ∀ p i sym l r, x.sub p = .node i sym l r →
    ∃ j sym' l' r', t.sub p = .node j sym' l' r' ∧ (sym = none ∨ sym = sym')) : x.Within t := by
  induction x generalizing t with
  | absent => trivial
  | node i sym l r ihl ihr =>
    obtain ⟨j, sym', l', r', ht, hsym⟩ := h [] i sym l r (sub_nil _)
    rw [sub_nil] at ht
    subst ht
    exact ⟨hsym, ihl fun p k c a d hp => by simpa using h (false :: p) k c a d (by simpa using hp),
      ihr fun p k c a d hp => by simpa using h (true :: p) k c a d (by simpa using hp)⟩

/-- Induction over a tree within a full one: it is missing, it is a leaf or still a placeholder for one, or it is internal alike. -/
theorem within_full_induct {P : Tree → Tree → Prop} (absent : ∀ t : Tree, t.full = true → P .absent t)
    (leaf : ∀ i j c sym, sym = none ∨ sym = some c → P (.node i sym .absent .absent) (.node j (some c) .absent .absent))
    (internal : ∀ i j l r l' r', P l l' → P r r' → P (.node i none l r) (.node j none l' r')) (h : x.Within t) (hf : t.full = true) :
    P x t := by
  induction x generalizing t with
  | absent => exact absent t hf
  | node i sym l r ihl ihr =>
    cases t with
    | absent => cases h
    | node j sym' l' r' =>
      obtain ⟨hsym, hl, hr⟩ := h
      cases sym' with
      | some c =>
        obtain ⟨rfl, rfl⟩ := absent_of_full_leaf hf
        rw [within_absent_iff] at hl hr
        subst hl hr
        exact leaf i j c sym hsym
      | none =>
        obtain rfl : sym = none := hsym.elim id id
        obtain ⟨hfl, hfr⟩ := Bool.and_eq_true_iff.1 hf
        exact internal i j l r l' r' (ihl hl hfl) (ihr hr hfr)

/-- A tree within a full one labels no node with a child. -/
theorem labelled_of_within (h : x.Within t) (hf : t.full = true) : x.labelled = true := by
  refine within_full_induct (P := fun x _ => x.labelled = true) (fun _ _ => rfl) (fun _ _ _ sym _ => ?_) (fun _ _ _ _ _ _ hl hr => ?_) h hf
  · cases sym <;> rfl
  · exact Bool.and_eq_true_iff.2 ⟨hl, hr⟩

theorem indices_length_le_of_within (h : x.Within t) : x.indices.length ≤ t.indices.length := by
  induction x generalizing t with
  | absent => exact Nat.zero_le _
  | node i sym l r ihl ihr =>
    cases t with
    | absent => cases h
    | node j sym' l' r' =>
      obtain ⟨-, hl, hr⟩ := h
      have := ihl hl
      have := ihr hr
      simp only [indices, List.length_cons, List.length_append]
      omega

/-- A node that is still missing leaves the tree within smaller (R165). -/
theorem indices_length_lt_of_within (h : x.Within t) {p : List Bool} (hx : x.sub p = .absent) (ht : t.sub p ≠ .absent) :
    x.indices.length < t.indices.length := by
  induction p generalizing x t with
  | nil =>
    rw [sub_nil] at hx ht
    subst hx
    cases t with
    | absent => exact absurd rfl ht
    | node j sym' l' r' => simp [indices]
  | cons b p ih =>
    cases t with
    | absent => exact absurd (sub_absent _) ht
    | node j sym' l' r' =>
      cases x with
      | absent => simp [indices]
      | node i sym l r =>
        obtain ⟨-, hl, hr⟩ := h
        rw [sub_node_cons] at hx ht
        have hlle := indices_length_le_of_within hl
        have hrle := indices_length_le_of_within hr
        simp only [indices, List.length_cons, List.length_append]
        cases b
        · have := ih hl hx ht
          omega
        · have := ih hr hx ht
          omega

/-- What a tree has within the full tree t: no more symbols, and with as many of them t's shape, and so t's rows. -/
def RowsWithin (x t : Tree) : Prop :=
  x.syms.length ≤ t.syms.length ∧ (t.syms.length ≤ x.syms.length → x.full = true ∧ ∀ p, x.rows p = t.rows p)

theorem rowsWithin_of_within (h : x.Within t) (hf : t.full = true) : x.RowsWithin t := by
  refine within_full_induct (P := RowsWithin) (fun t hf => ?_) (fun i j c sym hsym => ?_) (fun i j l r l' r' hl hr => ?_) h hf
  · refine ⟨Nat.zero_le _, fun hlen => ?_⟩
    have hnil : t.height ≤ 0 := (height_le_of_full hf).trans hlen
    cases t with
    | absent => cases hf
    | node _ _ _ _ => simp [height] at hnil
  · rcases hsym with rfl | rfl
    · exact ⟨Nat.zero_le _, fun hlen => by simp [syms] at hlen⟩
    · exact ⟨le_rfl, fun _ => ⟨rfl, fun _ => rfl⟩⟩
  · obtain ⟨hlle, hleq⟩ := hl
    obtain ⟨hrle, hreq⟩ := hr
    simp only [RowsWithin, syms, Option.toList_none, List.nil_append, List.length_append]
    refine ⟨Nat.add_le_add hlle hrle, fun hlen => ?_⟩
    obtain ⟨hlfull, hlrows⟩ := hleq (by omega)
    obtain ⟨hrfull, hrrows⟩ := hreq (by omega)
    exact ⟨Bool.and_eq_true_iff.2 ⟨hlfull, hrfull⟩, fun p => by rw [rows, rows, hlrows, hrrows]⟩

end Tree

end Sys2Proof.Safety
end

section
/-! SUPPORT. A load of the rows of a full tree, command by command: the arena holds a tree within that tree (43_deserializer.md R161 to
R169). -/

namespace Sys2Proof.Safety

open Sys2Proof.Machine

/-! ## An arena that has grown -/

/-- The live nodes of s have kept their children in s', and ROOT is the same. -/
structure Grown (s s' : State) : Prop where
  root : s'.root = s.root
  child : ∀ (k : NodeIdx) (b : Bool) (m : NodeIdx), k.val < s.nodeCount.val → s.nodes[k].child b = some m →
    s'.nodes[k].child b = some m

section

variable {s s' : State} {x x' t : Tree}

/-- A path leads to the node it led to before. -/
theorem Grown.path (h : Grown s s') (hx : ArenaHolds s x) (hx' : ArenaHolds s' x') {p : List Bool} {k : NodeIdx}
    (hp : (x.sub p).link = some k) : (x'.sub p).link = some k := by
  induction p using List.reverseRecOn generalizing k with
  | nil => rw [hx'.root_path, h.root, ← hx.root_path, hp]
  | append_singleton p b ih =>
    cases hm : (x.sub p).link with
    | none =>
      rw [Tree.sub_append, (Tree.link_eq_none_iff _).1 hm] at hp
      simp at hp
    | some m =>
      rw [Tree.sub_concat_link hx.entries hm] at hp
      rw [Tree.sub_concat_link hx'.entries (ih hm)]
      exact h.child m b k (hx.live_of_path hm) hp

/-- A grown tree stays within t where each node has kept its symbol or is as t has it. -/
theorem Grown.within (h : Grown s s') (hx : ArenaHolds s x) (hx' : ArenaHolds s' x') (hin : x.Within t)
    (hsym : ∀ p k, (x'.sub p).link = some k → (k.val < s.nodeCount.val ∧ s'.nodes[k].sym = s.nodes[k].sym) ∨
      ∃ j sym l r, t.sub p = .node j sym l r ∧ (s'.nodes[k].sym = none ∨ s'.nodes[k].sym = sym)) : x'.Within t := by
  refine Tree.within_of_paths fun p k sym l r hp => ?_
  have hlink : (x'.sub p).link = some k := by rw [hp]; rfl
  obtain ⟨hk', -⟩ := hp ▸ Tree.sub_inArena hx'.entries p
  rw [← hk']
  rcases hsym p k hlink with ⟨hlive, hsame⟩ | hnew
  · obtain ⟨q, hq⟩ := hx.exists_path hlive
    obtain rfl := Tree.path_unique hx'.once hlink (h.path hx hx' hq)
    obtain ⟨symx, lx, rx, hqx⟩ := Tree.exists_node_of_link hq
    obtain ⟨hk, -⟩ := hqx ▸ Tree.sub_inArena hx.entries p
    have hsub := hqx ▸ Tree.sub_within hin p
    cases ht : t.sub p with
    | absent => rw [ht] at hsub; cases hsub
    | node j symt lt rt =>
      rw [ht] at hsub
      obtain ⟨hs, -⟩ := hsub
      exact ⟨j, symt, lt, rt, rfl, by rwa [hsame, hk]⟩
  · exact hnew

end

/-- What descending does to the nodes there were, and to the one it may have made. -/
theorem grown_descendOrMake {s s' : State} {i j : NodeIdx} {b : Bool} (hi : i.val < s.nodeCount.val)
    (h : s.descendOrMake i b = some (j, s')) :
    Grown s s' ∧ ∀ k : NodeIdx, k.val < s'.nodeCount.val →
      (k.val < s.nodeCount.val ∧ s'.nodes[k].sym = s.nodes[k].sym) ∨ (k = j ∧ s'.nodes[k].sym = none) := by
  rcases State.descendOrMake_cases h with ⟨-, rfl⟩ | ⟨hnone, -⟩
  · exact ⟨⟨rfl, fun _ _ _ _ hc => hc⟩, fun k hk => .inl ⟨hk, rfl⟩⟩
  · obtain ⟨hj, hn, hnewj, hnewi, hold⟩ := descendOrMake_made h hnone hi
    have hlive : ∀ k : NodeIdx, k.val < s.nodeCount.val → k ≠ j := fun k hk he => by rw [he, hj] at hk; exact absurd hk (lt_irrefl _)
    refine ⟨⟨by rw [State.descendOrMake_frame h], fun k d m hk hc => ?_⟩, fun k hk => ?_⟩
    · by_cases hki : k = i
      · subst hki
        rw [hnewi]
        cases b <;> cases d
        · exact absurd (hnone.symm.trans hc) (by simp)
        · exact hc
        · exact hc
        · exact absurd (hnone.symm.trans hc) (by simp)
      · rwa [hold k hki (hlive k hk)]
    · by_cases hkj : k = j
      · exact .inr ⟨hkj, by rw [hkj, hnewj]; rfl⟩
      · have hne : k.val ≠ j.val := fun he => hkj (Fin.ext he)
        refine .inl ⟨by omega, ?_⟩
        by_cases hki : k = i
        · subst hki
          rw [hnewi]
          cases b <;> rfl
        · rw [hold k hki hkj]

/-- What labelling a node does to the nodes there were. -/
theorem grown_label {s s' : State} {i : NodeIdx} {c : Byte} (hroot : s'.root = s.root)
    (hnodes : s'.nodes = (s.setNode i { s.nodes[i] with sym := some c }).nodes) :
    Grown s s' ∧ s'.nodes[i].sym = some c ∧ ∀ k : NodeIdx, k ≠ i → s'.nodes[k].sym = s.nodes[k].sym := by
  refine ⟨⟨hroot, fun k b m _ hc => ?_⟩, by rw [hnodes, State.setNode_get_same], fun k hk => ?_⟩
  · rw [hnodes, setNode_sym_frame]
    exact hc
  · rw [hnodes, State.setNode_get_other s hk.symm]

/-- The label is the one symbol more of the tree. -/
theorem mem_syms_label {s s' : State} {x x' : Tree} {i : NodeIdx} {c : Byte} (hx : ArenaHolds s x) (hx' : ArenaHolds s' x')
    (hcount : s'.nodeCount = s.nodeCount) (hi : i.val < s.nodeCount.val) (hnone : s.nodes[i].sym = none)
    (hlabel : s'.nodes[i].sym = some c) (hold : ∀ k : NodeIdx, k ≠ i → s'.nodes[k].sym = s.nodes[k].sym) {sym : Byte} :
    sym ∈ x'.syms ↔ sym = c ∨ sym ∈ x.syms := by
  simp only [Tree.mem_syms_iff hx'.entries, Tree.mem_syms_iff hx.entries, hx.live, hx'.live, hcount]
  constructor
  · rintro ⟨k, hk, hsym⟩
    by_cases hki : k = i
    · subst hki
      exact .inl (Option.some.inj (hsym.symm.trans hlabel))
    · exact .inr ⟨k, hk, hold k hki ▸ hsym⟩
  · rintro (rfl | ⟨k, hk, hsym⟩)
    · exact ⟨i, hi, hlabel⟩
    · exact ⟨k, hk, (hold k fun he => by rw [he, hnone] at hsym; cases hsym).trans hsym⟩

/-! ## The state of the load -/

/-- s is loading the rows of t and has made x of it so far; the symbols still to come are those of `left`. -/
structure LoadingOf (t : Tree) (left : List Byte) (x : Tree) (s : State) : Prop where
  err : s.err = false
  loading : s.treeState = .loading
  arena : ArenaHolds s x
  within : x.Within t
  symbols : ∀ sym ∈ t.syms, sym ∈ x.syms ↔ sym ∉ left

/-- No row is open. -/
def BetweenRows (t : Tree) (left : List Byte) (s : State) : Prop := s.rowOpen = false ∧ ∃ x, LoadingOf t left x s

/-- The row of the symbol c is open, and its path so far is p. -/
def InRow (t : Tree) (left : List Byte) (c : Byte) (p : List Bool) (s : State) : Prop :=
  s.rowOpen = true ∧ s.loadCur.sym = c ∧ s.loadCur.len.toNat = p.length ∧
    ∃ x, LoadingOf t left x s ∧ (x.sub p).link = some s.loadCur.node

/-- The load has ended with t restored, its nodes at indices of the load's own. -/
def Restored (t : Tree) (s : State) : Prop :=
  s.err = false ∧ s.treeState = .loaded ∧
    ∃ x, ArenaHolds s x ∧ x.full = true ∧ x.rows [] = t.rows [] ∧ x.syms.length = t.syms.length

/-! ## The commands on it -/

section

variable {s : State} {t : Tree} {left : List Byte} {c : Byte} {p : List Bool}

theorem loadBegin_betweenRows (he : s.err = false) (ht : t.full = true) : BetweenRows t t.syms (loadBegin s) := by
  refine ⟨rfl, .placeholder 0, he, rfl, loadBegin_arenaHolds s, ?_, fun sym hsym => ?_⟩
  · cases t with
    | absent => cases ht
    | node i sym l r => exact ⟨.inl rfl, trivial, trivial⟩
  · simp [Tree.placeholder, Tree.syms, hsym]

theorem toNat_zeroExtend_byte (c : Byte) : (c.zeroExtend 32).toNat = c.toNat := BitVec.toNat_setWidth_of_le (by decide)

theorem extractLsb'_zeroExtend_byte (c : Byte) : (c.zeroExtend 32).extractLsb' 0 8 = c := by
  refine BitVec.eq_of_toNat_eq ?_
  rw [BitVec.extractLsb'_toNat, toNat_zeroExtend_byte]
  exact Nat.mod_eq_of_lt c.isLt

theorem loadSym_inRow (h : BetweenRows t left s) (hc : c ∈ t.syms) (hleft : c ∈ left) (hd : s.data = c.zeroExtend 32) :
    InRow t left c [] (loadSym s) := by
  obtain ⟨hopen, x, hx⟩ := h
  have hdata : s.data.extractLsb' 0 8 = c := by rw [hd]; exact extractLsb'_zeroExtend_byte c
  have hle : s.data.toNat ≤ 255 := by rw [hd, toNat_zeroExtend_byte]; exact Nat.le_of_lt_succ c.isLt
  have hnew : ∀ i : NodeIdx, i.val < s.nodeCount.val → s.nodes[i].sym ≠ some c := fun i hi hsym =>
    (hx.symbols c hc).1 ((Tree.mem_syms_iff hx.arena.entries).2 ⟨i, (hx.arena.live i).2 hi, hsym⟩) hleft
  rw [loadSym_new hopen hle (hdata.symm ▸ hnew), hdata]
  exact ⟨rfl, rfl, rfl, x, ⟨hx.err, hx.loading, hx.arena.congr rfl rfl rfl rfl, hx.within, hx.symbols⟩, hx.arena.root_path⟩

/-- The node of an open row, where t goes on below it, is no leaf of the load. -/
theorem LoadingOf.sym_none {x : Tree} {i : NodeIdx} {b : Bool} (hx : LoadingOf t left x s) (hf : t.full = true)
    (hp : (x.sub p).link = some i) (ht : t.sub (p ++ [b]) ≠ .absent) : s.nodes[i].sym = none := by
  obtain ⟨sym, l, r, hsub⟩ := Tree.exists_node_of_link hp
  obtain ⟨hs, -⟩ := hsub ▸ Tree.sub_inArena hx.arena.entries p
  have hin := hsub ▸ Tree.sub_within hx.within p
  rw [Tree.sub_append] at ht
  cases hpt : t.sub p with
  | absent => rw [hpt] at hin; cases hin
  | node j symt lt rt =>
    rw [hpt] at hin ht
    cases symt with
    | none => exact hs.trans (hin.1.elim id id)
    | some d =>
      obtain ⟨rfl, rfl⟩ := Tree.absent_of_full_leaf (hpt ▸ Tree.sub_full hf (p := p) (i := j) (by rw [hpt]; rfl))
      simp at ht

theorem loadChar_inRow {b : Bool} (h : InRow t left c p s) (hf : t.full = true) (hroom : t.indices.length ≤ 511)
    (hlen : p.length < 255) (ht : t.sub (p ++ [b]) ≠ .absent) : InRow t left c (p ++ [b]) (loadChar (bitChar b) s) := by
  obtain ⟨hopen, hc, hcur, x, hx, hp⟩ := h
  have hsym := hx.sym_none hf hp ht
  have hshort : s.loadCur.len ≠ 255#8 := fun he => by rw [he] at hcur; exact hlen.ne hcur.symm
  have hlive := hx.arena.live_of_path hp
  cases hd : s.descendOrMake s.loadCur.node b with
  | none =>
    obtain ⟨hnone, hfull⟩ := (State.descendOrMake_eq_none_iff s _ b).1 hd
    rw [← Tree.sub_concat_link hx.arena.entries hp b, Tree.link_eq_none_iff] at hnone
    have hlt := Tree.indices_length_lt_of_within hx.within hnone ht
    rw [← hx.arena.nodeCount_eq, hfull] at hlt
    omega
  | some made =>
    obtain ⟨j, s'⟩ := made
    obtain ⟨x', hx', -, hpath, hsyms⟩ :=
      hx.arena.descendOrMake (Tree.labelled_of_within hx.within hf) hp hlen hsym hd
    obtain ⟨hgrown, hnodes⟩ := grown_descendOrMake hlive hd
    have hwithin : x'.Within t := hgrown.within hx.arena hx' hx.within fun q k hq => by
      refine (hnodes k (hx'.live_of_path hq)).imp_right fun ⟨hk, hnone⟩ => ?_
      subst hk
      obtain rfl := Tree.path_unique hx'.once hq hpath
      cases hsub : t.sub (p ++ [b]) with
      | absent => exact absurd hsub ht
      | node m sym l r => exact ⟨m, sym, l, r, rfl, .inl hnone⟩
    have hnext : (s.loadCur.len + 1#8).toNat = (p ++ [b]).length := by
      rw [BitVec.toNat_add, hcur, List.length_append]
      exact Nat.mod_eq_of_lt (show p.length + 1 < 256 by omega)
    rw [loadChar_descends hopen (charBit_bitChar b) hshort hsym hd]
    have harena := hx'.congr (s' := { s' with loadCur := { s.loadCur with node := j, len := s.loadCur.len + 1#8 } }) rfl rfl rfl rfl
    rw [State.descendOrMake_frame hd] at harena ⊢
    have hleft : ∀ sym ∈ t.syms, sym ∈ x'.syms ↔ sym ∉ left := fun sym hs => hsyms.mem_iff.trans (hx.symbols sym hs)
    exact ⟨hopen, hc, hnext, x', ⟨hx.err, hx.loading, harena, hwithin, hleft⟩, hpath⟩

/-- The node that a row of t ends at is a placeholder, before the row is loaded. -/
theorem LoadingOf.placeholder {x : Tree} {i j : NodeIdx} {l r : Tree} (hx : LoadingOf t left x s) (hf : t.full = true)
    (hp : (x.sub p).link = some i) (ht : t.sub p = .node j (some c) l r) (hnew : c ∉ x.syms) :
    s.nodes[i].sym = none ∧ s.nodes[i].left = none ∧ s.nodes[i].right = none := by
  obtain ⟨rfl, rfl⟩ := Tree.absent_of_full_leaf (ht ▸ Tree.sub_full hf (p := p) (i := j) (by rw [ht]; rfl))
  obtain ⟨sym, lx, rx, hsub⟩ := Tree.exists_node_of_link hp
  obtain ⟨hs, hl, hr, -, -⟩ := hsub ▸ Tree.sub_inArena hx.arena.entries p
  have hin := Tree.sub_within hx.within p
  rw [hsub, ht] at hin
  obtain ⟨hsym, hlx, hrx⟩ := hin
  rw [Tree.within_absent_iff] at hlx hrx
  subst hlx hrx
  refine ⟨hs.trans (hsym.resolve_right fun he => hnew ?_), hl, hr⟩
  exact (Tree.mem_syms_iff hx.arena.entries).2 ⟨i, Tree.mem_indices_of_sub_link hp, hs.trans he⟩

theorem loadRowEnd_betweenRows {j : NodeIdx} {l r : Tree} (h : InRow t (c :: left) c p s) (hf : t.full = true)
    (ht : t.sub p = .node j (some c) l r) (hc : c ∈ t.syms) (hleft : c ∉ left) : BetweenRows t left (loadRowEnd s) := by
  obtain ⟨hopen, rfl, -, x, hx, hp⟩ := h
  have hnew : s.loadCur.sym ∉ x.syms := fun hm => (hx.symbols _ hc).1 hm List.mem_cons_self
  obtain ⟨hnone, hl, hr⟩ := hx.placeholder hf hp ht hnew
  obtain ⟨x', hx', -⟩ := hx.arena.label (Tree.labelled_of_within hx.within hf) hp hnone hl hr hnew
  have hrule := loadRowEnd_placeholder hopen hnone hl hr
  have harena : ArenaHolds (loadRowEnd s) x' := by rw [hrule]; exact hx'.congr rfl rfl rfl rfl
  obtain ⟨hgrown, hlabel, hold⟩ := grown_label (s := s) (s' := loadRowEnd s) (by rw [hrule]; rfl) (by rw [hrule])
  have hcount : (loadRowEnd s).nodeCount = s.nodeCount := by rw [hrule]; rfl
  have hlive := hx.arena.live_of_path hp
  have hwithin : x'.Within t := hgrown.within hx.arena harena hx.within fun q k hq => by
    by_cases hk : k = s.loadCur.node
    · subst hk
      obtain rfl := Tree.path_unique harena.once hq (hgrown.path hx.arena harena hp)
      exact .inr ⟨j, _, l, r, ht, .inr hlabel⟩
    · exact .inl ⟨hcount ▸ harena.live_of_path hq, hold k hk⟩
  refine ⟨by rw [hrule], x', by rw [hrule]; exact hx.err, by rw [hrule]; exact hx.loading, harena, hwithin, fun sym hs => ?_⟩
  rw [mem_syms_label hx.arena harena hcount hlive hnone hlabel hold, hx.symbols sym hs, List.mem_cons, not_or]
  by_cases he : sym = s.loadCur.sym
  · simp [he, hleft]
  · simp [he]

/-- A leaf or an internal node is no placeholder (R42, R168). -/
theorem incomplete_of_class {n : Node} (h : n.isLeaf = true ∨ n.isInternal = true) : n.incomplete = false := by
  refine Bool.eq_false_iff.2 fun hinc => ?_
  obtain ⟨hsym, hchild⟩ := (incomplete_iff n).1 hinc
  rcases h with h | h
  · simp [Node.isLeaf, hsym] at h
  · rcases hchild with hc | hc <;> simp [Node.isInternal, hc] at h

/-- No symbol is left, so the tree of the load is full and LOAD_END accepts it (R168, R169). -/
theorem loadEnd_restored (h : BetweenRows t [] s) (hf : t.full = true) (hn : t.syms.Nodup) : Restored t (loadEnd s) := by
  obtain ⟨hclosed, x, hx⟩ := h
  have hsub : t.syms ⊆ x.syms := fun sym hs => (hx.symbols sym hs).2 List.not_mem_nil
  obtain ⟨hle, heq⟩ := Tree.rowsWithin_of_within hx.within hf
  have hge := (hn.subperm hsub).length_le
  obtain ⟨hxf, hrows⟩ := heq hge
  have hcount : s.leafCount ≠ 0#9 := fun hz => by
    have hleaves := hx.arena.leaves
    rw [hz] at hleaves
    have hheight := Tree.height_le_of_full hxf
    have hpos := Tree.height_pos_of_link hx.arena.root
    exact absurd (hpos.trans (hheight.trans_eq hleaves.symm)) (by decide)
  have hcomplete : ∀ i : NodeIdx, i.val < s.nodeCount.val → s.nodes[i].incomplete = false := fun i hi =>
    incomplete_of_class ((hx.arena.validTree hxf).classes i hi)
  rw [loadEnd_complete hclosed hcount hcomplete]
  exact ⟨hx.err, rfl, x, hx.arena.congr rfl rfl rfl rfl, hxf, hrows [], le_antisymm hle hge⟩

end

end Sys2Proof.Safety
end

section
/-! SUPPORT. What a program achieves, whatever the timing of its WAITs, and the program of LOAD_TABLE (30_encoding.md R89 to R95). -/

namespace Sys2Proof.Safety

open Sys2Proof.Machine

/-! ## Runs -/

theorem run_add {n m : Nat} {s t : State} (h : core.run n s = .next t) : core.run (n + m) s = core.run m t := by
  induction n generalizing s with
  | zero =>
    obtain rfl := Host.Outcome.next.inj h
    rw [Nat.zero_add]
  | succ n ih =>
    cases hstep : core.step s with
    | next u =>
      rw [Nat.add_right_comm, run_succ hstep]
      exact ih (by rwa [run_succ hstep] at h)
    | fault r => simp [Host.Core.run, hstep] at h
    | refused r => simp [Host.Core.run, hstep] at h

/-- A WAIT while the core has a step to take ends in the state that the step leaves, but for the model's own fields. -/
theorem run_wait {s c : State} {k : Nat} {rest : List Input} (h : s.inputs = .wait k :: rest) (hb : s.busy = true)
    (hc : coreStep s = .next c) (hidle : c.busy = false) :
    ∃ reads draws, core.run (k + 2) s = .next (c.withOutside rest reads draws) := by
  obtain ⟨polls, -, -, hrun⟩ := run_wait_polls h hb
  have hcore := coreStep_withOutside_next hc (.wait 0 :: rest) (polls ++ s.reads) (s.draws + k)
  refine ⟨c.statusWord :: (polls ++ s.reads), s.draws + k, ?_⟩
  rw [hrun]
  exact run_wait_core (t := c.withOutside (.wait 0 :: rest) (polls ++ s.reads) (s.draws + k)) rfl hb hcore rfl hidle

/-- The state with a command's word in PEND, as a host write to CMD leaves it (R66). -/
def latched (s : State) (i : Instr) : State := s.withFlags s.overrun ⟨true, encode i⟩ s.initPending

/-- The core's step on the latched word of a command does what the command does (R66, R226). -/
theorem coreStep_latched {i : Instr} (hr : i ≠ .softReset) (hc : i ≠ .errClear) {s u : State} (hinit : s.initPending = false)
    (hu : exec i s = .next u) : coreStep (latched s i) = .next (u.withFlags s.overrun ⟨false, encode i⟩ s.initPending) := by
  rw [coreStep_runWord (s := latched s i) hinit rfl]
  exact (runWord_command (decode_encode i) _).trans (exec_withFlags _ _ _ hr hc hu)

theorem untimed_eq_write_iff {i : Input} {a : WordAddr} {v : Word} : i.untimed = .write a v ↔ i = .write a v := by
  cases i <;> simp [Input.untimed]

theorem untimed_eq_wait_iff {i : Input} : i.untimed = .wait 0 ↔ ∃ k, i = .wait k := by
  cases i <;> simp [Input.untimed]

/-! ## What a program achieves -/

/-- From every idle state of P the program, whatever the timing of its WAITs, runs to its end in an idle state of Q. -/
def Achieves (program : List Input) (P Q : State → Prop) : Prop :=
  ∀ (s : State) (inputs rest : List Input), P s → s.busy = false → Script.Performs inputs program → s.inputs = inputs ++ rest →
    ∃ n t, core.run n s = .next t ∧ Q t ∧ t.busy = false ∧ t.inputs = rest

/-- The property is one of STATUS.ERR, the tree, the table, the open row and the session alone. -/
def OfTree (Q : State → Prop) : Prop := ∀ s t : State, SameTree s t → t.err = s.err → Q s → Q t

section

variable {P Q R : State → Prop} {program program' : List Input}

theorem achieves_nil : Achieves [] P P := by
  intro s inputs rest hs hb hperf hin
  obtain rfl := List.map_eq_nil_iff.1 hperf
  exact ⟨0, s, rfl, hs, hb, hin⟩

theorem Achieves.append (h : Achieves program P Q) (h' : Achieves program' Q R) : Achieves (program ++ program') P R := by
  intro s inputs rest hs hb hperf hin
  obtain ⟨ins, ins', rfl, hperf, hperf'⟩ := List.map_eq_append_iff.1 hperf
  obtain ⟨n, t, hrun, ht, hb, hin⟩ := h s ins (ins' ++ rest) hs hb hperf (by rw [hin, List.append_assoc])
  obtain ⟨m, u, hrun', hu⟩ := h' t ins' rest ht hb hperf' hin
  exact ⟨n + m, u, (run_add hrun).trans hrun', hu⟩

/-- A write to DATA (R62, R89). -/
theorem achieves_wr_data (hQ : OfTree Q) (v : Word) : Achieves (Script.wr .data v) Q (fun s => Q s ∧ s.data = v) := by
  intro s inputs rest hs hb hperf hin
  obtain ⟨i, l, rfl, hi, hl⟩ := List.map_eq_cons_iff.1 hperf
  obtain rfl := List.map_eq_nil_iff.1 hl
  obtain rfl := untimed_eq_write_iff.1 hi
  have hwrite : ({ s with inputs := rest } : State).hostWrite Target.data.addr v = { s with inputs := rest, data := v } :=
    hostWrite_data (s := { s with inputs := rest }) hb (target_addr .data) v
  have hstep : step s = .next { s with inputs := rest, data := v } := by
    simp only [step, takeTurn, hin, List.singleton_append, hwrite]
  exact ⟨1, _, run_succ hstep 0, ⟨hQ s _ rfl rfl hs, rfl⟩, hb, rfl⟩

/-- A command in the synchronous form (R93). -/
theorem achieves_sync {i : Instr} (hr : i ≠ .softReset) (hc : i ≠ .errClear) (hQ : OfTree Q)
    (h : ∀ s, P s → ∃ u, exec i s = .next u ∧ Q u) : Achieves (Script.sync i) P Q := by
  intro s inputs rest hs hb hperf hin
  obtain ⟨w, l, rfl, hw, hl⟩ := List.map_eq_cons_iff.1 hperf
  obtain ⟨wt, l, rfl, hwt, hl⟩ := List.map_eq_cons_iff.1 hl
  obtain rfl := List.map_eq_nil_iff.1 hl
  obtain rfl := untimed_eq_write_iff.1 hw
  obtain ⟨k, rfl⟩ := untimed_eq_wait_iff.1 hwt
  obtain ⟨u, hu, hQu⟩ := h s hs
  obtain ⟨-, hinit⟩ := Bool.or_eq_false_iff.1 hb
  obtain ⟨hlatch, -⟩ := hostWrite_cmd (s := { s with inputs := .wait k :: rest }) hb (target_addr .cmd) (encode i)
  have hstep : step s = .next ((latched s i).withOutside (.wait k :: rest) s.reads s.draws) := by
    simp only [step, takeTurn, hin, List.cons_append, List.nil_append, hlatch]
    rfl
  have hcore := coreStep_withOutside_next (coreStep_latched hr hc hinit hu) (.wait k :: rest) s.reads s.draws
  obtain ⟨reads, draws, hrun⟩ := run_wait rfl rfl hcore hinit
  exact ⟨k + 2 + 1, _, (run_succ hstep (k + 2)).trans hrun, hQ u _ rfl rfl hQu, hinit, rfl⟩

/-- A loader command whose rule raises nothing, in the synchronous form. -/
theorem achieves_sync_load {i : Instr} (hi : LoadCommand i) {rule : State → State} (hrule : ∀ s, commandRule i s = .next (rule s))
    (hP : ∀ s, P s → s.err = false ∧ s.treeState = .loading) (hQ : OfTree Q) (h : ∀ s, P s → Q (rule s)) :
    Achieves (Script.sync i) P Q :=
  achieves_sync hi.ne_softReset hi.ne_errClear hQ fun s hs =>
    ⟨_, hi.exec_run (hP s hs).1 (hP s hs).2 (hrule s) rfl, hQ _ _ rfl rfl (h s hs)⟩

end

/-! ## The program of LOAD_TABLE -/

section

variable {t : Tree} {left : List Byte} {c : Byte} {p : List Bool}

theorem LoadingOf.congr {x : Tree} {s s' : State} (h : LoadingOf t left x s) (hs : SameTree s s') (he : s'.err = s.err) :
    LoadingOf t left x s' where
  err := he.trans h.err
  loading := (congrArg State.treeState hs :).trans h.loading
  arena := h.arena.congr (congrArg State.root hs :) (congrArg State.nodes hs :) (congrArg State.nodeCount hs :)
    (congrArg State.leafCount hs :)
  within := h.within
  symbols := h.symbols

theorem ofTree_betweenRows : OfTree (BetweenRows t left) := fun _ _ hs he ⟨hopen, x, hx⟩ =>
  ⟨(congrArg State.rowOpen hs :).trans hopen, x, hx.congr hs he⟩

theorem ofTree_inRow : OfTree (InRow t left c p) := fun s s' hs he ⟨hopen, hc, hlen, x, hx, hp⟩ => by
  have hcur : s'.loadCur = s.loadCur := (congrArg State.loadCur hs :)
  exact ⟨(congrArg State.rowOpen hs :).trans hopen, hcur ▸ hc, hcur ▸ hlen, x, hx.congr hs he, hcur ▸ hp⟩

theorem ofTree_restored : OfTree (Restored t) := fun _ _ hs he ⟨herr, hst, x, hx, h⟩ =>
  ⟨he.trans herr, (congrArg State.treeState hs :).trans hst, x,
    hx.congr (congrArg State.root hs :) (congrArg State.nodes hs :) (congrArg State.nodeCount hs :) (congrArg State.leafCount hs :), h⟩

theorem BetweenRows.err_treeState {s : State} (h : BetweenRows t left s) : s.err = false ∧ s.treeState = .loading :=
  let ⟨_, _, hx⟩ := h
  ⟨hx.err, hx.loading⟩

theorem InRow.err_treeState {s : State} (h : InRow t left c p s) : s.err = false ∧ s.treeState = .loading :=
  let ⟨_, _, _, _, hx, _⟩ := h
  ⟨hx.err, hx.loading⟩

end

/-- A row of CT as LOAD_TABLE takes it (R91, R160). -/
def tableEntry (r : Row) : Word × List Byte := (r.sym.zeroExtend 32, r.bits.map bitChar)

theorem tableOf_eq_map (s : State) : tableOf s = s.liveRows.map tableEntry := rfl

/-- What a tree restored from its rows has to be: full, with distinct symbols, and no larger than the arena and the longest path. -/
structure Restorable (t : Tree) : Prop where
  full : t.full = true
  symbols : t.syms.Nodup
  room : t.indices.length ≤ 511
  short : ∀ {p : List Bool}, t.sub p ≠ .absent → p.length ≤ 255

theorem ArenaHolds.restorable {s : State} {t : Tree} (h : ArenaHolds s t) (hf : t.full = true) : Restorable t where
  full := hf
  symbols := h.symbols
  room := h.nodeCount_eq ▸ Nat.le_of_lt_succ s.nodeCount.isLt
  short {p} hp := by
    obtain ⟨i, hi⟩ := Option.ne_none_iff_exists'.1 (mt (Tree.link_eq_none_iff _).1 hp)
    exact h.path_length hi

section

variable {t : Tree} {left : List Byte}

/-- The characters of a path, from a row whose path so far is p (R163). -/
theorem achieves_chars (ht : Restorable t) (c : Byte) (p q : List Bool) (hpq : t.sub (p ++ q) ≠ .absent) :
    Achieves ((q.map bitChar).map fun ch => Script.sync (.loadChar ch)).flatten (InRow t left c p) (InRow t left c (p ++ q)) := by
  induction q generalizing p with
  | nil => rw [List.append_nil]; exact achieves_nil
  | cons b q ih =>
    rw [List.append_cons] at hpq ⊢
    have hb : t.sub (p ++ [b]) ≠ .absent := fun he => hpq (by rw [Tree.sub_append, he, Tree.sub_absent])
    have hlen := ht.short hb
    rw [List.length_append, List.length_singleton] at hlen
    exact (achieves_sync_load (loadCommand_loadChar _) (fun _ => rfl) (fun _ => InRow.err_treeState) ofTree_inRow
      fun s hs => loadChar_inRow hs ht.full ht.room (by omega) hb).append (ih _ hpq)

/-- LOAD_ROW for a row of t (R91). -/
theorem achieves_loadRow (ht : Restorable t) {c : Byte} {p : List Bool} {j : NodeIdx} {l r : Tree}
    (hp : t.sub p = .node j (some c) l r) (hc : c ∈ t.syms) (hleft : c ∉ left) :
    Achieves (Script.loadRow (c.zeroExtend 32) (p.map bitChar)) (BetweenRows t (c :: left)) (BetweenRows t left) := by
  have hdata := achieves_wr_data (ofTree_betweenRows (t := t) (left := c :: left)) (c.zeroExtend 32)
  have hsym : Achieves (Script.sync .loadSym) (fun s => BetweenRows t (c :: left) s ∧ s.data = c.zeroExtend 32)
      (InRow t (c :: left) c []) :=
    achieves_sync_load loadCommand_loadSym (fun _ => rfl) (fun _ h => h.1.err_treeState) ofTree_inRow
      fun _ ⟨h, hd⟩ => loadSym_inRow h hc List.mem_cons_self hd
  have hchars := achieves_chars (left := c :: left) ht c [] p (by rw [List.nil_append, hp]; simp)
  have hend : Achieves (Script.sync .loadRowEnd) (InRow t (c :: left) c p) (BetweenRows t left) :=
    achieves_sync_load loadCommand_loadRowEnd (fun _ => rfl) (fun _ => InRow.err_treeState) ofTree_betweenRows
      fun _ h => loadRowEnd_betweenRows h ht.full hp hc hleft
  exact ((hdata.append hsym).append hchars).append hend

/-- The rows of t, or the last of them, one after another. -/
theorem achieves_loadRows (ht : Restorable t) (rows : List Row) (hrows : ∀ r ∈ rows, r ∈ t.rows []) (hn : (rows.map Row.sym).Nodup) :
    Achieves ((rows.map tableEntry).map fun r => Script.loadRow r.1 r.2).flatten
      (BetweenRows t (rows.map Row.sym)) (BetweenRows t []) := by
  induction rows with
  | nil => exact achieves_nil
  | cons r rows ih =>
    obtain ⟨hr, hrows⟩ := List.forall_mem_cons.1 hrows
    obtain ⟨hnew, hn⟩ := List.nodup_cons.1 hn
    obtain ⟨q, i, l, rt, hq, he⟩ := Tree.exists_leaf_of_mem_rows hr
    have hshort := ht.short (p := q) (by rw [hq]; simp)
    have hbits : r.bits = q := by
      rw [he]
      exact Row.ofPath_bits _ _ (Nat.lt_succ_of_le hshort)
    have hsym : r.sym ∈ t.syms := Tree.rows_syms ht.full [] ▸ List.mem_map_of_mem hr
    exact (achieves_loadRow ht (hbits ▸ hq) hsym hnew).append (ih hrows hn)

/-- LOAD_TABLE of the rows of t restores t (R95, R169). -/
theorem achieves_loadTable (ht : Restorable t) :
    Achieves (Script.loadTable ((t.rows []).map tableEntry)) (fun s => s.err = false) (Restored t) := by
  have hsyms := Tree.rows_syms ht.full []
  have hbegin : Achieves (Script.sync .loadBegin) (fun s => s.err = false) (BetweenRows t ((t.rows []).map Row.sym)) :=
    achieves_sync (by decide) (by decide) ofTree_betweenRows fun s he =>
      ⟨_, exec_loadBegin he, ofTree_betweenRows _ _ rfl rfl (hsyms ▸ loadBegin_betweenRows he ht.full)⟩
  have hrows := achieves_loadRows ht (t.rows []) (fun _ h => h) (hsyms ▸ ht.symbols)
  have hend : Achieves (Script.sync .loadEnd) (BetweenRows t []) (Restored t) :=
    achieves_sync_load loadCommand_loadEnd (fun _ => rfl) (fun _ => BetweenRows.err_treeState) ofTree_restored
      fun _ h => loadEnd_restored h ht.full ht.symbols
  exact (hbegin.append hrows).append hend

end

/-- Settles O45: each row finds its place in the tree made so far, which is within the tree of the table, and with all of that tree's
symbols it has its shape. -/
theorem loadingASerializedTableRestoresIt : Obligations.LoadingASerializedTableRestoresIt := by
  intro s h hb hin he hc inputs hperf
  obtain ⟨-, t, ht, hf, htable, -⟩ := h.valid (h.valid_of_ctValid hc)
  obtain ⟨hcount, hrows⟩ := htable hc
  rw [tableOf_eq_map, hrows] at hperf
  obtain ⟨n, s', hrun, ⟨he', hst, x, hx, hxf, hxrows, hlen⟩, -, hin'⟩ :=
    achieves_loadTable (ht.restorable hf) { s with inputs := inputs } inputs [] he hb hperf (List.append_nil _).symm
  have hrowslen := hx.rows_length_le hxf
  refine ⟨n, s', _, hrun, hin', he', hst, BitVec.eq_of_toNat_eq ?_, hx.exec_serialize hxf he' (.inr hst), BitVec.eq_of_toNat_eq ?_, ?_⟩
  · rw [hx.leaves, ht.leaves, hlen]
  · rw [hcount, ← hxrows]
    exact withRows_rowCount s' hrowslen
  · rw [hrows, ← hxrows]
    exact withRows_liveRows s' hrowslen

end Sys2Proof.Safety
end

section
/-! SUPPORT. The decoder's three commands: SEQUENCE outside a session, and what each writes within one (44_decoder.md R191 to R195). -/

namespace Sys2Proof.Safety

open Sys2Proof.Machine

/-! ## What the commands answer -/

section

variable {s : State}

/-- DEC_BEGIN without a valid tree (R227). -/
theorem exec_decBegin_sequence (he : s.err = false) (hs : ¬ (s.treeState = .built ∨ s.treeState = .loaded)) :
    exec .decBegin s = .next (recorded s 0x40#8 0#8 5#8) :=
  exec_sequence (i := .decBegin) (by decide) (by decide) he (Bool.eq_false_iff.2 fun hv => hs ((valid_iff _).1 hv))

/-- DEC_BIT without a session (R227). -/
theorem exec_decBit_sequence (b : Bool) (he : s.err = false) (hd : s.decState = .idle) :
    exec (.decBit b) s = .next (recorded s 0x41#8 0#8 5#8) :=
  exec_sequence (i := .decBit b) (by simp) (by simp) he (by simp [allowed, hd])

/-- DEC_END without a session (R227). -/
theorem exec_decEnd_sequence (he : s.err = false) (hd : s.decState = .idle) :
    exec .decEnd s = .next (recorded s 0x42#8 0#8 5#8) :=
  exec_sequence (i := .decEnd) (by decide) (by decide) he (by simp [allowed, hd])

theorem exec_decBit (b : Bool) (he : s.err = false) (hd : s.decState ≠ .idle) : exec (.decBit b) s = .next (decBit b s).complete :=
  exec_run (i := .decBit b) (by simp) (by simp) he (by simpa [allowed] using hd) rfl

theorem exec_decEnd (he : s.err = false) (hd : s.decState ≠ .idle) : exec .decEnd s = .next (decEnd s).complete :=
  exec_run (i := .decEnd) (by decide) (by decide) he (by simpa [allowed] using hd) rfl

section

variable {b : Bool} {j : NodeIdx}

/-- DEC_BIT where the bit leads to a leaf emits the leaf's symbol (R192). -/
theorem exec_decBit_emits {c : Byte} (he : s.err = false) (hd : s.decState ≠ .idle)
    (hj : s.nodes[s.cursor.node].child b = some j) (hsym : s.nodes[j].sym = some c) :
    exec (.decBit b) s = .next ({ s with
      decOut := ⟨true, c⟩, decCount := s.decCount + 1#32, cursor := ⟨s.root, 0#8⟩, decState := .atRoot } : State).complete := by
  rw [exec_decBit b he hd]
  simp only [decBit, hj, hsym]

/-- DEC_BIT where the bit leads to a node without a symbol moves the cursor there (R192). -/
theorem exec_decBit_descends (he : s.err = false) (hd : s.decState ≠ .idle)
    (hj : s.nodes[s.cursor.node].child b = some j) (hsym : s.nodes[j].sym = none) :
    exec (.decBit b) s = .next ({ s with
      decOut := ⟨false, 0#8⟩, cursor := ⟨j, s.cursor.pending + 1#8⟩, decState := .descending } : State).complete := by
  rw [exec_decBit b he hd]
  simp only [decBit, hj, hsym]

end

/-- DEC_END between two code words (R195). -/
theorem exec_decEnd_atRoot (he : s.err = false) (hd : s.decState = .atRoot) :
    exec .decEnd s = .next ({ s with decState := .idle } : State).complete := by
  have hnot : s.decState ≠ .descending := by simp [hd]
  rw [exec_decEnd he (by simp [hd]), decEnd, if_neg hnot]

/-- DEC_END inside a code word (R195). -/
theorem exec_decEnd_truncated (he : s.err = false) (hd : s.decState = .descending) :
    exec .decEnd s = .next (recorded { s with decState := .idle } 0x42#8 0#8 3#8) := by
  rw [exec_decEnd he (by simp [hd]), decEnd, if_pos hd, State.raise_truncated (s := { s with decState := .idle }) he]
  rfl

/-! ## What the invariant says of the cursor -/

theorem exists_child_of_isInternal {n : Node} (h : n.isInternal = true) (b : Bool) : ∃ j, n.child b = some j := by
  simp only [Node.isInternal, Bool.and_eq_true, Option.isSome_iff_exists] at h
  obtain ⟨⟨-, hleft⟩, hright⟩ := h
  cases b
  · exact hleft
  · exact hright

/-- In a session of the invariant a child is absent only where the root is a leaf (R192). -/
theorem Inv.root_isLeaf_of_no_child (h : Inv s) (hd : s.decState ≠ .idle) {b : Bool} (hc : s.nodes[s.cursor.node].child b = none) :
    s.nodes[s.root].isLeaf = true := by
  have hnot : s.nodes[s.cursor.node].isInternal ≠ true := fun hint => by
    obtain ⟨j, hj⟩ := exists_child_of_isInternal hint b
    exact absurd (hc.symm.trans hj) (by simp)
  obtain ⟨-, t, ht, hf, -, hcur⟩ := h.valid (h.valid_of_session hd)
  cases hs : s.decState with
  | idle => exact absurd hs hd
  | atRoot =>
    have hroot : s.nodes[s.cursor.node] = s.nodes[s.root] :=
      congrArg (fun i : NodeIdx => s.nodes[i]) (congrArg Cursor.node (hcur.of_atRoot hs))
    rcases Tree.classes_of_full ht.entries hf ht.root with ⟨hleaf, -⟩ | ⟨hint, -⟩
    · exact hleaf
    · exact absurd (hroot ▸ hint) hnot
  | descending =>
    obtain ⟨p, -, -, -, hint⟩ := hcur.of_descending hs
    exact absurd hint hnot

/-- The cursor is not at a leaf below the root, and the path to a child has at most 255 bits (R192, R45 item 6). -/
theorem Inv.pending_le (h : Inv s) (hd : s.decState ≠ .idle) : s.cursor.pending.toNat ≤ 254 := by
  obtain ⟨-, t, ht, -, -, hcur⟩ := h.valid (h.valid_of_session hd)
  cases hs : s.decState with
  | idle => exact absurd hs hd
  | atRoot => simp [hcur.of_atRoot hs]
  | descending =>
    obtain ⟨p, -, hp, hlen, hint⟩ := hcur.of_descending hs
    obtain ⟨j, hj⟩ := exists_child_of_isInternal hint false
    have hshort := ht.path_length ((Tree.sub_concat_link ht.entries hp false).trans hj)
    rw [List.length_append, List.length_singleton] at hshort
    omega

/-- DEC_BIT in a session leaves at most 254 bits pending: it keeps PENDING, or leaves a session of the invariant (R192). -/
theorem Inv.decBit_pending_le (h : Inv s) (hd : s.decState ≠ .idle) (b : Bool) : (Machine.decBit b s).cursor.pending.toNat ≤ 254 := by
  have hinv := h.decBit hd b
  rcases decBit_cases b s with ⟨-, he⟩ | ⟨j, -, ⟨sym, -, he⟩ | ⟨-, he⟩⟩
  · have hcursor : (Machine.decBit b s).cursor = s.cursor := by rw [he]; simp
    rw [hcursor]
    exact h.pending_le hd
  · exact hinv.pending_le (by simp [he])
  · exact hinv.pending_le (by simp [he])

end

/-! ## The obligations about one command -/

/-- Settles O46: DEC_BEGIN is let through exactly where the tree is valid, and its rule does not look at the session that is open. -/
theorem decBeginOpensASession : Obligations.DecBeginOpensASession := by
  refine ⟨decode_encode .decBegin, fun s he => ⟨fun hb hl => exec_decBegin_sequence he fun hs => hs.elim hb hl, fun hs => ?_⟩⟩
  exact exec_decBegin he ((valid_iff _).2 hs)

/-- Settles O47: the rows of R192 are the cases of DEC_BIT's rule, and the invariant bounds PENDING by the path to the cursor's child. -/
theorem decBitMovesTheCursor : Obligations.DecBitMovesTheCursor := by
  refine ⟨decode_encode (.decBit false), decode_encode (.decBit true), fun s b he =>
    ⟨exec_decBit_sequence b he, fun hd => ⟨exec_decBit_degenerate he hd, fun j hj => ⟨fun sym hsym => ?_, ?_⟩⟩,
      fun hinv hd => ⟨?_, ?_⟩⟩⟩
  · have hcount : BitVec.ofNat 32 (s.decCount.toNat + 1) = s.decCount + 1#32 := by simp [BitVec.ofNat_add]
    rw [hcount]
    exact exec_decBit_emits he hd hj hsym
  · exact exec_decBit_descends he hd hj
  · exact ⟨_, exec_decBit b he hd, hinv.decBit_pending_le hd b⟩
  · exact hinv.root_isLeaf_of_no_child hd (b := b)

/-- Settles O48: DEC_BEGIN puts the cursor at the root, and a leaf has no child on either side. -/
theorem degenerateTreesCannotBeDecoded : Obligations.DegenerateTreesCannotBeDecoded := by
  intro s he hs hleaf
  simp only [Node.isLeaf, Bool.and_eq_true, Option.isNone_iff_eq_none] at hleaf
  obtain ⟨⟨-, hleft⟩, hright⟩ := hleaf
  refine ⟨_, exec_decBegin he ((valid_iff _).2 hs), fun b => exec_decBit_degenerate he (by simp [decBegin]) ?_,
    _, exec_decEnd_atRoot he rfl, he, rfl, rfl, rfl⟩
  cases b
  · exact hleft
  · exact hright

/-- Settles O49: the cases are those of DEC_STATE, and the kept cursor is where item 8 of R45 says. -/
theorem decEndReportsTruncation : Obligations.DecEndReportsTruncation := by
  refine ⟨decode_encode .decEnd, fun s he =>
    ⟨exec_decEnd_sequence he, exec_decEnd_atRoot he, exec_decEnd_truncated he, fun hinv hd => ?_⟩⟩
  obtain ⟨hint, hroot, hpending, -⟩ := hinv.specR45.item8 hd
  exact ⟨hint, hroot, hpending⟩

end Sys2Proof.Safety
end

section
/-! SUPPORT. A decode session follows the paths of the rows through the tree of the invariant (44_decoder.md R196 to R198). -/

namespace Sys2Proof.Safety

open Sys2Proof.Machine

/-! ## Paths of a full tree -/

/-- A node that a path of a full tree leads past has no symbol (R128). -/
theorem Tree.sym_none_of_past {t : Tree} (hf : t.full = true) {p q : List Bool} (hq : q ≠ []) {j : NodeIdx}
    (h : (t.sub (p ++ q)).link = some j) : ∃ i l r, t.sub p = .node i none l r := by
  cases hp : t.sub p with
  | absent => rw [Tree.sub_append, hp, Tree.sub_absent] at h; cases h
  | node i sym l r =>
    cases sym with
    | none => exact ⟨i, l, r, rfl⟩
    | some c => exact absurd (List.append_right_eq_self.1 (Tree.eq_of_leaf_prefix hf hp h ⟨q, rfl⟩).symm) hq

/-- A live row of the table holds the path to a leaf with its symbol (R140). -/
theorem ArenaHolds.leaf_of_mem_liveRows {s : State} {t : Tree} (ht : ArenaHolds s t) (hrows : s.liveRows = t.rows []) {r : Row}
    (hr : r ∈ s.liveRows) : ∃ i lt rt, t.sub r.bits = .node i (some r.sym) lt rt := by
  obtain ⟨k, hk, rfl⟩ := mem_liveRows_iff.1 hr
  obtain ⟨q, hleaf, hbits, -, -⟩ := ht.rowOfLeaf hrows hk
  exact hbits ▸ hleaf

/-- In a full tree of two symbols or more the root is no leaf. -/
theorem Tree.path_ne_nil_of_leaf {t : Tree} (hf : t.full = true) (htwo : 2 ≤ t.syms.length) {p : List Bool} {i : NodeIdx} {c : Byte}
    {l r : Tree} (hp : t.sub p = .node i (some c) l r) : p ≠ [] := by
  rintro rfl
  rw [Tree.sub_nil] at hp
  obtain ⟨rfl, rfl⟩ := Tree.absent_of_full_leaf (hp ▸ hf)
  have hone := (Tree.syms_length_eq_one_iff hf).2 ⟨i, c, hp⟩
  omega

/-! ## A session in a tree -/

/-- A decode session whose cursor is at the end of the path p in the tree t, which the arena holds. -/
structure SessionAt (t : Tree) (p : List Bool) (s : State) : Prop where
  arena : ArenaHolds s t
  full : t.full = true
  noError : s.err = false
  state : s.decState = if p = [] then .atRoot else .descending
  node : (t.sub p).link = some s.cursor.node
  pending : s.cursor.pending = BitVec.ofNat 8 p.length

namespace SessionAt

variable {t : Tree} {p : List Bool} {s : State}

theorem ne_idle (h : SessionAt t p s) : s.decState ≠ .idle := by
  rw [h.state]
  split <;> simp

theorem pending_toNat (h : SessionAt t p s) : s.cursor.pending.toNat = p.length := by
  rw [h.pending]
  exact Nat.mod_eq_of_lt (Nat.lt_succ_of_le (h.arena.path_length h.node))

/-- The cursor's child is the node one bit further on the path. -/
theorem child_eq (h : SessionAt t p s) {b : Bool} {j : NodeIdx} {sym : Option Byte} {l r : Tree}
    (hj : t.sub (p ++ [b]) = .node j sym l r) : s.nodes[s.cursor.node].child b = some j ∧ s.nodes[j].sym = sym := by
  obtain ⟨hsym, -⟩ := hj ▸ Tree.sub_inArena h.arena.entries (p ++ [b])
  exact ⟨by rw [← Tree.sub_concat_link h.arena.entries h.node b, hj]; rfl, hsym⟩

/-- A bit that leads to a leaf emits its symbol and returns the cursor to the root (R192). -/
theorem decBit_leaf (h : SessionAt t p s) {b : Bool} {j : NodeIdx} {c : Byte} {l r : Tree}
    (hj : t.sub (p ++ [b]) = .node j (some c) l r) :
    ∃ u, exec (.decBit b) s = .next u ∧ SessionAt t [] u ∧ u.decOut = ⟨true, c⟩ ∧ u.decCount = s.decCount + 1#32 := by
  obtain ⟨hchild, hsym⟩ := h.child_eq hj
  exact ⟨_, exec_decBit_emits h.noError h.ne_idle hchild hsym,
    ⟨h.arena.congr rfl rfl rfl rfl, h.full, h.noError, rfl, h.arena.root_path, rfl⟩, rfl, rfl⟩

/-- A bit that leads to an internal node moves the cursor there and emits nothing (R192). -/
theorem decBit_internal (h : SessionAt t p s) {b : Bool} {j : NodeIdx} {l r : Tree} (hj : t.sub (p ++ [b]) = .node j none l r) :
    ∃ u, exec (.decBit b) s = .next u ∧ SessionAt t (p ++ [b]) u ∧ u.decOut.valid = false ∧ u.decCount = s.decCount := by
  obtain ⟨hchild, hsym⟩ := h.child_eq hj
  refine ⟨_, exec_decBit_descends h.noError h.ne_idle hchild hsym,
    ⟨h.arena.congr rfl rfl rfl rfl, h.full, h.noError, by simp, by rw [hj]; rfl, ?_⟩, rfl, rfl⟩
  rw [List.length_append, List.length_singleton, BitVec.ofNat_add, ← h.pending]
  rfl

end SessionAt

/-- DEC_BEGIN opens a session at the root of the tree (R191). -/
theorem ArenaHolds.decBegin {s : State} {t : Tree} (ht : ArenaHolds s t) (hf : t.full = true) (he : s.err = false) :
    SessionAt t [] (Machine.decBegin s).complete :=
  ⟨ht.congr rfl rfl rfl rfl, hf, he, rfl, ht.root_path, rfl⟩

/-! ## Runs of DEC_BIT -/

theorem decodeBits_cons {b : Bool} {bits : List Bool} {s u v : State} {out : List Byte} (hb : exec (.decBit b) s = .next u)
    (hbits : decodeBits bits u = some (v, out)) :
    decodeBits (b :: bits) s = some (v, if u.decOut.valid then u.decOut.sym :: out else out) := by
  simp only [decodeBits, hb, hbits]

/-- The symbols of two bit strings one after the other are those of the first and then those of the second. -/
theorem decodeBits_append {p q : List Bool} {s u v : State} {out out' : List Byte} (hp : decodeBits p s = some (u, out))
    (hq : decodeBits q u = some (v, out')) : decodeBits (p ++ q) s = some (v, out ++ out') := by
  induction p generalizing s out with
  | nil =>
    obtain ⟨rfl, rfl⟩ := Prod.mk.inj (Option.some.inj hp)
    exact hq
  | cons b p ih =>
    cases hb : exec (.decBit b) s with
    | fault r => simp [decodeBits, hb] at hp
    | refused r => simp [decodeBits, hb] at hp
    | next w =>
      cases hw : decodeBits p w with
      | none => simp [decodeBits, hb, hw] at hp
      | some x =>
        obtain ⟨u', out₀⟩ := x
        obtain ⟨rfl, rfl⟩ := Prod.mk.inj (Option.some.inj ((decodeBits_cons hb hw).symm.trans hp))
        rw [List.cons_append, decodeBits_cons hb (ih hw)]
        cases w.decOut.valid <;> rfl

namespace SessionAt

variable {t : Tree} {p : List Bool} {s : State}

/-- Bits that stop short of the end of a path emit nothing (R198 (a)). -/
theorem decodeBits_short (h : SessionAt t p s) {q q' : List Bool} {j : NodeIdx} (hq' : q' ≠ [])
    (hj : (t.sub (p ++ q ++ q')).link = some j) :
    ∃ u, decodeBits q s = some (u, []) ∧ SessionAt t (p ++ q) u ∧ u.decCount = s.decCount := by
  induction q generalizing p s with
  | nil => exact ⟨s, rfl, by rwa [List.append_nil], rfl⟩
  | cons b q ih =>
    rw [List.append_cons p b q] at hj ⊢
    obtain ⟨i, l, r, hi⟩ := Tree.sym_none_of_past h.full (p := p ++ [b]) (q := q ++ q') (by simp [hq']) (by rwa [← List.append_assoc])
    obtain ⟨w, hw, hsession, hnothing, hcount⟩ := h.decBit_internal hi
    obtain ⟨u, hu, hend, hcount'⟩ := ih hsession hj
    exact ⟨u, by rw [decodeBits_cons hw hu, hnothing]; rfl, hend, hcount'.trans hcount⟩

/-- The whole path of a leaf emits its symbol alone and returns to the root (R197). -/
theorem decodeBits_path (h : SessionAt t [] s) {q : List Bool} (hq : q ≠ []) {i : NodeIdx} {c : Byte} {l r : Tree}
    (hleaf : t.sub q = .node i (some c) l r) :
    ∃ u, decodeBits q s = some (u, [c]) ∧ SessionAt t [] u ∧ u.decCount = s.decCount + 1#32 := by
  obtain ⟨q, b, rfl⟩ := (List.eq_nil_or_concat' q).resolve_left hq
  obtain ⟨w, hw, hsession, hcount⟩ := h.decodeBits_short (q := q) (q' := [b]) (j := i) (by simp) (by rw [List.nil_append, hleaf]; rfl)
  obtain ⟨u, hu, hroot, hout, hcount'⟩ := hsession.decBit_leaf (by rw [List.nil_append]; exact hleaf)
  have hlast : decodeBits [b] w = some (u, [c]) := by rw [decodeBits_cons hu rfl, hout]; rfl
  exact ⟨u, decodeBits_append hw hlast, hroot, by rw [hcount', hcount]⟩

/-- The paths of leaves one after the other emit the leaves' symbols in order (R197). -/
theorem decodeBits_paths (h : SessionAt t [] s) (htwo : 2 ≤ t.syms.length) (rows : List Row)
    (hrows : ∀ r ∈ rows, ∃ i lt rt, t.sub r.bits = .node i (some r.sym) lt rt) :
    ∃ u, decodeBits (rows.map Row.bits).flatten s = some (u, rows.map Row.sym) ∧ SessionAt t [] u ∧
      u.decCount = s.decCount + BitVec.ofNat 32 rows.length := by
  induction rows generalizing s with
  | nil => exact ⟨s, rfl, h, by simp⟩
  | cons x rows ih =>
    obtain ⟨hx, hrest⟩ := List.forall_mem_cons.1 hrows
    obtain ⟨i, lt, rt, hleaf⟩ := hx
    obtain ⟨w, hw, hroot, hcount⟩ := h.decodeBits_path (Tree.path_ne_nil_of_leaf h.full htwo hleaf) hleaf
    obtain ⟨u, hu, hend, hcount'⟩ := ih hroot hrest
    refine ⟨u, decodeBits_append hw hu, hend, ?_⟩
    rw [hcount', hcount, List.length_cons, Nat.add_comm, BitVec.ofNat_add, BitVec.add_assoc]

end SessionAt

/-! ## The obligations about a session -/

/-- Settles O50: each row's path leads from the root to the row's leaf, which emits and returns to the root. -/
theorem decodingAnEncodedSequenceGivesItBack : Obligations.DecodingAnEncodedSequenceGivesItBack := by
  intro s hinv he hc htwo rows hmem
  have hs := hinv.valid_of_ctValid hc
  obtain ⟨-, t, ht, hf, htable, -⟩ := hinv.valid hs
  obtain ⟨-, hrows⟩ := htable hc
  obtain ⟨e, hdecode, hsession, hcount⟩ := (ht.decBegin hf he).decodeBits_paths (ht.leaves ▸ htwo) rows
    fun r hr => ht.leaf_of_mem_liveRows hrows (hmem r hr)
  exact ⟨_, e, _, exec_decBegin he ((valid_iff _).2 hs), hdecode, hsession.noError,
    exec_decEnd_atRoot hsession.noError hsession.state, hsession.noError, rfl, hcount.trans (BitVec.zero_add _)⟩

/-- Settles O51: a row's path leads past the node where its first bits stop, so that node is internal and emits nothing. -/
theorem truncatedCodeWordsAreReported : Obligations.TruncatedCodeWordsAreReported := by
  intro s hinv he hc r p q hr hbits hp hq
  have hs := hinv.valid_of_ctValid hc
  obtain ⟨-, t, ht, hf, htable, -⟩ := hinv.valid hs
  obtain ⟨-, hrows⟩ := htable hc
  obtain ⟨i, lt, rt, hleaf⟩ := ht.leaf_of_mem_liveRows hrows hr
  have hend : (t.sub ([] ++ p ++ q)).link = some i := by rw [List.nil_append, ← hbits, hleaf]; rfl
  obtain ⟨e, hdecode, hsession, -⟩ := (ht.decBegin hf he).decodeBits_short hq hend
  exact ⟨_, e, exec_decBegin he ((valid_iff _).2 hs), hdecode, hsession.noError, hsession.pending_toNat,
    exec_decEnd_truncated hsession.noError (hsession.state.trans (if_neg hp))⟩

end Sys2Proof.Safety
end

section
/-! SUPPORT. The dispatch of R226 from the core's turn: what is discarded, what the sequencing table refuses (60_exceptions.md R226, R227,
R232). -/

namespace Sys2Proof.Safety

open Sys2Proof.Machine

/-! ## The sequencing table -/

theorem allowed_iff (i : Instr) (s : State) : allowed i s = true ↔ SpecAllowed i s := by
  cases i with
  | serialize => exact valid_iff _
  | decBegin => exact valid_iff _
  | _ => simp [allowed, SpecAllowed]

/-- A command that its row of R227 refuses raises SEQUENCE. -/
theorem exec_of_not_specAllowed {i : Instr} {s : State} (he : s.err = false) (h : ¬ SpecAllowed i s) :
    exec i s = .next (recorded s i.opcode 0#8 5#8) := by
  have hr : i ≠ .softReset := fun hi => h (hi ▸ trivial)
  have hc : i ≠ .errClear := fun hi => h (hi ▸ trivial)
  exact exec_sequence hr hc he (Bool.eq_false_iff.2 fun ha => h ((allowed_iff i s).1 ha))

theorem CoreMoves.specAllowed_iff {s u : State} (h : CoreMoves s u) (i : Instr) : SpecAllowed i u ↔ SpecAllowed i s := by
  rw [h.eq_inputs]
  cases i <;> rfl

/-! ## Discarding while STATUS.ERR = 1 -/

theorem exec_discard {i : Instr} {s : State} (he : s.err = true) (hc : i ≠ .errClear) (hr : i ≠ .softReset) :
    exec i s = .next s.complete := by
  rw [exec_eq_runCommand hr hc, runCommand_discard _ he]

/-- Whatever the word is, but for the two recovery commands, the core's turn only completes the handshake (R226, R232). -/
theorem CoreMoves.step_discards {s u : State} (h : CoreMoves s u) (hi : s.initPending = false) (hp : s.pend.valid = true)
    (he : s.err = true) (hc : decode s.pend.word ≠ .command .errClear) (hr : decode s.pend.word ≠ .command .softReset) :
    step s = .next { u with pend := ⟨false, s.pend.word⟩ } := by
  cases hd : decode s.pend.word with
  | illegal why => exact h.step_illegal_ignored hi hp he hd
  | command i =>
    rw [hd] at hc hr
    rw [h.step_eq_exec hi hp hd, exec_discard (h.err_eq.trans he) (fun hi => hc (congrArg _ hi)) (fun hi => hr (congrArg _ hi)),
      State.complete, h.pend_eq]

/-- Settles O16: a command or a word is discarded before anything else is looked at, and the two recovery commands' rules end without an
error. -/
theorem errorsDoNotNest : Obligations.ErrorsDoNotNest := by
  refine ⟨fun i s he hc hr => exec_discard he hc hr, fun s u hm hi hp he hc hr => ?_, ?_⟩
  · have hidle : ({ u with pend := ⟨false, s.pend.word⟩ } : State).busy = false := hm.initPending_eq.trans hi
    exact ⟨_, hm.step_discards hi hp he hc hr, rfl, hidle⟩
  · rintro i s (rfl | rfl)
    · exact ⟨_, exec_errClear s, rfl⟩
    · exact ⟨_, exec_softReset s, rfl⟩

/-! ## The order of the dispatch -/

/-- The word of a command has the command's opcode in OP (R81, R83). -/
theorem wordOp_of_decode {w : Word} {i : Instr} (h : decode w = .command i) : wordOp w = i.opcode := by
  obtain ⟨hcommand, -⟩ := decode_eq_command_iff.1 h
  obtain ⟨hop, -⟩ := commandOf_eq_some_iff.1 hcommand
  exact hop

/-- A pending command that its row of R227 refuses raises SEQUENCE in the core's turn, with the word's low byte as OP. -/
theorem CoreMoves.step_out_of_sequence {s u : State} {i : Instr} (h : CoreMoves s u) (hi : s.initPending = false)
    (hp : s.pend.valid = true) (he : s.err = false) (hd : decode s.pend.word = .command i) (ha : ¬ SpecAllowed i s) :
    step s = .next (recorded u (wordOp s.pend.word) 0#8 5#8) := by
  rw [h.step_eq_exec hi hp hd, wordOp_of_decode hd,
    exec_of_not_specAllowed (h.err_eq.trans he) fun hu => ha ((h.specAllowed_iff i).1 hu)]

/-- Settles O14: each arm of the core's step, in the order in which it tries them. -/
theorem dispatchFollowsItsOrder : Obligations.DispatchFollowsItsOrder := by
  refine fun s u hm => ⟨fun hi => ?_, fun hi hp => ?_, fun hi hp => ⟨fun _ i hd _ => ?_, fun he hr hc => ?_, fun he hd => ?_,
    fun he hd => ?_, fun he i hd ha => ?_, fun _ i hd _ => ?_⟩⟩
  · exact ⟨_, hm.step_eq.trans (coreStep_initJob (hm.initPending_eq.trans hi)), fun _ => rfl, rfl⟩
  · exact hm.step_eq.trans (coreStep_idle (hm.busy_eq.trans (Bool.or_eq_false_iff.2 ⟨hp, hi⟩)))
  · exact hm.step_eq_exec hi hp hd
  · exact hm.step_discards hi hp he hc hr
  · exact hm.step_illegal_raises hi hp he hd
  · exact hm.step_illegal_raises hi hp he hd
  · exact hm.step_out_of_sequence hi hp he hd ha
  · exact hm.step_eq_exec hi hp hd

end Sys2Proof.Safety
end

section
/-! SUPPORT. The errors that each command's own rule can raise, and the state that each leaves (60_exceptions.md R223 to R225). -/

namespace Sys2Proof.Safety

open Sys2Proof.Machine

/-! ## The effect of an error -/

/-- What an error does beside its record (R225): CONSTRUCTION and FORMAT discard the tree, TRUNCATED and DEGENERATE end the session. -/
def effectOf (s : State) : ErrorKind → State
  | .construction => s.discardTree
  | .format _ => s.discardTree
  | .truncated => { s with decState := .idle }
  | .degenerate => { s with decState := .idle }
  | .sequence => s
  | .symbolAbsent => s
  | .illegalCmd _ => s

theorem effectOf_discards {e : ErrorKind} (h : e.code = 1#8 ∨ e.code = 2#8) (s : State) : effectOf s e = s.discardTree := by
  cases e <;> simp [ErrorKind.code, effectOf] at h ⊢

theorem effectOf_endsSession {e : ErrorKind} (h : e.code = 3#8 ∨ e.code = 4#8) (s : State) :
    effectOf s e = { s with decState := .idle } := by
  cases e <;> simp [ErrorKind.code, effectOf] at h ⊢

theorem effectOf_nothing {e : ErrorKind} (h : e.code = 5#8 ∨ e.code = 6#8) (s : State) : effectOf s e = s := by
  cases e <;> simp [ErrorKind.code, effectOf] at h ⊢

/-- The state after an error of the command of opcode `op`, the handshake completed (R224, R225). -/
def raised (s : State) (op : Byte) (e : ErrorKind) : State := recorded (effectOf s e) op e.sub e.code

/-- Raising an error, with the handshake completed: the effect that is the raise's own, and the record. -/
theorem complete_raise {s : State} (he : s.err = false) (op : Byte) (e : ErrorKind) :
    (s.raise op e).complete = recorded (s.errorEffect e) op e.sub e.code := by
  rw [State.raise_of_clear he]
  cases e <;> rfl

/-! ## The errors of each rule -/

/-- The errors that a command's own rule checks for, in the order in which it does: its row of R223 without SEQUENCE. -/
def ruleErrors : Instr → List ErrorKind
  | .build => [.construction]
  | .encode _ => [.symbolAbsent]
  | .loadSym => [.format .incompleteRow, .format .codepointRange, .format .duplicateSymbol]
  | .loadChar _ => [.format .incompleteRow, .format .badChar, .format .pathTooLong, .format .pathThroughLeaf, .format .capacity]
  | .loadRowEnd => [.format .incompleteRow, .format .duplicatePath, .format .assignToInternal]
  | .loadEnd => [.format .incompleteRow, .format .emptyTable, .format .incompleteTree]
  | .decBit _ => [.degenerate]
  | .decEnd => [.truncated]
  | .nop => []
  | .softReset => []
  | .errClear => []
  | .freqClear => []
  | .serialize => []
  | .loadBegin => []
  | .decBegin => []

theorem map_ruleErrors (i : Instr) :
    (ruleErrors i).map (fun e => (e.code, e.sub)) = (listedErrors i).filter fun p => p.1 != 5#8 := by
  cases i <;> rfl

theorem mem_ruleErrors {i : Instr} {e : ErrorKind} (h : e ∈ ruleErrors i) : (e.code, e.sub) ∈ listedErrors i ∧ e.code ≠ 5#8 := by
  have hmem := List.mem_map_of_mem (f := fun e : ErrorKind => (e.code, e.sub)) h
  rw [map_ruleErrors, List.mem_filter] at hmem
  exact hmem.imp_right fun hne => by simpa using hne

/-- The rule of i ends in u without an error, or in one of its errors raised from s. -/
def EndsInListed (i : Instr) (s u : State) : Prop := u.err = false ∨ ∃ e ∈ ruleErrors i, u.complete = raised s i.opcode e

section

variable {i : Instr} {s u v : State}

theorem EndsInListed.ite {c : Prop} [Decidable c] (hu : EndsInListed i s u) (hv : EndsInListed i s v) :
    EndsInListed i s (if c then u else v) := by
  split
  · exact hu
  · exact hv

/-- An error of i raised from a state v that the rule has gone on to from s: the raise does what v still lacks of its effect. -/
theorem endsInListed_raise (hv : v.err = false) {e : ErrorKind} (hm : e ∈ ruleErrors i) (heff : v.errorEffect e = effectOf s e) :
    EndsInListed i s (v.raise i.opcode e) :=
  .inr ⟨e, hm, (complete_raise hv _ _).trans (congrArg (recorded · _ _ _) heff)⟩

theorem endsInListed_format (he : s.err = false) {sub : FormatSub} (hm : .format sub ∈ ruleErrors i) :
    EndsInListed i s (s.raise i.opcode (.format sub)) :=
  endsInListed_raise he hm rfl

end

section

variable {s : State} (he : s.err = false)

include he

theorem buildTree_endsInListed : EndsInListed .build s (buildTree s) := by
  rcases buildTree_cases s with ⟨-, hb⟩ | ⟨-, hb⟩ <;> rw [hb]
  · exact endsInListed_raise (v := s.discardTree) he (by simp [ruleErrors]) rfl
  · exact .inl he

theorem loadSym_endsInListed : EndsInListed .loadSym s (loadSym s) := by
  refine .ite (endsInListed_format he (by simp [ruleErrors])) ?_
  cases s.dataSymbol with
  | none => exact endsInListed_format he (by simp [ruleErrors])
  | some sym => exact .ite (endsInListed_format he (by simp [ruleErrors])) (.inl he)

theorem loadChar_endsInListed (c : Byte) : EndsInListed (.loadChar c) s (loadChar c s) := by
  refine .ite (endsInListed_format he (by simp [ruleErrors])) ?_
  cases charBit c with
  | none => exact endsInListed_format he (by simp [ruleErrors])
  | some b =>
    refine .ite (endsInListed_format he (by simp [ruleErrors])) (.ite (endsInListed_format he (by simp [ruleErrors])) ?_)
    cases hd : s.descendOrMake s.loadCur.node b with
    | none => exact endsInListed_format he (by simp [ruleErrors])
    | some p =>
      have herr : p.2.err = s.err := by rw [State.descendOrMake_frame hd]
      exact .inl (herr.trans he)

theorem loadRowEnd_endsInListed : EndsInListed .loadRowEnd s (loadRowEnd s) :=
  .ite (endsInListed_format he (by simp [ruleErrors])) <| .ite (endsInListed_format he (by simp [ruleErrors])) <|
    .ite (endsInListed_format he (by simp [ruleErrors])) (.inl he)

theorem loadEnd_endsInListed : EndsInListed .loadEnd s (loadEnd s) :=
  .ite (endsInListed_format he (by simp [ruleErrors])) <| .ite (endsInListed_format he (by simp [ruleErrors])) <|
    .ite (endsInListed_format he (by simp [ruleErrors])) (.inl he)

theorem encodeSymbol_endsInListed (sym : Byte) : EndsInListed (.encode sym) s (encodeSymbol sym s) := by
  rcases encodeSymbol_cases sym s with hl | ⟨r, -, hl⟩ <;> rw [hl]
  · exact endsInListed_raise he (by simp [ruleErrors]) rfl
  · exact .inl he

theorem decBit_endsInListed (b : Bool) : EndsInListed (.decBit b) s (decBit b s) := by
  rcases decBit_cases b s with ⟨-, hd⟩ | ⟨j, -, ⟨sym, -, hd⟩ | ⟨-, hd⟩⟩ <;> rw [hd]
  · exact endsInListed_raise (v := { s with decState := .idle }) he (by simp [ruleErrors]) rfl
  · exact .inl he
  · exact .inl he

theorem decEnd_endsInListed : EndsInListed .decEnd s (decEnd s) := by
  rcases decEnd_cases s with hd | hd <;> rw [hd]
  · exact endsInListed_raise (v := { s with decState := .idle }) he (by simp [ruleErrors]) rfl
  · exact .inl he

/-- Each rule ends without an error or in one that R223 lists for its command. -/
theorem commandRule_endsInListed {i : Instr} {u : State} (h : commandRule i s = .next u) : EndsInListed i s u := by
  cases i with
  | serialize => obtain ⟨rows, -, -, rfl⟩ := serializeTree_next h; exact .inl he
  | build => obtain rfl := Host.Outcome.next.inj h; exact buildTree_endsInListed he
  | loadSym => obtain rfl := Host.Outcome.next.inj h; exact loadSym_endsInListed he
  | loadChar c => obtain rfl := Host.Outcome.next.inj h; exact loadChar_endsInListed he c
  | loadRowEnd => obtain rfl := Host.Outcome.next.inj h; exact loadRowEnd_endsInListed he
  | loadEnd => obtain rfl := Host.Outcome.next.inj h; exact loadEnd_endsInListed he
  | encode sym => obtain rfl := Host.Outcome.next.inj h; exact encodeSymbol_endsInListed he sym
  | decBit b => obtain rfl := Host.Outcome.next.inj h; exact decBit_endsInListed he b
  | decEnd => obtain rfl := Host.Outcome.next.inj h; exact decEnd_endsInListed he
  | softReset => obtain rfl := Host.Outcome.next.inj h; exact .inl rfl
  | errClear => obtain rfl := Host.Outcome.next.inj h; exact .inl rfl
  | nop => obtain rfl := Host.Outcome.next.inj h; exact .inl he
  | freqClear => obtain rfl := Host.Outcome.next.inj h; exact .inl he
  | loadBegin => obtain rfl := Host.Outcome.next.inj h; exact .inl he
  | decBegin => obtain rfl := Host.Outcome.next.inj h; exact .inl he

/-! ## The errors of each command -/

/-- A command that ends in an error has raised SEQUENCE in the dispatch, or one of its rule's errors (R226). -/
theorem exec_error_cases {i : Instr} {t : State} (h : exec i s = .next t) (ht : t.err = true) :
    (¬ SpecAllowed i s ∧ t = raised s i.opcode .sequence) ∨ (SpecAllowed i s ∧ ∃ e ∈ ruleErrors i, t = raised s i.opcode e) := by
  rcases exec_cases h with ⟨hset, -⟩ | ⟨-, ha, rfl⟩ | ⟨-, ha, u, hu, rfl⟩
  · exact absurd (he.symm.trans hset) Bool.false_ne_true
  · exact .inl ⟨fun hs => Bool.eq_false_iff.1 ha ((allowed_iff i s).2 hs), complete_raise he _ _⟩
  · rcases commandRule_endsInListed he hu with hclear | hraised
    · exact absurd (hclear.symm.trans ht) Bool.false_ne_true
    · exact .inr ⟨(allowed_iff i s).1 ha, hraised⟩

/-- Every error of a command leaves the state that R225 gives for it. -/
theorem exec_error_eq_raised {i : Instr} {t : State} (h : exec i s = .next t) (ht : t.err = true) : ∃ e, t = raised s i.opcode e := by
  rcases exec_error_cases he h ht with ⟨-, ht⟩ | ⟨-, e, -, ht⟩
  · exact ⟨_, ht⟩
  · exact ⟨e, ht⟩

end

/-- A command whose row of R227 can fail has SEQUENCE in its row of R223. -/
theorem sequence_listed {i : Instr} {s : State} (h : ¬ SpecAllowed i s) : (5#8, 0#8) ∈ listedErrors i := by
  cases i <;> simp [SpecAllowed, listedErrors] at h ⊢

/-- Settles O18: the dispatch raises SEQUENCE only for a command with a condition, and a rule raises only its own errors. -/
theorem commandsRaiseOnlyTheirListedErrors : Obligations.CommandsRaiseOnlyTheirListedErrors := by
  intro i s t he h ht
  rcases exec_error_cases he h ht with ⟨hs, rfl⟩ | ⟨-, e, hm, rfl⟩
  · exact ⟨rfl, sequence_listed hs⟩
  · exact ⟨rfl, (mem_ruleErrors hm).1⟩

/-- Settles O17: SEQUENCE is raised by the dispatch alone, where the row of R227 fails, and the loader's pairing by its first checks. -/
theorem commandsOutOfSequenceRaiseSequence : Obligations.CommandsOutOfSequenceRaiseSequence := by
  refine ⟨fun i s he ha => exec_of_not_specAllowed he ha, fun i s t he ha h ht => ?_, fun s he hs => ⟨fun ho => ?_, fun ho => ?_⟩⟩
  · rcases exec_error_cases he h ht with ⟨hna, -⟩ | ⟨-, e, hm, rfl⟩
    · exact absurd ha hna
    · exact (mem_ruleErrors hm).2
  · have hsym : loadSym s = s.raise Instr.loadSym.opcode (.format .incompleteRow) := if_pos ho
    have hend : loadEnd s = s.raise Instr.loadEnd.opcode (.format .incompleteRow) := if_pos ho
    exact ⟨loadCommand_loadSym.exec_format he hs rfl hsym, loadCommand_loadEnd.exec_format he hs rfl hend⟩
  · have hclosed : (!s.rowOpen) = true := by rw [ho]; rfl
    have hchar : ∀ c, loadChar c s = s.raise (Instr.loadChar c).opcode (.format .incompleteRow) := fun c => if_pos hclosed
    have hrow : loadRowEnd s = s.raise Instr.loadRowEnd.opcode (.format .incompleteRow) := if_pos hclosed
    exact ⟨fun c => (loadCommand_loadChar c).exec_format he hs rfl (hchar c), loadCommand_loadRowEnd.exec_format he hs rfl hrow⟩

/-! ## What an error, or a new tree, leaves of the old one -/

/-- BUILD and LOAD_BEGIN, where they succeed, put a new tree where discard_tree has left none (R120, R161). -/
theorem exec_newTree {i : Instr} {s t : State} (hi : i = .build ∨ i = .loadBegin) (he : s.err = false) (h : exec i s = .next t)
    (ht : t.err = false) :
    t = { s.discardTree with
      nodes := t.nodes, root := t.root, nodeCount := t.nodeCount, leafCount := t.leafCount, treeState := t.treeState,
      pend := donePend s } := by
  rcases hi with rfl | rfl
  · have hrun : exec .build s = .next (buildTree s).complete := exec_run (i := .build) (by decide) (by decide) he rfl rfl
    obtain rfl := Host.Outcome.next.inj (hrun.symm.trans h)
    rcases buildTree_cases s with ⟨-, hb⟩ | ⟨-, hb⟩
    · simp [hb] at ht
    · rw [hb]
      rfl
  · obtain rfl := Host.Outcome.next.inj ((exec_loadBegin he).symm.trans h)
    rfl

/-- Settles O20: each error leaves the state of its code's effect with the record in it, and a new tree starts from discard_tree's state. -/
theorem errorsHaveTheirListedEffects : Obligations.ErrorsHaveTheirListedEffects := by
  refine ⟨fun i s t he h ht => ?_, fun s u why hm hi hp he hd => ?_, fun i s t hi he h ht => ?_⟩
  · obtain ⟨e, rfl⟩ := exec_error_eq_raised he h ht
    refine ⟨fun hcode => ?_, fun hcode => ?_, fun hcode => ?_⟩
    · rw [raised, effectOf_discards hcode]
      rfl
    · rw [raised, effectOf_endsSession hcode]
      rfl
    · rw [raised, effectOf_nothing hcode]
      rfl
  · exact ⟨_, hm.step_illegal_raises hi hp he hd, rfl, rfl⟩
  · rw [exec_newTree hi he h ht]
    exact ⟨rfl, rfl, rfl, rfl, rfl, rfl, rfl, rfl, rfl, rfl, rfl, rfl⟩

end Sys2Proof.Safety
end

section
/-! SUPPORT. Two states that differ in stale entries alone: what they share, and the operations that keep them so (10_state.md R41, R44,
70_reset_and_hazards.md R252). -/

namespace Sys2Proof.Safety

open Sys2Proof.Machine

/-- The first k entries of two arrays that agree on them. -/
theorem take_toList_congr {α : Type} {n : Nat} {v v' : Vector α n} {k : Nat} (h : ∀ i : Fin n, i.val < k → v'[i] = v[i]) :
    v'.toList.take k = v.toList.take k := by
  refine List.ext_getElem (by simp) fun i hi _ => ?_
  simp only [List.length_take, Vector.length_toList, lt_min_iff] at hi
  simpa using h ⟨i, hi.2⟩ hi.1

/-- The same entry written to two arrays that agree on some entries: they agree on those and on the entry written. -/
theorem set_congr {nodes nodes' : Vector Node 511} {i k : NodeIdx} (n : Node) (h : k ≠ i → nodes'[k] = nodes[k]) :
    (nodes'.set i.val n i.isLt)[k] = (nodes.set i.val n i.isLt)[k] := by
  simp only [Fin.getElem_fin, Vector.getElem_set]
  exact if_ctx_congr Iff.rfl (fun _ => rfl) fun hne => h fun hk => hne (congrArg Fin.val hk.symm)

/-- A read sees PEND.VALID, in BUSY, and nothing else of PEND. -/
theorem readWord_withPend {s : State} {p : Pend} (hp : p.valid = s.pend.valid) (a : WordAddr) :
    ({ s with pend := p } : State).readWord a = s.readWord a := by
  have hbusy : ({ s with pend := p } : State).busy = s.busy := congrArg (· || s.initPending) hp
  cases hb : s.busy with
  | true =>
    rw [State.readWord_busy hb, State.readWord_busy (hbusy.trans hb)]
    rfl
  | false =>
    rw [State.readWord_idle hb, State.readWord_idle (hbusy.trans hb)]
    cases target a with
    | status => simp only [State.idleRead, State.statusWord, hbusy]
    | _ => rfl

namespace SameLive

variable {s s' : State}

theorem refl (s : State) : SameLive s s := ⟨rfl, fun _ _ => rfl, fun _ _ => rfl, rfl, fun _ => rfl⟩

/-! ## What the two states share -/

theorem frame (h : SameLive s s') : s' = { s with nodes := s'.nodes, ct := s'.ct, pend := s'.pend } := by
  obtain ⟨hframe, -⟩ := h
  exact hframe

/-- The second state is the first one with other arrays and another PEND, so that every other field of it is the first one's by reduction. -/
theorem exists_entries (h : SameLive s s') : ∃ nodes ct pend, s' = { s with nodes := nodes, ct := ct, pend := pend } :=
  ⟨_, _, _, h.frame⟩

theorem node_eq (h : SameLive s s') {i : NodeIdx} (hi : i.val < s.nodeCount.val) : s'.nodes[i] = s.nodes[i] := by
  obtain ⟨-, hnodes, -⟩ := h
  exact hnodes i hi

/-- The same, where each state names the node by its own register. -/
theorem node_eq_at (h : SameLive s s') {i i' : NodeIdx} (hidx : i' = i) (hi : i.val < s.nodeCount.val) : s'.nodes[i'] = s.nodes[i] := by
  subst hidx
  exact h.node_eq hi

theorem row_eq (h : SameLive s s') {r : Fin 256} (hr : r.val < s.rowCount.toNat) : s'.ct[r] = s.ct[r] := by
  obtain ⟨-, -, hct, -⟩ := h
  exact hct r hr

theorem valid_eq (h : SameLive s s') : s'.pend.valid = s.pend.valid := by
  obtain ⟨-, -, -, hvalid, -⟩ := h
  exact hvalid

theorem word_eq (h : SameLive s s') (hp : s.pend.valid = true) : s'.pend.word = s.pend.word := by
  obtain ⟨-, -, -, -, hword⟩ := h
  exact hword hp

theorem err_eq (h : SameLive s s') : s'.err = s.err := by rw [h.frame]

theorem initPending_eq (h : SameLive s s') : s'.initPending = s.initPending := by rw [h.frame]

theorem inputs_eq (h : SameLive s s') : s'.inputs = s.inputs := by rw [h.frame]

theorem busy_eq (h : SameLive s s') : s'.busy = s.busy := by rw [State.busy, h.valid_eq, h.initPending_eq, State.busy]

theorem allowed_eq (h : SameLive s s') (i : Instr) : allowed i s' = allowed i s := by
  obtain ⟨nodes, ct, pend, rfl⟩ := h.exists_entries
  cases i <;> rfl

theorem liveNodes_eq (h : SameLive s s') : s'.liveNodes = s.liveNodes := by
  obtain ⟨nodes, ct, pend, rfl⟩ := h.exists_entries
  exact take_toList_congr fun _ => h.node_eq

theorem liveRows_eq (h : SameLive s s') : s'.liveRows = s.liveRows := by
  obtain ⟨nodes, ct, pend, rfl⟩ := h.exists_entries
  exact take_toList_congr fun _ => h.row_eq

/-- The tree of the invariant lies in the live entries, so the second state holds it too. -/
theorem inArena (h : SameLive s s') {t : Tree} (ht : ArenaHolds s t) : t.inArena s'.nodes :=
  Tree.inArena_congr ht.entries fun i hi => h.node_eq ((ht.live i).1 hi)

theorem readWord_eq (h : SameLive s s') (a : WordAddr) : s'.readWord a = s.readWord a := by
  obtain ⟨nodes, ct, pend, rfl⟩ := h.exists_entries
  calc ({ s with nodes := nodes, ct := ct, pend := pend } : State).readWord a
    _ = ({ s with nodes := nodes, ct := ct } : State).readWord a :=
      readWord_withPend (s := { s with nodes := nodes, ct := ct }) h.valid_eq a
    _ = s.readWord a := readWord_congr (fun _ => h.node_eq) (fun _ => h.row_eq) a

/-! ## Operations on both -/

section

variable {u u' : State}

/-- Two states made from these by writing the same registers, not the arrays, their counts or PEND. -/
theorem of_frame (h : SameLive s s') (hu' : u' = { u with nodes := s'.nodes, ct := s'.ct, pend := s'.pend })
    (hu : u = { u with nodes := s.nodes, nodeCount := s.nodeCount, ct := s.ct, rowCount := s.rowCount, pend := s.pend }) :
    SameLive u u' := by
  rw [hu', hu]
  exact ⟨rfl, fun _ => h.node_eq, fun _ => h.row_eq, h.valid_eq, h.word_eq⟩

theorem of_ite {c : Prop} [Decidable c] {v v' : State} (hu : SameLive u u') (hv : SameLive v v') :
    SameLive (if c then u else v) (if c then u' else v') := by
  split
  · exact hu
  · exact hv

end

theorem complete (h : SameLive s s') : SameLive s.complete s'.complete := by
  obtain ⟨nodes, ct, pend, rfl⟩ := h.exists_entries
  exact ⟨rfl, fun _ => h.node_eq, fun _ => h.row_eq, rfl, fun hp => absurd hp Bool.false_ne_true⟩

/-- discard_tree leaves no entry live. -/
theorem discardTree (h : SameLive s s') : SameLive s.discardTree s'.discardTree := by
  obtain ⟨nodes, ct, pend, rfl⟩ := h.exists_entries
  exact ⟨rfl, fun _ hi => absurd hi (Nat.not_lt_zero _), fun _ hr => absurd hr (Nat.not_lt_zero _), h.valid_eq, h.word_eq⟩

theorem recordError (h : SameLive s s') (op : Byte) (e : ErrorKind) : SameLive (s.recordError op e) (s'.recordError op e) := by
  obtain ⟨nodes, ct, pend, rfl⟩ := h.exists_entries
  exact of_ite h (h.of_frame rfl rfl)

theorem raise (h : SameLive s s') (op : Byte) (e : ErrorKind) : SameLive (s.raise op e) (s'.raise op e) := by
  have hrecord := h.recordError op e
  unfold State.raise
  cases e with
  | construction => exact hrecord.discardTree
  | format sub => exact hrecord.discardTree
  | _ => exact hrecord

theorem setNode (h : SameLive s s') (i : NodeIdx) (n : Node) : SameLive (s.setNode i n) (s'.setNode i n) := by
  obtain ⟨nodes, ct, pend, rfl⟩ := h.exists_entries
  exact ⟨rfl, fun _ hk => set_congr n fun _ => h.node_eq hk, fun _ => h.row_eq, h.valid_eq, h.word_eq⟩

/-- A child put under a live node. -/
theorem setChild (h : SameLive s s') {i : NodeIdx} (hi : i.val < s.nodeCount.val) (b : Bool) (j : NodeIdx) :
    SameLive (s.setChild i b j) (s'.setChild i b j) := by
  unfold State.setChild
  rw [h.node_eq hi]
  exact of_ite (h.setNode i _) (h.setNode i _)

/-- alloc() writes the entry that it makes live (R11). -/
theorem alloc (h : SameLive s s') {j : NodeIdx} {u : State} (hu : s.alloc = some (j, u)) :
    ∃ u', s'.alloc = some (j, u') ∧ SameLive u u' := by
  obtain ⟨nodes, ct, pend, rfl⟩ := h.exists_entries
  unfold State.alloc at hu ⊢
  split at hu
  case isTrue hroom =>
    obtain ⟨rfl, rfl⟩ := Prod.mk.inj (Option.some.inj hu)
    refine ⟨_, dif_pos hroom, rfl, fun k hk => set_congr Node.empty fun hne => h.node_eq ?_, fun _ => h.row_eq, h.valid_eq, h.word_eq⟩
    exact Nat.lt_of_le_of_ne (Nat.le_of_lt_succ hk) fun he => hne (Fin.ext he)
  case isFalse => cases hu

/-- Descending from a live node takes the same child, or makes it, in both states (R163). -/
theorem descendOrMake (h : SameLive s s') {i j : NodeIdx} (hi : i.val < s.nodeCount.val) {b : Bool} {u : State}
    (hu : s.descendOrMake i b = some (j, u)) : ∃ u', s'.descendOrMake i b = some (j, u') ∧ SameLive u u' := by
  rcases State.descendOrMake_cases hu with ⟨hc, rfl⟩ | ⟨hc, v, hv, rfl⟩
  · exact ⟨s', descendOrMake_of_child (by rw [h.node_eq hi, hc]), h⟩
  · obtain ⟨v', hv', hlive⟩ := h.alloc hv
    obtain ⟨-, hcount, -⟩ := State.alloc_spec hv
    refine ⟨v'.setChild i b j, ?_, hlive.setChild (by omega) b j⟩
    simp only [State.descendOrMake, h.node_eq hi, hc, hv']

theorem descendOrMake_none (h : SameLive s s') {i : NodeIdx} (hi : i.val < s.nodeCount.val) {b : Bool}
    (hd : s.descendOrMake i b = none) : s'.descendOrMake i b = none := by
  rw [State.descendOrMake_eq_none_iff] at hd ⊢
  rwa [h.node_eq hi, congrArg State.nodeCount h.frame]

end SameLive

end Sys2Proof.Safety
end

section
/-! SUPPORT. BUILD writes every entry that it makes live, whatever the arena held before (41_tree_builder.md R120 to R125). -/

namespace Sys2Proof.Machine

namespace Builder

/-- Two work spaces of BUILD that differ in the entries from the next free index on alone. -/
structure SameMade (b b' : Builder) : Prop where
  frame : b' = { b with nodes := b'.nodes }
  made : ∀ i : NodeIdx, i.val < b.n → b'.nodes[i] = b.nodes[i]

namespace SameMade

variable {b b' : Builder}

theorem exists_nodes (h : SameMade b b') : ∃ nodes, b' = { b with nodes := nodes } := ⟨_, h.frame⟩

theorem push (h : SameMade b b') (node : Node) : SameMade (b.push node) (b'.push node) := by
  obtain ⟨nodes, rfl⟩ := h.exists_nodes
  refine ⟨rfl, fun i hi => Safety.set_congr node fun hne => h.made i ?_⟩
  have hidx : i.val ≠ b.n % 511 := fun he => hne (Fin.ext he)
  rw [Builder.push_n] at hi
  omega

theorem leafTurn (h : SameMade b b') (freq : Memory) (sym : Nat) : SameMade (b.leafTurn freq sym) (b'.leafTurn freq sym) := by
  unfold Builder.leafTurn
  split
  · exact h
  · exact h.push _

theorem mergeTurn (h : SameMade b b') (hq : 1 < b.queue.length) : SameMade b.mergeTurn b'.mergeTurn := by
  obtain ⟨nodes, rfl⟩ := h.exists_nodes
  obtain ⟨x, y, q1, q2, hx, hy, he⟩ := Builder.mergeTurn_spec hq
  obtain ⟨x', y', q1', q2', hx', hy', he'⟩ := Builder.mergeTurn_spec (b := { b with nodes := nodes }) hq
  obtain ⟨rfl, rfl⟩ := Prod.mk.inj (Option.some.inj (hx.symm.trans hx'))
  obtain ⟨rfl, rfl⟩ := Prod.mk.inj (Option.some.inj (hy.symm.trans hy'))
  rw [he, he']
  exact push (b := { b with queue := q2 }) (b' := { b with nodes := nodes, queue := q2 }) ⟨rfl, h.made⟩ _

theorem merges (h : SameMade b b') (fuel : Nat) : SameMade (Builder.merges fuel b) (Builder.merges fuel b') := by
  induction fuel generalizing b b' with
  | zero => exact h
  | succ fuel ih =>
    have hqueue : b'.queue = b.queue := by rw [h.frame]
    rw [Builder.merges, Builder.merges, hqueue]
    split
    · rename_i hq; exact ih (h.mergeTurn hq)
    · exact h

end SameMade

/-- When the leaf loop starts, no entry is made (R120). -/
theorem leavesOf_sameMade {s s' : State} (hfreq : s'.freq = s.freq) : SameMade (leavesOf s) (leavesOf s') := by
  have hstart : SameMade (start s) (start s') := ⟨rfl, fun _ hi => absurd hi (Nat.not_lt_zero _)⟩
  rw [leavesOf, leavesOf, hfreq]
  exact List.foldl_rel hstart fun sym _ _ _ h => h.leafTurn s.freq sym

theorem builtOf_sameMade {s s' : State} (hfreq : s'.freq = s.freq) : SameMade (builtOf s) (builtOf s') :=
  (leavesOf_sameMade hfreq).merges Config.syms

end Builder

end Sys2Proof.Machine
end

section
/-! SUPPORT. Every rule, every command and every step keeps two states the same but for stale entries (70_reset_and_hazards.md R252). -/

namespace Sys2Proof.Safety

open Sys2Proof.Machine

/-- In a session the cursor stands at a live node, and so does each child of it (R45 items 7 and 8). -/
theorem Inv.cursor_live {s : State} (h : Inv s) (hd : s.decState ≠ .idle) :
    s.cursor.node.val < s.nodeCount.val ∧ ∀ b j, s.nodes[s.cursor.node].child b = some j → j.val < s.nodeCount.val := by
  obtain ⟨-, t, ht, -, -, hcur⟩ := h.valid (h.valid_of_session hd)
  obtain ⟨p, hp, -⟩ := hcur.exists_path ht hd
  exact ⟨ht.live_of_path hp, fun b j hj => ht.live_of_path ((Tree.sub_concat_link ht.entries hp b).trans hj)⟩

namespace SameLive

variable {s s' : State}

/-! ## The rules -/

theorem buildTree (h : SameLive s s') : SameLive (buildTree s) (buildTree s') := by
  have hfreq : s'.freq = s.freq := by rw [h.frame]
  have hleaves : (Builder.leavesOf s').n = (Builder.leavesOf s).n := by rw [(Builder.leavesOf_sameMade hfreq).frame]
  obtain ⟨hbuilt, hmade⟩ := Builder.builtOf_sameMade hfreq
  have hresult : SameLive (Builder.result s) (Builder.result s') := by
    obtain ⟨nodes, ct, pend, rfl⟩ := h.exists_entries
    unfold Builder.result
    rw [hleaves, hbuilt]
    exact ⟨rfl, fun i hi => hmade i (Nat.lt_of_lt_of_le hi (Nat.mod_le _ _)), fun _ hr => absurd hr (Nat.not_lt_zero _), h.valid_eq,
      h.word_eq⟩
  rcases buildTree_cases s with ⟨hn, hb⟩ | ⟨hn, hb⟩ <;> rcases buildTree_cases s' with ⟨hn', hb'⟩ | ⟨hn', hb'⟩
  · rw [hb, hb']; exact h.discardTree.raise _ _
  · exact absurd (hleaves.trans hn) hn'
  · exact absurd (hleaves.symm.trans hn') hn
  · rw [hb, hb']; exact hresult

/-- SERIALIZE walks the one tree of the live nodes, and writes the rows that it makes live (R140). -/
theorem serializeTree (h : SameLive s s') (hs : Inv s) (ha : s.treeState.valid = true) {u : State} (hu : serializeTree s = .next u) :
    ∃ u', Machine.serializeTree s' = .next u' ∧ SameLive u u' := by
  obtain ⟨rows, hv, hl, rfl⟩ := serializeTree_next hu
  obtain ⟨-, t, ht, hf, -⟩ := hs.valid ((valid_iff _).1 ha)
  have hwalk : visit s'.nodes Config.maxPath s.root [] = some rows :=
    (Tree.visit_eq_rows (h.inArena ht) ht.root hf ht.depth []).trans
      ((Tree.visit_eq_rows ht.entries ht.root hf ht.depth []).symm.trans hv)
  obtain ⟨nodes, ct, pend, rfl⟩ := h.exists_entries
  refine ⟨_, serializeTree_of_visit hwalk hl, rfl, fun _ => h.node_eq, fun r hr => ?_, h.valid_eq, h.word_eq⟩
  have hr : r.val < rows.length := Nat.lt_of_lt_of_le hr (Nat.mod_le _ _)
  simp only [writeRows_get, List.getElem?_eq_getElem hr, Option.getD_some]

theorem encodeSymbol (h : SameLive s s') (sym : Byte) : SameLive (encodeSymbol sym s) (encodeSymbol sym s') := by
  unfold Machine.encodeSymbol
  rw [h.liveRows_eq]
  cases s.liveRows.find? (fun r => r.sym == sym) with
  | none => exact h.raise _ _
  | some r =>
    obtain ⟨nodes, ct, pend, rfl⟩ := h.exists_entries
    exact h.of_frame rfl rfl

theorem loadBegin (h : SameLive s s') : SameLive (loadBegin s) (loadBegin s') := by
  obtain ⟨nodes, ct, pend, rfl⟩ := h.exists_entries
  refine ⟨rfl, fun k hk => set_congr Node.empty fun hne => ?_, fun _ hr => absurd hr (Nat.not_lt_zero _), h.valid_eq, h.word_eq⟩
  exact absurd (Fin.ext (Nat.lt_one_iff.1 hk)) hne

theorem loadSym (h : SameLive s s') : SameLive (loadSym s) (loadSym s') := by
  have hlive := h.liveNodes_eq
  obtain ⟨nodes, ct, pend, rfl⟩ := h.exists_entries
  have hdata : ({ s with nodes := nodes, ct := ct, pend := pend } : State).dataSymbol = s.dataSymbol := rfl
  refine of_ite (h.raise _ _) ?_
  rw [hdata, hlive]
  cases s.dataSymbol with
  | none => exact h.raise _ _
  | some sym => exact of_ite (h.raise _ _) (h.of_frame rfl rfl)

/-- LOAD_CHAR looks at the open row's node alone, which is live (R163). -/
theorem loadChar (h : SameLive s s') (hlive : s.rowOpen = true → s.loadCur.node.val < s.nodeCount.val) (c : Byte) :
    SameLive (loadChar c s) (loadChar c s') := by
  have hopen : s'.rowOpen = s.rowOpen := by rw [h.frame]
  have hcur : s'.loadCur = s.loadCur := by rw [h.frame]
  have hnode : s'.loadCur.node = s.loadCur.node := by rw [hcur]
  unfold Machine.loadChar
  rw [hopen]
  cases ho : s.rowOpen with
  | false => exact h.raise _ _
  | true =>
    have hi := hlive ho
    rw [h.node_eq_at hnode hi, hcur]
    refine of_ite (h.raise _ _) ?_
    cases charBit c with
    | none => exact h.raise _ _
    | some b =>
      refine of_ite (h.raise _ _) (of_ite (h.raise _ _) ?_)
      cases hd : s.descendOrMake s.loadCur.node b with
      | none =>
        rw [h.descendOrMake_none hi hd]
        exact h.raise _ _
      | some p =>
        obtain ⟨u', hu', hu⟩ := h.descendOrMake hi hd
        rw [hu']
        obtain ⟨nodes, ct, pend, rfl⟩ := hu.exists_entries
        exact hu.of_frame rfl rfl

/-- LOAD_ROW_END looks at the open row's node alone and labels it (R166). -/
theorem loadRowEnd (h : SameLive s s') (hlive : s.rowOpen = true → s.loadCur.node.val < s.nodeCount.val) :
    SameLive (loadRowEnd s) (loadRowEnd s') := by
  have hopen : s'.rowOpen = s.rowOpen := by rw [h.frame]
  have hnode : s'.loadCur.node = s.loadCur.node := by rw [h.frame]
  unfold Machine.loadRowEnd
  rw [hopen]
  cases ho : s.rowOpen with
  | false => exact h.raise _ _
  | true =>
    rw [h.node_eq_at hnode (hlive ho)]
    refine of_ite (h.raise _ _) (of_ite (h.raise _ _) (of_ite (h.raise _ _) ?_))
    have hset := h.setNode s.loadCur.node { s.nodes[s.loadCur.node] with sym := some s.loadCur.sym }
    obtain ⟨nodes, ct, pend, rfl⟩ := h.exists_entries
    exact hset.of_frame rfl rfl

theorem loadEnd (h : SameLive s s') : SameLive (loadEnd s) (loadEnd s') := by
  have hlive := h.liveNodes_eq
  obtain ⟨nodes, ct, pend, rfl⟩ := h.exists_entries
  unfold Machine.loadEnd
  rw [hlive]
  exact of_ite (h.raise _ _) (of_ite (h.raise _ _) (of_ite (h.raise _ _) (h.of_frame rfl rfl)))

theorem endSession (h : SameLive s s') : SameLive { s with decState := .idle } { s' with decState := .idle } := by
  obtain ⟨nodes, ct, pend, rfl⟩ := h.exists_entries
  exact h.of_frame rfl rfl

theorem decBegin (h : SameLive s s') : SameLive (decBegin s) (decBegin s') := by
  obtain ⟨nodes, ct, pend, rfl⟩ := h.exists_entries
  exact h.of_frame rfl rfl

/-- DEC_BIT looks at the cursor's node and at its child, which are live (R192). -/
theorem decBit (h : SameLive s s') (hs : Inv s) (hd : s.decState ≠ .idle) (b : Bool) : SameLive (decBit b s) (decBit b s') := by
  have hnode : s'.cursor.node = s.cursor.node := by rw [h.frame]
  obtain ⟨hi, hchild⟩ := hs.cursor_live hd
  unfold Machine.decBit
  rw [h.node_eq_at hnode hi]
  cases hc : s.nodes[s.cursor.node].child b with
  | none => exact h.endSession.raise _ _
  | some j =>
    simp only [h.node_eq (hchild b j hc)]
    obtain ⟨nodes, ct, pend, rfl⟩ := h.exists_entries
    cases s.nodes[j].sym with
    | none => exact h.of_frame rfl rfl
    | some sym => exact h.of_frame rfl rfl

theorem decEnd (h : SameLive s s') : SameLive (decEnd s) (decEnd s') := by
  have hsession : s'.decState = s.decState := by rw [h.frame]
  unfold Machine.decEnd
  rw [hsession]
  exact of_ite (h.endSession.raise _ _) h.endSession

/-- The external reset writes every field of the block (R250). -/
theorem hardwareReset_eq (h : SameLive s s') : s'.hardwareReset = s.hardwareReset := by
  obtain ⟨nodes, ct, pend, rfl⟩ := h.exists_entries
  rfl

theorem commandRule (h : SameLive s s') (hs : Inv s) {i : Instr} (ha : allowed i s = true) {u : State}
    (hu : commandRule i s = .next u) : ∃ u', Machine.commandRule i s' = .next u' ∧ SameLive u u' := by
  cases i with
  | serialize => exact h.serializeTree hs ha hu
  | softReset =>
    obtain rfl := Host.Outcome.next.inj hu
    exact ⟨_, rfl, by rw [State.softReset, State.softReset, h.hardwareReset_eq]; exact refl _⟩
  | build => obtain rfl := Host.Outcome.next.inj hu; exact ⟨_, rfl, h.buildTree⟩
  | loadBegin => obtain rfl := Host.Outcome.next.inj hu; exact ⟨_, rfl, h.loadBegin⟩
  | loadSym => obtain rfl := Host.Outcome.next.inj hu; exact ⟨_, rfl, h.loadSym⟩
  | loadChar c =>
    obtain rfl := Host.Outcome.next.inj hu
    exact ⟨_, rfl, h.loadChar (hs.loadCur_live (of_decide_eq_true ha)) c⟩
  | loadRowEnd =>
    obtain rfl := Host.Outcome.next.inj hu
    exact ⟨_, rfl, h.loadRowEnd (hs.loadCur_live (of_decide_eq_true ha))⟩
  | loadEnd => obtain rfl := Host.Outcome.next.inj hu; exact ⟨_, rfl, h.loadEnd⟩
  | encode sym => obtain rfl := Host.Outcome.next.inj hu; exact ⟨_, rfl, h.encodeSymbol sym⟩
  | decBegin => obtain rfl := Host.Outcome.next.inj hu; exact ⟨_, rfl, h.decBegin⟩
  | decBit b =>
    obtain rfl := Host.Outcome.next.inj hu
    exact ⟨_, rfl, h.decBit hs ((allowed_iff _ _).1 ha) b⟩
  | decEnd => obtain rfl := Host.Outcome.next.inj hu; exact ⟨_, rfl, h.decEnd⟩
  | nop => obtain rfl := Host.Outcome.next.inj hu; exact ⟨_, rfl, h⟩
  | errClear =>
    obtain rfl := Host.Outcome.next.inj hu
    obtain ⟨nodes, ct, pend, rfl⟩ := h.exists_entries
    exact ⟨_, rfl, h.of_frame rfl rfl⟩
  | freqClear =>
    obtain rfl := Host.Outcome.next.inj hu
    obtain ⟨nodes, ct, pend, rfl⟩ := h.exists_entries
    exact ⟨_, rfl, h.of_frame rfl rfl⟩

/-! ## The core's step -/

theorem exec (h : SameLive s s') (hs : Inv s) {i : Instr} {t : State} (ht : exec i s = .next t) :
    ∃ t', Machine.exec i s' = .next t' ∧ SameLive t t' := by
  by_cases hr : i = .softReset
  · subst hr
    exact h.commandRule hs (i := .softReset) rfl ht
  by_cases hc : i = .errClear
  · subst hc
    obtain rfl := Host.Outcome.next.inj ht
    obtain ⟨u', hu', hlive⟩ := h.commandRule hs (i := .errClear) rfl rfl
    obtain rfl := Host.Outcome.next.inj hu'
    exact ⟨_, rfl, hlive.complete⟩
  rw [exec_eq_runCommand hr hc] at ht ⊢
  rcases runCommand_cases ht with ⟨he, rfl⟩ | ⟨he, ha, u, hu, rfl⟩ | ⟨he, ha, rfl⟩
  · exact ⟨_, runCommand_discard _ (h.err_eq.trans he), h.complete⟩
  · obtain ⟨u', hu', hlive⟩ := h.commandRule hs ha hu
    exact ⟨_, runCommand_run (h.err_eq.trans he) ((h.allowed_eq i).trans ha) hu', hlive.complete⟩
  · exact ⟨_, runCommand_sequence _ (h.err_eq.trans he) ((h.allowed_eq i).trans ha), (h.raise _ _).complete⟩

theorem runIllegal (h : SameLive s s') {w : Word} {why : Illegal} {t : State} (ht : runIllegal w why s = .next t) :
    ∃ t', Machine.runIllegal w why s' = .next t' ∧ SameLive t t' := by
  rcases runIllegal_cases ht with ⟨he, rfl⟩ | ⟨he, rfl⟩
  · exact ⟨_, runIllegal_discard (h.err_eq.trans he) w why, h.complete⟩
  · refine ⟨_, if_neg ?_, (h.raise _ _).complete⟩
    rw [h.err_eq, he]
    exact Bool.false_ne_true

/-- The word of PEND is looked at where it is valid alone, and then it is the same (R226). -/
theorem coreStep (h : SameLive s s') (hs : Inv s) {t : State} (ht : coreStep s = .next t) :
    ∃ t', Machine.coreStep s' = .next t' ∧ SameLive t t' := by
  have hinit := h.initPending_eq
  have hvalid := h.valid_eq
  rcases coreStep_cases ht with ⟨hi, rfl⟩ | ⟨hi, hp, i, hd, he⟩ | ⟨hi, hp, why, hd, hw⟩ | ⟨hi, hp, rfl⟩
  · obtain ⟨nodes, ct, pend, rfl⟩ := h.exists_entries
    exact ⟨_, coreStep_initJob (hinit.trans hi), h.of_frame rfl rfl⟩
  · rw [coreStep_runWord (hinit.trans hi) (hvalid.trans hp), h.word_eq hp, runWord_command hd]
    exact h.exec hs he
  · rw [coreStep_runWord (hinit.trans hi) (hvalid.trans hp), h.word_eq hp, runWord_illegal hd]
    exact h.runIllegal hw
  · exact ⟨s', coreStep_idle (by rw [State.busy, hvalid, hinit, hi, hp]; rfl), h⟩

/-! ## The outside -/

theorem withInputs (h : SameLive s s') (inputs : List Input) : SameLive { s with inputs := inputs } { s' with inputs := inputs } := by
  obtain ⟨nodes, ct, pend, rfl⟩ := h.exists_entries
  exact h.of_frame rfl rfl

theorem hostRead (h : SameLive s s') (a : WordAddr) : SameLive (s.hostRead a) (s'.hostRead a) := by
  have hread := h.readWord_eq a
  have hbusy := h.busy_eq
  obtain ⟨nodes, ct, pend, rfl⟩ := h.exists_entries
  unfold State.hostRead
  rw [hread, hbusy]
  exact h.of_frame rfl rfl

theorem hostWrite (h : SameLive s s') (a : WordAddr) (v : Word) : SameLive (s.hostWrite a v) (s'.hostWrite a v) := by
  have hbusy := h.busy_eq
  obtain ⟨nodes, ct, pend, rfl⟩ := h.exists_entries
  have hdropped : SameLive { s with overrun := true } { s with overrun := true, nodes := nodes, ct := ct, pend := pend } :=
    h.of_frame rfl rfl
  unfold State.hostWrite
  rw [hbusy]
  cases target a with
  | cmd => exact of_ite hdropped ⟨rfl, fun _ => h.node_eq, fun _ => h.row_eq, rfl, fun _ => rfl⟩
  | data => exact of_ite hdropped (h.of_frame rfl rfl)
  | freq sym => exact of_ite hdropped (h.of_frame rfl rfl)
  | _ => exact h

theorem waitTurn (h : SameLive s s') (hs : Inv s) {polls : Nat} {rest : List Input} {t : State}
    (ht : waitTurn polls rest s = .next t) : ∃ t', Machine.waitTurn polls rest s' = .next t' ∧ SameLive t t' := by
  have hpoll : ∀ left, SameLive (s.poll left) (s'.poll left) := fun left => (h.withInputs left).hostRead _
  unfold Machine.waitTurn
  rw [h.busy_eq]
  rcases waitTurn_cases ht with ⟨hb, rfl⟩ | ⟨hb, k, rfl, rfl⟩ | ⟨hb, rfl, hc⟩ <;> rw [hb]
  · exact ⟨_, rfl, hpoll rest⟩
  · exact ⟨_, rfl, hpoll _⟩
  · exact h.coreStep hs hc

end SameLive

/-- Settles O58: the live entries are all that a read or a rule looks at, in a state of the invariant, and each rule writes the entries
that it makes live. -/
theorem staleEntriesNeverMatter : Obligations.StaleEntriesNeverMatter := by
  intro s s' t hs h ht
  have hin := h.inputs_eq
  have hrest : ∀ rest, Inv { s with inputs := rest } := fun rest => hs.outside rest s.reads s.draws
  unfold step takeTurn
  rcases step_cases ht with ⟨he, hc⟩ | ⟨rest, he, hc⟩ | ⟨a, rest, he, rfl⟩ | ⟨a, v, rest, he, rfl⟩ | ⟨rest, he, rfl⟩ |
    ⟨polls, rest, he, hw⟩ <;> rw [hin, he]
  · exact h.coreStep hs hc
  · exact (h.withInputs rest).coreStep (hrest rest) hc
  · exact ⟨_, rfl, (h.withInputs rest).hostRead a⟩
  · exact ⟨_, rfl, (h.withInputs rest).hostWrite a v⟩
  · exact ⟨_, rfl, (h.withInputs rest).hardwareReset_eq ▸ SameLive.refl _⟩
  · exact h.waitTurn hs hw

end Sys2Proof.Safety
end

section
/-! SUPPORT. The reset event, the initialisation job, and what BUILD and LOAD_BEGIN leave refused (70_reset_and_hazards.md R250 to R252,
R264). -/

namespace Sys2Proof.Safety

open Sys2Proof.Machine

/-! ## Reset -/

theorem step_reset {s : State} {rest : List Input} (h : s.inputs = .reset :: rest) :
    step s = .next { State.reset with inputs := rest, reads := s.reads, draws := s.draws } := by
  simp only [step, takeTurn, h]
  rfl

/-- Settles O22: the reset event answers State.reset beside the model's own fields, which are all it takes from the state before it. -/
theorem hardwareResetSetsEveryRegister : Obligations.HardwareResetSetsEveryRegister := by
  intro s rest hin
  refine ⟨_, step_reset hin, rfl, rfl, rfl, rfl, rfl, rfl, rfl, rfl, rfl, rfl, rfl, rfl, rfl, rfl, rfl, rfl, rfl, rfl, fun _ => rfl, rfl, rfl,
    rfl, readWord_id (target_addr .id), rfl, fun s' hinputs hreads hdraws => ?_⟩
  rw [step_reset (hinputs.trans hin), hreads, hdraws]
  exact ⟨_, rfl, SameLive.refl _⟩

/-- Settles O52: the model after reset is the reset event's state with those inputs. -/
theorem resetSatisfiesTheInvariant : Obligations.ResetSatisfiesTheInvariant := reset_inv

/-! ## The initialisation job -/

/-- The job leaves the state after reset where SOFT_RESET leaves any state (R101, R251). -/
theorem initJob_reset : State.reset.initJob = State.reset.softReset := rfl

/-- Settles O23: the core's turn is the job's while INIT_PENDING = 1, BUSY = 1 drops the writes before it, and SOFT_RESET ends with the
job. -/
theorem initialisationJobClearsFreq : Obligations.InitialisationJobClearsFreq := by
  refine ⟨fun s u hm hi => ?_, ?_, fun s hi => ?_, fun s => ⟨_, exec_softReset s, fun _ => rfl, rfl, rfl⟩⟩
  · refine ⟨_, hm.step_eq.trans (coreStep_initJob (hm.initPending_eq.trans hi)), fun _ => rfl, rfl, fun hp => ?_⟩
    rw [State.busy, State.initJob_pend, hm.pend_eq, hp]
    rfl
  · have hmoves : CoreMoves State.reset State.reset := .inl ⟨rfl, rfl⟩
    have hstep : step State.reset = .next State.reset.softReset := initJob_reset ▸ hmoves.step_eq.trans (coreStep_initJob rfl)
    exact ⟨_, hstep, rfl, readWord_id (target_addr .id), fun a => readWord_softReset State.reset⟩
  · have hb : s.busy = true := by rw [State.busy, hi, Bool.or_true]
    exact ⟨hb, fun a v ha => hostWrite_dropped hb (writable_iff.2 ha) v⟩

/-! ## Stale inputs -/

/-- Settles O37: a write at a FREQ word stores there or is dropped, and discard_tree's CT_VALID = 0 and DEC_STATE = IDLE, which a new
tree keeps, are what the rows of R227 for ENCODE and DEC_BIT refuse. -/
theorem staleInputsAreRefused : Obligations.StaleInputsAreRefused := by
  refine ⟨fun s sym v => ?_, fun i s t hi he h ht => ?_⟩
  · cases hb : s.busy with
    | true => rw [hostWrite_dropped hb (.inr (.inr ⟨sym, target_addr _⟩))]
    | false => rw [hostWrite_freq hb (target_addr _)]; rfl
  · have hnew := exec_newTree hi he h ht
    have hct : t.ctValid = false := congrArg State.ctValid hnew
    have hdec : t.decState = .idle := congrArg State.decState hnew
    refine ⟨hct, hdec, fun sym => ?_, fun b => exec_decBit_sequence b ht hdec⟩
    exact exec_of_not_specAllowed (i := .encode sym) ht fun hc => Bool.false_ne_true (hct.symm.trans hc)

end Sys2Proof.Safety
end
